-- ==== Sys2Proof/Word.lean ====
section
/-! DEFINITION. The word types of the ICFogli_DSP core (30_encoding.md R90, 20_memory.md R71, R73). -/

namespace Sys2Proof

/-- One event word on the event port: 64 bits, bit 63 the most significant (R90). -/
abbrev EventWord := BitVec 64

/-- One host register, or one host datum (R73). -/
abbrev Word := BitVec 32

/-- A host byte address (R71). -/
abbrev HAddr := BitVec 20

/-- One byte of the storage behind the LUT and BUF windows. -/
abbrev Byte := BitVec 8

/-- A channel identifier: the register map is laid out for 16 synthesis and 16 acquisition channels (00_scope.md R7). -/
abbrev Chan := Fin 16

end Sys2Proof
end

