-- ==== Sys2Proof/Config.lean ====
section
/-! DEFINITION. What an implementation of the block fixes (00_scope.md R7), and the sine oracle
(R15). -/

namespace Sys2Proof

/-- LUT_MAX_N, the largest lookup-table length (R7). -/
abbrev lutMaxN : Nat := 1024

/-- ACQ_MAX_C, the largest buffer capacity (R7). -/
abbrev acqMaxC : Nat := 4096

/-- SVC_ORDER, the order among pending service steps (R7, 60_exceptions.md R237). -/
inductive SvcOrder where
  /-- Any enabled service step may be taken next. -/
  | any
  /-- While TICK_SERVICE is enabled, no ACQ_SERVICE is. -/
  | tickFirst
  /-- While any ACQ_SERVICE is enabled, TICK_SERVICE is not. -/
  | acqFirst
  deriving DecidableEq, Repr

/-- A closed interval with rational ends. -/
structure Enclosure where
  lo : ℚ
  hi : ℚ
  deriving DecidableEq, Repr

/-- The point interval. -/
def Enclosure.point (q : ℚ) : Enclosure := ⟨q, q⟩

/-- The mirrored interval. -/
def Enclosure.neg (e : Enclosure) : Enclosure := ⟨-e.hi, -e.lo⟩

/-- The eight exact values of R15 law (d): a number of turns and its sine. -/
def exactSines : List (ℚ × ℚ) :=
  [(0, 0), (1 / 12, 1 / 2), (1 / 4, 1), (5 / 12, 1 / 2), (1 / 2, 0), (7 / 12, -1 / 2), (3 / 4, -1), (11 / 12, -1 / 2)]

/-- The laws (a) to (e) that R15 states of sin2pi, a real number for each rational number of turns. -/
structure Sin2piLaws (v : ℚ → ℝ) : Prop where
  /-- Law (a). -/
  range : ∀ x, -1 ≤ v x ∧ v x ≤ 1
  /-- Law (b). -/
  period : ∀ x, v (x + 1) = v x
  /-- Law (c). -/
  odd : ∀ x, v (-x) = -v x
  /-- Law (d). -/
  exact : ∀ p ∈ exactSines, v p.1 = p.2
  /-- Law (e): a rational value only at the turns of law (d), modulo 1. -/
  niven : ∀ x q : ℚ, v x = q → ∃ p ∈ exactSines, ∃ k : ℤ, x = p.1 + k

/-- `enclose n x` is a computable approximation of the real number `v x`: an interval around it at every level n, as
narrow as one likes at some level, and the value itself where that is rational. -/
structure Encloses (enclose : Nat → ℚ → Enclosure) (v : ℚ → ℝ) : Prop where
  contains : ∀ n x, ((enclose n x).lo : ℝ) ≤ v x ∧ v x ≤ ((enclose n x).hi : ℝ)
  narrows : ∀ x (ε : ℝ), 0 < ε → ∃ n, ((enclose n x).hi : ℝ) - (enclose n x).lo < ε
  rational : ∀ n x (q : ℚ), v x = q → enclose n x = .point q

/-- A sine oracle (R7, R15, 92_eei_decisions.md D4): the approximations of a real-valued function with the laws of R15. The
form is a DESIGN CHOICE (log 1). -/
structure SineOracle where
  enclose : Nat → ℚ → Enclosure
  lawful : ∃ v : ℚ → ℝ, Sin2piLaws v ∧ Encloses enclose v

/-- FREE VALUE (log 1): the configuration field sin2pi (R15; U2 of 93_implementation_defined.md). Nothing is known of the
oracle it holds but the laws of R15, which every oracle carries; `none` leaves the field at the real sine. -/
opaque Config.sin2pi : Option SineOracle

/-- Which sine the block is configured with (R7, R15). -/
inductive SineParam where
  /-- The real sine, computed (R15's first sentence). -/
  | realSine
  /-- The configuration field `Config.sin2pi`, of which only the laws of R15 are known. -/
  | configured
  deriving DecidableEq, Repr

/-- The parameters of R7 that the model takes as arguments. A state carries them, no step changes them (log 2).
NSYN and NACQ are held less one, as HWCFG reports them (10_state.md R24), so that both lie in 1..16. `sin2pi` names the sine
oracle, which `Params.sine` (Machine/Sine.lean) gives (log 1). -/
structure Params where
  nsynLess1 : Fin 16
  nacqLess1 : Fin 16
  svcOrder : SvcOrder
  sin2pi : SineParam
  deriving DecidableEq, Repr

/-- NSYN, the number of synthesis channels. -/
def Params.nsyn (p : Params) : Nat := p.nsynLess1.val + 1

/-- NACQ, the number of acquisition channels. -/
def Params.nacq (p : Params) : Nat := p.nacqLess1.val + 1

/-- The reference configuration of R7: NSYN = 2, NACQ = 2, SVC_ORDER = ANY, and the real sine. DESIGN CHOICE (log 2). -/
def Params.reference : Params := { nsynLess1 := 1, nacqLess1 := 1, svcOrder := .any, sin2pi := .realSine }

end Sys2Proof
end

