-- ==== Sys2Proof/Syntax.lean ====
section
/-! DEFINITION. The operations of the event port, one constructor per row of spec/opcode_table.json
(30_encoding.md R94). The operand fields are the bits of the word (R92, R93), so every term is encodable. -/

namespace Sys2Proof

inductive Instr where
  /-- TICK, the timer interrupt (R95). -/
  | tick
  /-- CONV_DONE, a conversion result of an acquisition channel (R96). -/
  | convDone (ch : BitVec 4) (sample : BitVec 12)
  /-- HOST_WR, a 32-bit host write (R98). -/
  | hostWr (addr : HAddr) (data : Word)
  /-- HOST_RD, a 32-bit host read (R99). -/
  | hostRd (addr : HAddr)
  /-- RESET (R100). -/
  | reset
  deriving DecidableEq, Repr

end Sys2Proof
end

