-- ==== Sys2Proof/WellFormed.lean ====
section
/-! DEFINITION. Well-formed event words: the match and mask table of spec/opcode_table.json (30_encoding.md R95 to R100,
R104), independent of the decoder. An `Instr` needs no check of its own: its fields have the encoding's widths. -/

namespace Sys2Proof

/-- One row of the opcode table: a word belongs to it exactly when (word AND mask) = pattern (R104). -/
structure OpcodeRow where
  mnemonic : String
  pattern : EventWord
  mask : EventWord
  deriving DecidableEq, Repr

/-- TICK's row (R95). -/
def OpcodeRow.tick : OpcodeRow := ⟨"TICK", 0x1000000000000000, 0xFFFFFFFFFFFFFFFF⟩
/-- CONV_DONE's row (R96). -/
def OpcodeRow.convDone : OpcodeRow := ⟨"CONV_DONE", 0x2000000000000000, 0xF0FFFFFFFFFFF000⟩
/-- HOST_WR's row (R98). -/
def OpcodeRow.hostWr : OpcodeRow := ⟨"HOST_WR", 0x3000000000000000, 0xFFF0000000000000⟩
/-- HOST_RD's row (R99). -/
def OpcodeRow.hostRd : OpcodeRow := ⟨"HOST_RD", 0x4000000000000000, 0xFFF00000FFFFFFFF⟩
/-- RESET's row (R100). -/
def OpcodeRow.reset : OpcodeRow := ⟨"RESET", 0xF000000000000000, 0xF000000000000000⟩

/-- The row accepts the word. -/
def OpcodeRow.accepts (r : OpcodeRow) (w : EventWord) : Bool := w &&& r.mask == r.pattern

/-- The whole table. -/
def opcodeRows : List OpcodeRow :=
  [OpcodeRow.tick, OpcodeRow.convDone, OpcodeRow.hostWr, OpcodeRow.hostRd, OpcodeRow.reset]

/-- A word is well formed when some row accepts it. Every other word is MALFORMED (R97). -/
def EventWord.wellFormed (w : EventWord) : Bool := opcodeRows.any (·.accepts w)

end Sys2Proof
end

