-- ==== Sys2Proof/Decode.lean ====
section
/-! DEFINITION. The decoder of event words, total on all 2^64 words (30_encoding.md R104), and the encoder (R108). -/

namespace Sys2Proof

/-- Why a word is MALFORMED (R97). -/
inductive Malformed where
  /-- OP is 0x0 or 0x5 to 0xE. -/
  | reservedOp
  /-- A should-be-zero bit of a defined OP is set. -/
  | shouldBeZero
  deriving DecidableEq, Repr

/-- OP, w[63:60] (R91). -/
def opField (w : EventWord) : BitVec 4 := w.extractLsb' 60 4
/-- CH, w[59:56] (R92). -/
def chField (w : EventWord) : BitVec 4 := w.extractLsb' 56 4
/-- ADDR, w[51:32] (R92). -/
def addrField (w : EventWord) : HAddr := w.extractLsb' 32 20
/-- DATA, w[31:0] (R92). -/
def dataField (w : EventWord) : Word := w.extractLsb' 0 32
/-- SAMPLE, w[11:0] (R93). -/
def sampleField (w : EventWord) : BitVec 12 := w.extractLsb' 0 12

/-- R104, case by case. -/
def decode (w : EventWord) : Except Malformed Instr :=
  match opField w with
  | 0xF#4 => .ok .reset
  | 0x1#4 => if w.extractLsb' 0 60 = 0 then .ok .tick else .error .shouldBeZero
  | 0x2#4 =>
    if w.extractLsb' 12 44 = 0 then .ok (.convDone (chField w) (sampleField w)) else .error .shouldBeZero
  | 0x3#4 =>
    if w.extractLsb' 52 8 = 0 then .ok (.hostWr (addrField w) (dataField w)) else .error .shouldBeZero
  | 0x4#4 =>
    if w.extractLsb' 52 8 = 0 ∧ dataField w = 0 then .ok (.hostRd (addrField w)) else .error .shouldBeZero
  | _ => .error .reservedOp

/-- The word that presents an operation (R108). -/
def encode : Instr → EventWord
  | .tick => 0x1000000000000000
  | .convDone ch sample => 0x2#4 ++ ch ++ 0#44 ++ sample
  | .hostWr addr data => 0x3#4 ++ 0#8 ++ addr ++ data
  | .hostRd addr => 0x4#4 ++ 0#8 ++ addr ++ 0#32
  | .reset => 0xF000000000000000

/-- The event word whose low `nbits` bits are `w` and whose other bits are 0. -/
def tableWord (nbits w : Nat) : EventWord := BitVec.ofNat 64 (w % 2 ^ nbits)

/-- What the decoder reads from a row of spec/opcode_table.json: an event word is presented whole (R89), so its bits are
the table's bits (log 12). -/
def decodeTableWord (nbits w : Nat) : Option Instr := (decode (tableWord nbits w)).toOption

end Sys2Proof
end

