-- ==== Sys2Proof/Machine/State.lean ====
section
/-! DEFINITION. The state of the block (10_state.md), its reset value (70_reset_and_hazards.md R261), and the reasons a
step could stop. -/

namespace Sys2Proof.Machine

/-- RUNSTATE (R22). -/
inductive RunState where
  | configuring
  | running
  deriving DecidableEq, Repr

/-- The error and condition codes (60_exceptions.md R230), by name. -/
inductive ErrCode where
  | busMisaligned
  | busUnmapped
  | busReadonly
  | cfgLocked
  | startInvalid
  | evMalformed
  | evChannel
  | lutSat
  | tickMissed
  | acqOverrun
  deriving DecidableEq, Repr

/-- The output events of the trace (00_scope.md R17). -/
inductive OutEvent where
  /-- Synthesis output value `v` on channel `c`. -/
  | sink (c : Chan) (v : Nat)
  /-- The PWM settings, as exact integers (42_modulation.md R170). -/
  | pwmApply (geom : BitVec 1) (period cmpA cmpB phs : Int)
  | live (level : Bool)
  | convStart
  | hostResp (ok : Bool) (data : Word)
  | error (code : ErrCode)
  | resetDone
  deriving DecidableEq, Repr

/-- What an agent presents to the block next (R67, 20_memory.md R80): an event word on the port, or the turn of a
service. The MODEL's own type (log 3). -/
inductive Turn where
  | word (w : EventWord)
  | tickService
  | acqService (a : Chan)
  deriving DecidableEq, Repr

/-- STATUS[14:8] and LASTERR (R26, R27). -/
structure ErrState where
  sticky : BitVec 7
  lastErr : BitVec 8
  deriving DecidableEq, Repr

/-- The global and modulation CFG registers, and CTRL.MOD_ONCE (R25, R28 to R30, R34 to R39). -/
structure GlobalCfg where
  modOnce : Bool
  tickPNs : Word
  trigDiv : Word
  liveDiv : Word
  modFreq : Word
  modDuty : Word
  modPhase : Word
  modGeom : BitVec 1
  modClkbase : Word
  modRefreshLo : Word
  modRefreshHi : Word
  modEpsLo : Word
  modEpsHi : Word
  deriving DecidableEq, Repr

/-- The tick service's own working state (R32, R53, R55). DEDUCED (log 19): R63 lists "all the hidden state there is" without
TRIG_SUB, but no register of the map shows it; `trigSub` is kept as R55 states it, hidden state beside R63's list. -/
structure TickWork where
  elapsed : Nat
  tickCnt : Word
  trigCnt : Word
  liveSub : Nat
  liveLevel : Bool
  trigSub : Nat
  deriving DecidableEq, Repr

/-- The modulation scheduler's results and hidden state (R40, R41, R56). -/
structure ModWork where
  period : Word
  cmpA : Word
  cmpB : Word
  phs : Word
  applyCnt : Word
  lastWin : Option Nat
  deriving DecidableEq, Repr

/-- The CFG registers of a synthesis channel; reserved bits are not stored (R42 to R45, 44_host_access.md R206). -/
structure SynCfg where
  mode : BitVec 2
  freq : Word
  amp : Word
  offset : Word
  outmax : Word
  lutN : Word
  gain : Word
  shift : BitVec 4
  deriving DecidableEq, Repr

/-- A synthesis channel: its configuration and its working state (R49 to R52). -/
structure SynChannel where
  cfg : SynCfg
  phase : ℚ
  inc : ℚ
  index : Nat
  out : Nat
  deriving DecidableEq, Repr

/-- The CFG registers of an acquisition channel (R47). -/
structure AcqCfg where
  en : BitVec 1
  cap : Word
  deriving DecidableEq, Repr

/-- An acquisition channel: its configuration, latch, index and counters (R48, R59, R60). -/
structure AcqChannel where
  cfg : AcqCfg
  pend : Bool
  res : BitVec 12
  widx : Nat
  cnt : Word
  ovr : Word
  deriving DecidableEq, Repr

/-- The storage behind the LUT and BUF windows, by host byte address (R57, R58; log 6). An address it does not list
reads 0, the reset contents R261 gives. -/
abbrev Memory := List Host.Cell

/-- The canonical form: addresses strictly rising, no entry equal to what an unlisted address reads as. -/
abbrev Memory.wf (m : Memory) : Prop := m.Pairwise (fun x y => x.1 < y.1) ∧ ∀ x ∈ m, x.2 ≠ 0

/-- The whole block. `params` and `turns` are the model's own fields (log 2, log 3). -/
structure State where
  params : Params
  turns : List Turn
  trace : List OutEvent
  run : RunState
  err : ErrState
  cfg : GlobalCfg
  tick : TickWork
  tickPend : Bool
  dlmissCnt : Word
  snap : Word
  pwm : ModWork
  syn : Vector SynChannel 16
  acq : Vector AcqChannel 16
  mem : Memory
  deriving DecidableEq, Repr

/-- No step of this block stops with a fault: it has no traps (60_exceptions.md R240) and no terminal state
(70_reset_and_hazards.md R279), so the type has no constructor (log 9). -/
inductive Fault : Type
  deriving DecidableEq, Repr

/-- Why an instruction has no meaning. No arm of `exec` answers with it (log 9). -/
inductive Refusal where
  /-- Raised by `exec` for an instruction that is not modelled yet. Safe: nothing is claimed of it. -/
  | notModelled (mnemonic : String)
  deriving DecidableEq, Repr

/-- Reset values of the error reporting (R261). -/
def ErrState.reset : ErrState := { sticky := 0, lastErr := 0 }

/-- Reset values of the global and modulation configuration (R261). -/
def GlobalCfg.reset : GlobalCfg :=
  { modOnce := false, tickPNs := 0, trigDiv := 1, liveDiv := 0,
    modFreq := 0, modDuty := 0, modPhase := 0, modGeom := 0, modClkbase := 0,
    modRefreshLo := 0, modRefreshHi := 0, modEpsLo := 0, modEpsHi := 0 }

/-- Reset values of the tick service's working state (R261). -/
def TickWork.reset : TickWork :=
  { elapsed := 0, tickCnt := 0, trigCnt := 0, liveSub := 0, liveLevel := false, trigSub := 0 }

/-- Reset values of the modulation results and LASTWIN (R261). -/
def ModWork.reset : ModWork := { period := 0, cmpA := 0, cmpB := 0, phs := 0, applyCnt := 0, lastWin := none }

/-- Reset values of a synthesis channel (R261). -/
def SynChannel.reset : SynChannel :=
  { cfg := { mode := 0, freq := 0, amp := 0, offset := 0, outmax := 4095, lutN := 0, gain := 1000000, shift := 4 },
    phase := 0, inc := 0, index := 0, out := 0 }

/-- Reset values of an acquisition channel (R261). -/
def AcqChannel.reset : AcqChannel :=
  { cfg := { en := 0, cap := 0 }, pend := false, res := 0, widx := 0, cnt := 0, ovr := 0 }

/-- The power-on state of the block with the given parameters: the table of R261 with an empty trace (R262). -/
def State.powerOn (p : Params) : State :=
  { params := p, turns := [], trace := [], run := .configuring,
    err := .reset, cfg := .reset, tick := .reset, tickPend := false, dlmissCnt := 0, snap := 0, pwm := .reset,
    syn := Vector.replicate 16 .reset, acq := Vector.replicate 16 .reset, mem := [] }

/-- The machine right after power-on (R262), in the reference configuration of R7 (log 2). -/
def State.reset : State := State.powerOn .reference

end Sys2Proof.Machine
end

