-- ==== Sys2Proof/Machine/Operands.lean ====
section
/-! DEFINITION. The arithmetic primitives of the rules, all exact (00_scope.md R9, R10), and the channel lists. -/

namespace Sys2Proof.Machine

/-- sext_32: the two's complement reading of a word (R9). -/
def sext32 (v : Word) : Int := v.toInt

/-- wrap32: an integer stored into a 32-bit register (R9). -/
def wrap32 (z : Int) : Word := BitVec.ofInt 32 z

/-- roundHA: the nearest integer, ties away from zero (R10). -/
def roundHA (q : ℚ) : Int := if 0 ≤ q then (q + 1 / 2).floor else -(-q + 1 / 2).floor

/-- trunc(a / b) for b > 0: the quotient rounded toward zero (R10). -/
def truncDiv (a b : Int) : Int := a.tdiv b

/-- floor(a / b) for b > 0 (R10). -/
def floorDiv (a b : Int) : Int := a / b

/-- clamp(v, lo, hi) = min(max(v, lo), hi) (R10). -/
def clamp (v lo hi : Int) : Int := min (max v lo) hi

/-- A {HI, LO} register pair as one unsigned 64-bit value (20_memory.md R72). -/
def pair64 (hi lo : Word) : Nat := hi.toNat * 2 ^ 32 + lo.toNat

/-- The channels 0 .. n-1, ascending (R19). -/
def channels (n : Nat) : List Chan := (List.finRange 16).filter (fun c => decide (c.val < n))

/-- The channel number of CONV_DONE's CH field (R92). -/
def chanOf (ch : BitVec 4) : Chan := ch.toFin

end Sys2Proof.Machine
end

