-- ==== Sys2Proof/Machine/Flags.lean ====
section
/-! DEFINITION. The STATUS flags: the sticky bit of each code (60_exceptions.md R230, R231), the views of RUNSTATE and of
the interrupt latches (10_state.md R26), and the W1C write (44_host_access.md R208). The block has no condition codes (R61). -/

namespace Sys2Proof.Machine

/-- The number of a code (R230). -/
def codeNumber : ErrCode → BitVec 8
  | .busMisaligned => 1
  | .busUnmapped => 2
  | .busReadonly => 3
  | .cfgLocked => 4
  | .startInvalid => 5
  | .evMalformed => 6
  | .evChannel => 7
  | .lutSat => 8
  | .tickMissed => 9
  | .acqOverrun => 10

/-- b(k), the STATUS bit of a code (R231). -/
def statusBit : ErrCode → Nat
  | .busMisaligned => 8
  | .busUnmapped => 8
  | .busReadonly => 8
  | .cfgLocked => 9
  | .startInvalid => 10
  | .evMalformed => 11
  | .evChannel => 11
  | .lutSat => 12
  | .tickMissed => 13
  | .acqOverrun => 14

/-- The code's bit within STATUS[14:8]. -/
def stickyMask (k : ErrCode) : BitVec 7 := 1#7 <<< (statusBit k - 8)

/-- Setting a code's sticky bit; a bit already 1 stays 1 (R231). -/
def setSticky (k : ErrCode) (sticky : BitVec 7) : BitVec 7 := sticky ||| stickyMask k

/-- STATUS[14:8] <- STATUS[14:8] AND NOT d[14:8] (44_host_access.md R205, R208). -/
def clearSticky (d : Word) (sticky : BitVec 7) : BitVec 7 := sticky &&& ~~~(d.extractLsb' 8 7)

/-- A flag as a word's bit 0. -/
def flagWord (b : Bool) : Word := if b then 1 else 0

/-- ACQ_ANY_PEND: the OR over a < NACQ of ACQ_PEND[a] (R26). -/
def acqAnyPend (s : State) : Bool := (channels s.params.nacq).any (fun a => s.acq[a].pend)

/-- RUNSTATE = RUNNING. -/
def isRunning (s : State) : Bool := s.run == .running

/-- The STATUS word (R26, 44_host_access.md R210). -/
def statusWord (s : State) : Word :=
  (s.err.sticky.setWidth 32 <<< 8) ||| (flagWord (acqAnyPend s) <<< 2) ||| (flagWord s.tickPend <<< 1) |||
    flagWord (isRunning s)

/-- The CTRL word: MOD_ONCE << 1 OR RUN (R25, 44_host_access.md R210). -/
def ctrlWord (s : State) : Word := (flagWord s.cfg.modOnce <<< 1) ||| flagWord (isRunning s)

end Sys2Proof.Machine
end

