-- ==== Sys2Proof/Machine/Ops.lean ====
section
/-! DEFINITION. The named operations over the state: output events, error reporting (the block's only exception), channel
access, and the storage behind the LUT and BUF windows. -/

namespace Sys2Proof.Machine

/-! ## Output and errors -/

/-- `emit EV`: append an output event to the trace (00_scope.md R11). -/
def emit (e : OutEvent) (s : State) : State := { s with trace := s.trace ++ [e] }

/-- Reporting code k, the shared effect of raise and note: the sticky bit, LASTERR <- k, ERROR(k) (R13, R14, R231). The
block has no trap: nothing is saved, no mode changes, control goes nowhere (R240). -/
def report (k : ErrCode) (s : State) : State :=
  emit (.error k) { s with err := { sticky := setSticky k s.err.sticky, lastErr := codeNumber k } }

/-- `raise BlockError(k)`: the report is the step's whole effect, and the step ends (R13). -/
def raise (k : ErrCode) (s : State) : State := report k s

/-- `note BlockCondition(k)`: the report, and the step goes on (R14). -/
def note (k : ErrCode) (s : State) : State := report k s

/-! ## Channels -/

/-- Replace synthesis channel c. -/
def setSyn (c : Chan) (ch : SynChannel) (s : State) : State := { s with syn := s.syn.set c ch }

/-- Replace acquisition channel a. -/
def setAcq (a : Chan) (ch : AcqChannel) (s : State) : State := { s with acq := s.acq.set a ch }

/-! ## Storage -/

/-- The byte at an address: the listed one, or 0 (log 6). -/
def readByte : Memory → Nat → Byte
  | [], _ => 0
  | (k, v) :: m, a => if k = a then v else readByte m a

/-- Insert a byte at its place in an address-ordered list. -/
def insertByte (a : Nat) (v : Byte) : Memory → Memory
  | [] => [(a, v)]
  | (k, u) :: m => if a < k then (a, v) :: (k, u) :: m else if k = a then (a, v) :: m else (k, u) :: insertByte a v m

/-- Write a byte, keeping the canonical form: writing 0 takes the entry out. -/
def writeByte (a : Nat) (v : Byte) (m : Memory) : Memory :=
  if v = 0 then m.filter (fun x => decide (x.1 ≠ a)) else insertByte a v m

/-- Two bytes, the low one at the lower address (log 6). -/
def readHalf (m : Memory) (a : Nat) : BitVec 16 := readByte m (a + 1) ++ readByte m a

/-- Write two bytes, the low one at the lower address (log 6). -/
def writeHalf (a : Nat) (v : BitVec 16) (m : Memory) : Memory :=
  writeByte (a + 1) (v.extractLsb' 8 8) (writeByte a (v.extractLsb' 0 8) m)

/-- The host address of LUT[c][k] (R57). -/
def lutAddr (c : Chan) (k : Nat) : Nat := 0x10000 + 0x1000 * c.val + 4 * k

/-- The host address of BUF[a][k] (R58). -/
def bufAddr (a : Chan) (k : Nat) : Nat := 0x20000 + 0x4000 * a.val + 4 * k

/-- LUT[c][k], a 16-bit signed entry (R57). There is no entry k ≥ 1024; no reachable state reads one (log 7). -/
def readLut (m : Memory) (c : Chan) (k : Nat) : Int := if k < lutMaxN then (readHalf m (lutAddr c k)).toInt else 0

/-- BUF[a][k], a 12-bit unsigned slot (R58). There is no slot k ≥ 4096; no reachable state reads one (log 7). -/
def readBuf (m : Memory) (a : Chan) (k : Nat) : BitVec 12 :=
  if k < acqMaxC then (readHalf m (bufAddr a k)).setWidth 12 else 0

/-- LUT[c][k] <- v. -/
def writeLut (c : Chan) (k : Nat) (v : BitVec 16) (m : Memory) : Memory :=
  if k < lutMaxN then writeHalf (lutAddr c k) v m else m

/-- BUF[a][k] <- v. -/
def writeBuf (a : Chan) (k : Nat) (v : BitVec 12) (m : Memory) : Memory :=
  if k < acqMaxC then writeHalf (bufAddr a k) (v.setWidth 16) m else m

/-- Every entry of LUT[c] <- 0. -/
def clearLut (c : Chan) (m : Memory) : Memory :=
  m.filter (fun x => decide (x.1 < lutAddr c 0 ∨ lutAddr c lutMaxN ≤ x.1))

/-- LUT[c][k], LUT[c][k+1], … <- the given entries. -/
def writeLutFrom (c : Chan) : Nat → List (BitVec 16) → Memory → Memory
  | _, [], m => m
  | k, v :: vs, m => writeLut c k v (writeLutFrom c (k + 1) vs m)

/-- LUT[c] <- the given entries, and 0 in every entry after them (41_synthesizer.md R143). -/
def writeTable (c : Chan) (entries : List (BitVec 16)) (m : Memory) : Memory := writeLutFrom c 0 entries (clearLut c m)

end Sys2Proof.Machine
end

