-- ==== Sys2Proof/Machine/Acquisition.lean ====
section
/-! DEFINITION. The acquisition interrupt controller and the circular sample FIFO (43_acquisition.md). -/

namespace Sys2Proof.Machine

/-- CONV_DONE(a, s) (R181): the channel check comes first; an unarmed channel ignores the word; a result that is still
pending is replaced and counted (R182). -/
def convDoneEvent (a : Chan) (sample : BitVec 12) (s : State) : State :=
  let ch := s.acq[a]
  if s.params.nacq ≤ a.val then raise .evChannel s
  else if isRunning s = false ∨ ch.cfg.en = 0 then s
  else if ch.pend then
    note .acqOverrun (setAcq a { ch with res := sample, ovr := ch.ovr + 1 } s)
  else setAcq a { ch with res := sample, pend := true } s

/-- The meaning of CONV_DONE (R181). -/
def execConvDone (ch : BitVec 4) (sample : BitVec 12) (s : State) : Host.Outcome State Fault Refusal :=
  .next (convDoneEvent (chanOf ch) sample s)

/-- The write index after a write: one more, back to 0 at the capacity (R184). -/
def nextWidx (cap widx : Nat) : Nat := if widx + 1 = cap then 0 else widx + 1

/-- ACQ_SERVICE(a) (R184): store at WIDX, then advance (90_conflicts.md C1). -/
def acqService (a : Chan) (s : State) : State :=
  let ch := s.acq[a]
  setAcq a { ch with widx := nextWidx ch.cfg.cap.toNat ch.widx, cnt := ch.cnt + 1, pend := false }
    { s with mem := writeBuf a ch.widx ch.res s.mem }

end Sys2Proof.Machine
end

