-- ==== Sys2Proof/Machine/SineSeries.lean ====
section
/-! DEFINITION. Rational enclosures of the real sine, as narrow as one likes (00_scope.md R15). Two consecutive partial sums
of an alternating series enclose its limit: the sine's Taylor series, and the arctangent's in Machin's formula for π. The
proofs that the enclosures hold the real sine stand below the definitions (log 1). -/

namespace Sys2Proof.Machine

/-! ## The computation -/

/-- The first `n` terms of the alternating series a 0 - a 1 + a 2 - … . -/
def altSum (a : Nat → ℚ) : Nat → ℚ
  | 0 => 0
  | n + 1 => altSum a n + (-1) ^ n * a n

/-- The terms of arctan(1/k), without their signs. -/
def arctanTerm (k : ℚ) (i : Nat) : ℚ := (1 / k) ^ (2 * i + 1) / (2 * i + 1 : Nat)

/-- The terms of sin(t), without their signs. -/
def sineTerm (t : ℚ) (i : Nat) : ℚ := t ^ (2 * i + 1) / (2 * i + 1).factorial

/-- Machin's formula π = 16·arctan(1/5) - 4·arctan(1/239) from below, rounded down to 3n decimals. -/
def piLo (n : Nat) : ℚ :=
  max 3 (⌊(16 * altSum (arctanTerm 5) (2 * n) - 4 * altSum (arctanTerm 239) (2 * n + 1)) * 10 ^ (3 * n)⌋ / 10 ^ (3 * n))

/-- The same from above, rounded up to 3n decimals. -/
def piHi (n : Nat) : ℚ :=
  (⌊(16 * altSum (arctanTerm 5) (2 * n + 1) - 4 * altSum (arctanTerm 239) (2 * n)) * 10 ^ (3 * n)⌋ + 1) / 10 ^ (3 * n)

/-- sin(2πq) for q in the first quarter turn [0, 1/4]; exact at 0, 1/12 and 1/4 (R15 law (d)). Elsewhere the Taylor series
at 2·piLo·q, widened by what π's enclosure leaves open. -/
def sineQuarter (n : Nat) (q : ℚ) : Enclosure :=
  if q = 0 then .point 0
  else if q = 1 / 12 then .point (1 / 2)
  else if q = 1 / 4 then .point 1
  else
    let t := 2 * piLo n * q
    let w := 2 * (piHi n - piLo n) * q
    ⟨max 0 (altSum (sineTerm t) (2 * n) - w), min 1 (altSum (sineTerm t) (2 * n + 1) + w)⟩

/-- A turn's fraction folded onto the first quarter, and whether the sine changes sign. -/
def foldTurn (x : ℚ) : Bool × ℚ :=
  let f := x - x.floor
  if f ≤ 1 / 4 then (false, f)
  else if f ≤ 1 / 2 then (false, 1 / 2 - f)
  else if f ≤ 3 / 4 then (true, f - 1 / 2)
  else (true, 1 - f)

/-- The level-n enclosure of sin(2πx). -/
def sineEnclosure (n : Nat) (x : ℚ) : Enclosure :=
  let e := sineQuarter n (foldTurn x).2
  if (foldTurn x).1 then e.neg else e

/-! ## Its correctness -/

open Filter Topology

theorem altSum_eq_sum (a : Nat → ℚ) (n : Nat) :
    ((altSum a n : ℚ) : ℝ) = ∑ i ∈ Finset.range n, (-1) ^ i * (a i : ℝ) := by
  induction n with
  | zero => simp [altSum]
  | succ n ih => rw [Finset.sum_range_succ, ← ih]; simp [altSum]

/-- The partial sums of an alternating series with falling terms enclose its sum. -/
theorem altSum_encloses {a : Nat → ℚ} {l : ℝ} (ha : Antitone a)
    (hl : HasSum (fun i => (-1) ^ i * (a i : ℝ)) l) (n : Nat) :
    ((altSum a (2 * n) : ℚ) : ℝ) ≤ l ∧ l ≤ ((altSum a (2 * n + 1) : ℚ) : ℝ) := by
  have hm : Antitone fun i => (a i : ℝ) := fun i j h => Rat.cast_le.2 (ha h)
  rw [altSum_eq_sum, altSum_eq_sum]
  exact ⟨hm.alternating_series_le_tendsto hl.tendsto_sum_nat n, hm.tendsto_le_alternating_series hl.tendsto_sum_nat n⟩

theorem altSum_width (a : Nat → ℚ) (n : Nat) : altSum a (2 * n + 1) - altSum a (2 * n) = a (2 * n) := by
  simp [altSum]

/-- The width falls to 0. -/
theorem altSum_width_tendsto {a : Nat → ℚ} {l : ℝ} (hl : HasSum (fun i => (-1) ^ i * (a i : ℝ)) l) :
    Tendsto (fun n => (a (2 * n) : ℝ)) atTop (𝓝 0) := by
  have h := hl.summable.tendsto_atTop_zero.comp (tendsto_id.const_mul_atTop' (show 0 < 2 by norm_num))
  simpa [Function.comp_def, pow_mul] using h

theorem antitone_arctanTerm {k : ℚ} (hk : 1 ≤ k) : Antitone (arctanTerm k) := by
  refine antitone_nat_of_succ_le fun i => ?_
  have h0 : 0 ≤ 1 / k := by positivity
  have h1 : 1 / k ≤ 1 := by rw [div_le_one (by linarith)]; exact hk
  exact div_le_div₀ (pow_nonneg h0 _) (pow_le_pow_of_le_one h0 h1 (by omega)) (by positivity) (by norm_cast; omega)

theorem hasSum_arctanTerm {k : ℚ} (hk : 1 < k) :
    HasSum (fun i => (-1) ^ i * (arctanTerm k i : ℝ)) (Real.arctan (k : ℝ)⁻¹) := by
  have hk' : (1 : ℝ) < k := by exact_mod_cast hk
  have h : ‖(k : ℝ)⁻¹‖ < 1 := by
    rw [norm_inv, Real.norm_of_nonneg (by linarith)]; exact inv_lt_one_of_one_lt₀ hk'
  convert Real.hasSum_arctan h using 2 with i
  simp [arctanTerm]; ring

theorem arctanTerm_encloses {k : ℚ} (hk : 1 < k) (n : Nat) :
    ((altSum (arctanTerm k) (2 * n) : ℚ) : ℝ) ≤ Real.arctan (k : ℝ)⁻¹ ∧
      Real.arctan (k : ℝ)⁻¹ ≤ ((altSum (arctanTerm k) (2 * n + 1) : ℚ) : ℝ) :=
  altSum_encloses (antitone_arctanTerm hk.le) (hasSum_arctanTerm hk) n

theorem antitone_sineTerm {t : ℚ} (h0 : 0 ≤ t) (h2 : t ≤ 2) : Antitone (sineTerm t) := by
  refine antitone_nat_of_succ_le fun i => ?_
  have hf : ((2 * (i + 1) + 1).factorial : ℚ) = (2 * i + 3) * (2 * i + 2) * (2 * i + 1).factorial := by
    rw [show 2 * (i + 1) + 1 = 2 * i + 1 + 1 + 1 by ring, Nat.factorial_succ, Nat.factorial_succ]; push_cast; ring
  have hp : t ^ (2 * (i + 1) + 1) = t ^ 2 * t ^ (2 * i + 1) := by rw [← pow_add]; congr 1; ring
  have ht : t ^ 2 ≤ (2 * i + 3) * (2 * i + 2) := by nlinarith [(Nat.cast_nonneg i : (0 : ℚ) ≤ i)]
  rw [sineTerm, sineTerm, hf, hp, mul_div_mul_comm]
  exact mul_le_of_le_one_left (by positivity) (div_le_one_of_le₀ ht (by positivity))

theorem hasSum_sineTerm (t : ℚ) : HasSum (fun i => (-1) ^ i * (sineTerm t i : ℝ)) (Real.sin t) := by
  convert Real.hasSum_sin (t : ℝ) using 2 with i
  simp [sineTerm]; ring

theorem sineTerm_encloses {t : ℚ} (h0 : 0 ≤ t) (h2 : t ≤ 2) (n : Nat) :
    ((altSum (sineTerm t) (2 * n) : ℚ) : ℝ) ≤ Real.sin t ∧
      Real.sin t ≤ ((altSum (sineTerm t) (2 * n + 1) : ℚ) : ℝ) :=
  altSum_encloses (antitone_sineTerm h0 h2) (hasSum_sineTerm t) n

theorem three_le_piLo (n : Nat) : 3 ≤ piLo n := le_max_left _ _

theorem piLo_le_pi (n : Nat) : ((piLo n : ℚ) : ℝ) ≤ Real.pi := by
  have hm := Real.four_mul_arctan_inv_5_sub_arctan_inv_239
  have h5 := (arctanTerm_encloses (k := 5) (by norm_num) n).1
  have h239 := (arctanTerm_encloses (k := 239) (by norm_num) n).2
  push_cast at h5 h239
  have hf : ∀ q : ℚ, (⌊q * 10 ^ (3 * n)⌋ / 10 ^ (3 * n) : ℚ) ≤ q := fun q => by
    rw [div_le_iff₀ (by positivity)]; exact Int.floor_le _
  have := hf (16 * altSum (arctanTerm 5) (2 * n) - 4 * altSum (arctanTerm 239) (2 * n + 1))
  rw [← Rat.cast_le (K := ℝ)] at this
  rw [piLo, Rat.cast_max, max_le_iff]
  refine ⟨by exact_mod_cast Real.pi_gt_three.le, this.trans ?_⟩
  push_cast
  linarith

theorem pi_le_piHi (n : Nat) : Real.pi ≤ ((piHi n : ℚ) : ℝ) := by
  have hm := Real.four_mul_arctan_inv_5_sub_arctan_inv_239
  have h5 := (arctanTerm_encloses (k := 5) (by norm_num) n).2
  have h239 := (arctanTerm_encloses (k := 239) (by norm_num) n).1
  push_cast at h5 h239
  have hf : ∀ q : ℚ, q ≤ ((⌊q * 10 ^ (3 * n)⌋ + 1) / 10 ^ (3 * n) : ℚ) := fun q => by
    rw [le_div_iff₀ (by positivity)]; exact (Int.lt_floor_add_one _).le
  have := hf (16 * altSum (arctanTerm 5) (2 * n + 1) - 4 * altSum (arctanTerm 239) (2 * n))
  rw [← Rat.cast_le (K := ℝ)] at this
  refine le_trans ?_ this
  push_cast
  linarith

/-- The width of π's enclosure, in terms that fall to 0. -/
theorem piHi_sub_piLo_le (n : Nat) :
    piHi n - piLo n ≤ 16 * arctanTerm 5 (2 * n) + 4 * arctanTerm 239 (2 * n) + 2 / 10 ^ (3 * n) := by
  have h5 := altSum_width (arctanTerm 5) n
  have h239 := altSum_width (arctanTerm 239) n
  set lo := 16 * altSum (arctanTerm 5) (2 * n) - 4 * altSum (arctanTerm 239) (2 * n + 1) with hlo
  set hi := 16 * altSum (arctanTerm 5) (2 * n + 1) - 4 * altSum (arctanTerm 239) (2 * n) with hhi
  have hp : (0 : ℚ) < 10 ^ (3 * n) := by positivity
  have h1 : lo - 1 / 10 ^ (3 * n) ≤ piLo n := by
    refine le_trans ?_ (le_max_right _ _)
    rw [sub_le_iff_le_add, ← add_div, le_div_iff₀ hp]
    exact (Int.lt_floor_add_one _).le
  have h2 : piHi n ≤ hi + 1 / 10 ^ (3 * n) := by
    rw [piHi, ← hhi, add_div]
    gcongr
    rw [div_le_iff₀ hp]; exact Int.floor_le _
  have h3 : (2 : ℚ) / 10 ^ (3 * n) = 1 / 10 ^ (3 * n) + 1 / 10 ^ (3 * n) := by ring
  rw [h3]; linarith

theorem piHi_sub_piLo_tendsto : Tendsto (fun n => ((piHi n - piLo n : ℚ) : ℝ)) atTop (𝓝 0) := by
  have h5 := (altSum_width_tendsto (hasSum_arctanTerm (k := 5) (by norm_num))).const_mul 16
  have h239 := (altSum_width_tendsto (hasSum_arctanTerm (k := 239) (by norm_num))).const_mul 4
  have h10 : Tendsto (fun n : Nat => (2 : ℝ) / 10 ^ (3 * n)) atTop (𝓝 0) := by
    have := (tendsto_pow_atTop_nhds_zero_of_lt_one (r := (1 / 1000 : ℝ)) (by norm_num) (by norm_num)).const_mul 2
    rw [mul_zero] at this
    refine this.congr fun n => ?_
    rw [pow_mul, one_div, inv_pow]; norm_num; ring
  have h := (h5.add h239).add h10
  rw [mul_zero, mul_zero, add_zero, add_zero] at h
  refine squeeze_zero (fun n => ?_) (fun n => ?_) h
  · push_cast; linarith [piLo_le_pi n, pi_le_piHi n]
  · have := (Rat.cast_le (K := ℝ)).2 (piHi_sub_piLo_le n)
    push_cast at this ⊢
    exact this

/-- Law (e) of R15 for the real sine, from Niven's theorem. -/
theorem sine_rational {x q : ℚ} (h : Real.sin (2 * Real.pi * x) = q) :
    ∃ p ∈ exactSines, ∃ k : ℤ, x = p.1 + k := by
  have hc : Real.cos (((1 / 2 - 2 * x : ℚ) : ℝ) * Real.pi) = q := by
    rw [← h, ← Real.cos_pi_div_two_sub]; congr 1; push_cast; ring
  have hn := niven_fract_angle_div_pi_eq ⟨q, hc⟩
  have hf := Int.floor_add_fract (1 / 2 - 2 * x)
  obtain ⟨j, hj⟩ := Int.even_or_odd' ⌊1 / 2 - 2 * x⌋
  simp only [Set.mem_insert_iff, Set.mem_singleton_iff] at hn
  have key : ∀ (p : ℚ × ℚ) (k : ℤ), p ∈ exactSines → x = p.1 + k → ∃ p ∈ exactSines, ∃ k : ℤ, x = p.1 + k :=
    fun p k hp hx => ⟨p, hp, k, hx⟩
  rcases hj with hj | hj <;> rw [hj] at hf <;> rcases hn with hn | hn | hn | hn <;> rw [hn] at hf <;> push_cast at hf
  · exact key (1 / 4, 1) (-j) (by simp [exactSines]) (by push_cast; linarith)
  · exact key (1 / 12, 1 / 2) (-j) (by simp [exactSines]) (by push_cast; linarith)
  · exact key (0, 0) (-j) (by simp [exactSines]) (by push_cast; linarith)
  · exact key (11 / 12, -1 / 2) (-j - 1) (by simp [exactSines]) (by push_cast; linarith)
  · exact key (3 / 4, -1) (-j - 1) (by simp [exactSines]) (by push_cast; linarith)
  · exact key (7 / 12, -1 / 2) (-j - 1) (by simp [exactSines]) (by push_cast; linarith)
  · exact key (1 / 2, 0) (-j - 1) (by simp [exactSines]) (by push_cast; linarith)
  · exact key (5 / 12, 1 / 2) (-j - 1) (by simp [exactSines]) (by push_cast; linarith)

/-- The real sine obeys the laws of R15. -/
theorem sin2piLaws_sin : Sin2piLaws fun x => Real.sin (2 * Real.pi * x) where
  range x := ⟨Real.neg_one_le_sin _, Real.sin_le_one _⟩
  period x := by simp only [Rat.cast_add, Rat.cast_one]; rw [mul_add, mul_one, Real.sin_add_two_pi]
  odd x := by simp
  exact := by
    have h6 := Real.sin_pi_div_six
    have hp : ∀ θ, Real.sin (Real.pi - θ) = Real.sin θ := Real.sin_pi_sub
    have hq : ∀ θ, Real.sin (Real.pi + θ) = -Real.sin θ := fun θ => by rw [add_comm, Real.sin_add_pi]
    simp only [exactSines, List.forall_mem_cons, List.not_mem_nil, false_implies, implies_true, and_true]
    push_cast
    refine ⟨by simp, ?_, ?_, ?_, ?_, ?_, ?_, ?_⟩
    · rw [← h6]; congr 1; ring
    · rw [show (2 : ℝ) * Real.pi * (1 / 4) = Real.pi / 2 by ring, Real.sin_pi_div_two]
    · rw [← h6, ← hp]; congr 1; ring
    · rw [← Real.sin_pi]; congr 1; ring
    · rw [neg_div, ← h6, ← hq]; congr 1; ring
    · rw [show (2 : ℝ) * Real.pi * (3 / 4) = Real.pi + Real.pi / 2 by ring, hq, Real.sin_pi_div_two]
    · rw [show (2 : ℝ) * Real.pi * (11 / 12) = -(Real.pi / 6) + 2 * Real.pi by ring, Real.sin_add_two_pi, Real.sin_neg, h6,
        neg_div]
  niven _ _ h := sine_rational h

/-! ### The quarter turn and the folding -/

section Quarter
variable {q : ℚ} (h0 : 0 ≤ q) (h4 : q ≤ 1 / 4)
include h0 h4

theorem quarterAngle_le_two (n : Nat) : 2 * piLo n * q ≤ 2 := by
  have hq0 : (0 : ℝ) ≤ q := by exact_mod_cast h0
  have hq4 : (q : ℝ) ≤ 1 / 4 := by simpa using (Rat.cast_le (K := ℝ)).2 h4
  have : (2 * piLo n * q : ℝ) ≤ 2 := by nlinarith [Real.pi_lt_four, piLo_le_pi n]
  exact_mod_cast this

theorem sineQuarter_rational {r : ℚ} (h : Real.sin (2 * Real.pi * q) = r) (n : Nat) : sineQuarter n q = .point r := by
  obtain ⟨p, hp, k, hk⟩ := sine_rational h
  have hv := sin2piLaws_sin.exact p hp
  have hk0 : k = 0 := by
    have hb : (-1 : ℚ) < k ∧ (k : ℚ) < 1 := by
      simp only [exactSines, List.mem_cons, List.not_mem_nil, or_false] at hp
      rcases hp with rfl | rfl | rfl | rfl | rfl | rfl | rfl | rfl <;> simp only at hk <;> constructor <;> linarith
    have h1 : -1 < k := by exact_mod_cast hb.1
    have h2 : k < 1 := by exact_mod_cast hb.2
    omega
  rw [hk0, Int.cast_zero, add_zero] at hk
  have hr : r = p.2 := by rw [hk, hv] at h; exact_mod_cast h.symm
  simp only [exactSines, List.mem_cons, List.not_mem_nil, or_false] at hp
  rcases hp with rfl | rfl | rfl | rfl | rfl | rfl | rfl | rfl <;> simp only at hk hr <;> subst hk hr <;>
    first | (norm_num [sineQuarter]; done) | (norm_num at h4)

theorem sineQuarter_contains (n : Nat) :
    ((sineQuarter n q).lo : ℝ) ≤ Real.sin (2 * Real.pi * q) ∧ Real.sin (2 * Real.pi * q) ≤ ((sineQuarter n q).hi : ℝ) := by
  have hpoint : ∀ r : ℚ, sineQuarter n q = .point r → (q, r) ∈ exactSines →
      ((sineQuarter n q).lo : ℝ) ≤ Real.sin (2 * Real.pi * q) ∧
        Real.sin (2 * Real.pi * q) ≤ ((sineQuarter n q).hi : ℝ) := fun r he hr => by
    have := sin2piLaws_sin.exact _ hr
    simp only at this
    rw [he, this]; exact ⟨le_rfl, le_rfl⟩
  by_cases h1 : q = 0
  · exact hpoint 0 (by simp [sineQuarter, h1]) (by simp [exactSines, h1])
  by_cases h2 : q = 1 / 12
  · exact hpoint (1 / 2) (by norm_num [sineQuarter, h2]) (by simp [exactSines, h2])
  by_cases h3 : q = 1 / 4
  · exact hpoint 1 (by norm_num [sineQuarter, h3]) (by simp [exactSines, h3])
  have hq0 : (0 : ℝ) ≤ q := by exact_mod_cast h0
  have hq4 : (q : ℝ) ≤ 1 / 4 := by simpa using (Rat.cast_le (K := ℝ)).2 h4
  have hlo := piLo_le_pi n
  have hhi := pi_le_piHi n
  have h3p := three_le_piLo n
  have ht0 : 0 ≤ 2 * piLo n * q := by positivity
  have ht2 := quarterAngle_le_two h0 h4 n
  have hs := sineTerm_encloses ht0 ht2 n
  have hd := Real.abs_sin_sub_sin_le (2 * Real.pi * q) ((2 * piLo n * q : ℚ) : ℝ)
  have hw : |2 * Real.pi * q - ((2 * piLo n * q : ℚ) : ℝ)| ≤ ((2 * (piHi n - piLo n) * q : ℚ) : ℝ) := by
    rw [abs_of_nonneg (by push_cast; nlinarith)]; push_cast; nlinarith
  have hb := abs_le.1 (hd.trans hw)
  have hsin0 : 0 ≤ Real.sin (2 * Real.pi * q) :=
    Real.sin_nonneg_of_nonneg_of_le_pi (by positivity) (by nlinarith [Real.pi_pos])
  simp only [sineQuarter, h1, h2, h3, if_false]
  rw [Rat.cast_max, Rat.cast_min, max_le_iff, le_min_iff, Rat.cast_sub, Rat.cast_add]
  exact ⟨⟨by simpa using hsin0, by linarith⟩, by simpa using Real.sin_le_one _, by linarith⟩

/-- A bound on the width that falls to 0 with the level. -/
theorem sineQuarter_width (n : Nat) :
    (sineQuarter n q).hi - (sineQuarter n q).lo ≤ sineTerm 2 (2 * n) + (piHi n - piLo n) := by
  have hpi : 0 ≤ piHi n - piLo n := by
    have := (piLo_le_pi n).trans (pi_le_piHi n)
    rw [sub_nonneg]; exact_mod_cast this
  have h3p := three_le_piLo n
  have hn : 0 ≤ sineTerm 2 (2 * n) + (piHi n - piLo n) := add_nonneg (by unfold sineTerm; positivity) hpi
  unfold sineQuarter
  split_ifs with h1 h2 h3
  iterate 3 simpa [Enclosure.point] using hn
  have ht2 := quarterAngle_le_two h0 h4 n
  have hs := altSum_width (sineTerm (2 * piLo n * q)) n
  have hm : sineTerm (2 * piLo n * q) (2 * n) ≤ sineTerm 2 (2 * n) := by
    unfold sineTerm; gcongr
  have hw : 4 * (piHi n - piLo n) * q ≤ piHi n - piLo n := by nlinarith
  refine (sub_le_sub (min_le_right _ _) (le_max_right _ _)).trans ?_
  linarith

end Quarter

/-- The folded turn lies in the first quarter and has the same sine, up to the sign told. -/
theorem foldTurn_spec (x : ℚ) : 0 ≤ (foldTurn x).2 ∧ (foldTurn x).2 ≤ 1 / 4 ∧
    Real.sin (2 * Real.pi * x) =
      if (foldTurn x).1 then -Real.sin (2 * Real.pi * (foldTurn x).2) else Real.sin (2 * Real.pi * (foldTurn x).2) := by
  have h0 : 0 ≤ x - x.floor := by have := Rat.floor_le x; linarith
  have h1 : x - x.floor < 1 := by have := Rat.lt_floor_add_one x; push_cast at this; linarith
  have hs : Real.sin (2 * Real.pi * x) = Real.sin (2 * Real.pi * ((x - x.floor : ℚ) : ℝ)) := by
    rw [← Real.sin_sub_int_mul_two_pi _ x.floor]; congr 1; push_cast; ring
  rw [hs]
  unfold foldTurn
  generalize x - x.floor = f at *
  simp only
  by_cases c1 : f ≤ 1 / 4
  · rw [if_pos c1]; exact ⟨h0, c1, by simp⟩
  rw [if_neg c1]
  by_cases c2 : f ≤ 1 / 2
  · rw [if_pos c2]; refine ⟨by linarith, by linarith, ?_⟩
    rw [if_neg (by simp), ← Real.sin_pi_sub]; congr 1; push_cast; ring
  rw [if_neg c2]
  by_cases c3 : f ≤ 3 / 4
  · rw [if_pos c3]; refine ⟨by linarith, by linarith, ?_⟩
    rw [if_pos rfl, ← Real.sin_add_pi]; congr 1; push_cast; ring
  · rw [if_neg c3]; refine ⟨by linarith, by linarith, ?_⟩
    rw [if_pos rfl, ← Real.sin_neg, ← Real.sin_add_two_pi (-_)]; congr 1; push_cast; ring

/-- The width of every enclosure of a level. -/
theorem sineEnclosure_width (n : Nat) (x : ℚ) :
    (sineEnclosure n x).hi - (sineEnclosure n x).lo ≤ sineTerm 2 (2 * n) + (piHi n - piLo n) := by
  obtain ⟨h0, h4, -⟩ := foldTurn_spec x
  have := sineQuarter_width h0 h4 n
  unfold sineEnclosure
  split_ifs
  · simp only [Enclosure.neg]; linarith
  · exact this

/-- The computation approximates the real sine. -/
theorem sineEnclosure_encloses : Encloses sineEnclosure fun x => Real.sin (2 * Real.pi * x) where
  contains n x := by
    obtain ⟨h0, h4, hs⟩ := foldTurn_spec x
    have h := sineQuarter_contains h0 h4 n
    simp only [hs, sineEnclosure]
    split_ifs
    · simp only [Enclosure.neg, Rat.cast_neg]; exact ⟨neg_le_neg h.2, neg_le_neg h.1⟩
    · exact h
  narrows x ε hε := by
    have ht := (altSum_width_tendsto (hasSum_sineTerm 2)).add piHi_sub_piLo_tendsto
    rw [add_zero] at ht
    obtain ⟨n, hn⟩ := (ht.eventually_lt_const hε).exists
    refine ⟨n, lt_of_le_of_lt ?_ hn⟩
    exact_mod_cast sineEnclosure_width n x
  rational n x q h := by
    obtain ⟨h0, h4, hs⟩ := foldTurn_spec x
    simp only [hs] at h
    unfold sineEnclosure
    split_ifs at h ⊢
    · rw [sineQuarter_rational h0 h4 (r := -q) (by push_cast; linarith)]; simp [Enclosure.neg, Enclosure.point]
    · exact sineQuarter_rational h0 h4 h n

end Sys2Proof.Machine
end

