-- ==== Sys2Proof/Machine/Sine.lean ====
section
/-! DEFINITION. The sine oracle of a block (00_scope.md R7, R15) and its one use, roundHA of a scaled and shifted sine
(41_synthesizer.md R134, R143). `roundSine` is exact for every oracle: it reads the oracle's approximation at the first
level that leaves one integer, and the laws of R15 say that some level does. -/

namespace Sys2Proof

/-- The real sine of a rational number of turns, as an oracle (R15). That it is held as enclosures is a DESIGN CHOICE
(log 1). -/
def realSine : SineOracle where
  enclose := Machine.sineEnclosure
  lawful := ⟨_, Machine.sin2piLaws_sin, Machine.sineEnclosure_encloses⟩

/-- The sine oracle that a block with these parameters uses. -/
def Params.sine (p : Params) : SineOracle :=
  match p.sin2pi with
  | .realSine => realSine
  | .configured => Config.sin2pi.getD realSine

namespace Machine

/-- Level `n` settles roundHA(sin2pi(x)·m + b): both ends of the enclosure round to one integer. -/
abbrev Settles (o : SineOracle) (x m b : ℚ) (n : Nat) : Prop :=
  roundHA ((o.enclose n x).lo * m + b) = roundHA ((o.enclose n x).hi * m + b)

/-- roundHA takes one value between two neighbouring multiples of 1/2. -/
theorem roundHA_of_between {j : ℤ} {q : ℚ} (h1 : (j : ℚ) < 2 * q) (h2 : 2 * q < j + 1) :
    roundHA q = if 0 ≤ j then (j + 1) / 2 else -(-j / 2) := by
  have hfloor : ∀ (r : ℚ) (z : ℤ), (z : ℚ) ≤ r → r < z + 1 → r.floor = z := fun r z hl hu =>
    (Int.floor_eq_iff (a := r)).2 ⟨hl, hu⟩
  obtain ⟨k, hk⟩ := Int.even_or_odd' j
  unfold roundHA
  by_cases hj : 0 ≤ j
  · have hq : (0 : ℚ) ≤ q := by have : (0 : ℚ) ≤ j := by exact_mod_cast hj
                                linarith
    rw [if_pos hq, if_pos hj]
    rcases hk with rfl | rfl <;> push_cast at h1 h2
    · rw [show (2 * k + 1) / 2 = k by omega]; exact hfloor _ _ (by linarith) (by linarith)
    · rw [show (2 * k + 1 + 1) / 2 = k + 1 by omega]
      exact hfloor _ _ (by push_cast; linarith) (by push_cast; linarith)
  · have hq : ¬(0 : ℚ) ≤ q := by have : (j : ℚ) + 1 ≤ 0 := by exact_mod_cast (by omega : j + 1 ≤ 0)
                                 linarith
    rw [if_neg hq, if_neg hj]
    rcases hk with rfl | rfl <;> push_cast at h1 h2
    · rw [show -(2 * k) / 2 = -k by omega, hfloor _ (-k) (by push_cast; linarith) (by push_cast; linarith)]
    · rw [show -(2 * k + 1) / 2 = -k - 1 by omega, hfloor _ (-k - 1) (by push_cast; linarith) (by push_cast; linarith)]

/-- Some level settles: where the sine is rational every level does, and elsewhere the scaled and shifted sine is irrational,
hence no tie, and a narrow enough enclosure holds no tie either (41_synthesizer.md R149). -/
theorem exists_settles (o : SineOracle) (x m b : ℚ) : ∃ n, Settles o x m b n := by
  obtain ⟨v, -, he⟩ := o.lawful
  by_cases hr : ∃ q : ℚ, v x = q
  · obtain ⟨q, hq⟩ := hr
    exact ⟨0, by rw [Settles, he.rational 0 x q hq]; rfl⟩
  by_cases hm : m = 0
  · exact ⟨0, by simp [Settles, hm]⟩
  have hm0 : (0 : ℝ) < 2 * |(m : ℝ)| := by simpa using hm
  set y : ℝ := 2 * (v x * m + b) with hy
  have hne : (⌊y⌋ : ℝ) ≠ y := fun h => hr ⟨((⌊y⌋ : ℚ) / 2 - b) / m, by
    have hm' : (m : ℝ) ≠ 0 := by exact_mod_cast hm
    push_cast
    rw [h, hy, eq_div_iff hm']; ring⟩
  have hlo : (⌊y⌋ : ℝ) < y := lt_of_le_of_ne (Int.floor_le y) hne
  have hhi := Int.lt_floor_add_one y
  obtain ⟨n, hn⟩ := he.narrows x (min (y - ⌊y⌋) (⌊y⌋ + 1 - y) / (2 * |(m : ℝ)|))
    (div_pos (lt_min (by linarith) (by linarith)) hm0)
  rw [lt_div_iff₀ hm0, lt_min_iff] at hn
  have hc := he.contains n x
  have key : ∀ r : ℚ, |(r : ℝ) - v x| ≤ (o.enclose n x).hi - (o.enclose n x).lo →
      ((⌊y⌋ : ℤ) : ℚ) < 2 * (r * m + b) ∧ 2 * (r * m + b) < ((⌊y⌋ : ℤ) : ℚ) + 1 := fun r hrv => by
    have hd : |2 * ((r : ℝ) * m + b) - y| ≤ ((o.enclose n x).hi - (o.enclose n x).lo) * (2 * |(m : ℝ)|) := by
      rw [show 2 * ((r : ℝ) * m + b) - y = (r - v x) * (2 * m) by rw [hy]; ring, abs_mul, abs_mul, abs_two]
      exact mul_le_mul_of_nonneg_right hrv hm0.le
    have := abs_le.1 hd
    refine ⟨?_, ?_⟩ <;> rw [← Rat.cast_lt (K := ℝ)] <;> push_cast <;> linarith
  have h1 := key _ (by rw [abs_le]; constructor <;> linarith : |((o.enclose n x).lo : ℝ) - v x| ≤ _)
  have h2 := key _ (by rw [abs_le]; constructor <;> linarith : |((o.enclose n x).hi : ℝ) - v x| ≤ _)
  exact ⟨n, by rw [Settles, roundHA_of_between h1.1 h1.2, roundHA_of_between h2.1 h2.2]⟩

/-- The level first tried; it never shows in a result (DESIGN CHOICE, log 1). It settles every rounding that is not within about 10^-23·m of a tie. -/
def firstLevel : Nat := 8

/-- A level that settles: the first one tried, or else the least. -/
def settleLevel (o : SineOracle) (x m b : ℚ) : Nat :=
  if Settles o x m b firstLevel then firstLevel else Nat.find (exists_settles o x m b)

/-- The level read settles. -/
theorem settles_settleLevel (o : SineOracle) (x m b : ℚ) : Settles o x m b (settleLevel o x m b) := by
  unfold settleLevel
  split_ifs with h
  · exact h
  · exact Nat.find_spec (exists_settles o x m b)

/-- roundHA(sin2pi(x)·m + b) for the sine oracle `o`. -/
def roundSine (o : SineOracle) (x m b : ℚ) : Int := roundHA ((o.enclose (settleLevel o x m b) x).lo * m + b)

end Machine
end Sys2Proof
end

