-- ==== Sys2Proof/Machine/Synth.lean ====
section
/-! DEFINITION. The waveform synthesizer and the lookup-table ROM (41_synthesizer.md), over the sine
oracle `o` (00_scope.md R15). -/

namespace Sys2Proof.Machine

/-- The phase update of a DIRECT channel: add the increment; above one turn, back to exactly 0 (R131). -/
def phaseStep (inc phase : ℚ) : ℚ := if phase + inc > 1 then 0 else phase + inc

/-- clamp(z + SYN_OFFSET, 0, SYN_OUTMAX): the end of both output mappings (R134, R146). -/
def toOutput (cfg : SynCfg) (z : Int) : Nat := (clamp (z + sext32 cfg.offset) 0 cfg.outmax.toNat).toNat

/-- SAMPLE(c, θ): roundHA((sin2pi(θ) + 1)·AMP/2), then offset and clamp (R134). -/
def sampleOutput (o : SineOracle) (cfg : SynCfg) (θ : ℚ) : Nat :=
  toOutput cfg (roundSine o θ ((cfg.amp.toNat : ℚ) / 2) ((cfg.amp.toNat : ℚ) / 2))

/-- A channel's new phase, read index and output. -/
structure SynResult where
  phase : ℚ
  index : Nat
  out : Nat
  deriving DecidableEq, Repr

/-- DIRECT_STEP(c) (R135): the sample uses the phase after the update. -/
def directStep (o : SineOracle) (ch : SynChannel) : SynResult :=
  let θ := phaseStep ch.inc ch.phase
  { phase := θ, index := ch.index, out := sampleOutput o ch.cfg θ }

/-- The phase of the elapsed-time variant: SYN_FREQ · ELAPSED / 10^12 turns (R137). DEDUCED (log 18): R138 remarks that such
a channel has no period when 1/d is not an integer, but by this formula d = 2/5 repeats every 5 ticks; the formula is
followed. -/
def elapsedPhase (cfg : SynCfg) (elapsed : Nat) : ℚ := (cfg.freq.toNat : ℚ) * elapsed / 1000000000000

/-- ELAPSED_STEP(c) (R137). -/
def elapsedStep (o : SineOracle) (elapsed : Nat) (ch : SynChannel) : SynResult :=
  { phase := ch.phase, index := ch.index, out := sampleOutput o ch.cfg (elapsedPhase ch.cfg elapsed) }

/-- LUT_XFORM(s, S) = (s + 32768) >> S (R145). -/
def lutXform (s : Int) (shift : BitVec 4) : Int := (s + 32768) / 2 ^ shift.toNat

/-- The read index after a read: one more, back to 0 when it would reach N (R141). -/
def nextIndex (n index : Nat) : Nat := if index + 1 = n then 0 else index + 1

/-- LUT_STEP(c) (R146, R147): the read comes before the advance. -/
def lutStep (m : Memory) (c : Chan) (ch : SynChannel) : SynResult :=
  { phase := ch.phase, index := nextIndex ch.cfg.lutN.toNat ch.index,
    out := toOutput ch.cfg (lutXform (readLut m c ch.index) ch.cfg.shift) }

/-- SYN_STEP(c) of a channel that is not OFF (R130). MODE = 0 keeps everything (R150). -/
def synStep (o : SineOracle) (m : Memory) (elapsed : Nat) (c : Chan) (ch : SynChannel) : SynResult :=
  match ch.cfg.mode with
  | 0#2 => { phase := ch.phase, index := ch.index, out := ch.out }
  | 1#2 => directStep o ch
  | 2#2 => elapsedStep o elapsed ch
  | 3#2 => lutStep m c ch

/-- Step (a) of the tick for one channel: nothing when OFF, else OUT[c] <- SYN_STEP(c) and SINK(c, v)
(40_tick_dispatcher.md R113). -/
def updateChannel (o : SineOracle) (s : State) (c : Chan) : State :=
  let ch := s.syn[c]
  if ch.cfg.mode = 0 then s
  else
    let r := synStep o s.mem s.tick.elapsed c ch
    emit (.sink c r.out) (setSyn c { ch with phase := r.phase, index := r.index, out := r.out } s)

/-- Step (a) of the tick: the channels c < NSYN, ascending (R114). -/
def updateChannels (o : SineOracle) (s : State) : State := (channels s.params.nsyn).foldl (updateChannel o) s

/-- LUT_BUILD's entry k before saturation: roundHA(sin2pi(k/N)·AMP·GAIN/10^6) (R143). -/
def lutRaw (o : SineOracle) (cfg : SynCfg) (k : Nat) : Int :=
  roundSine o ((k : ℚ) / cfg.lutN.toNat) ((cfg.amp.toNat : ℚ) * sext32 cfg.gain / 1000000) 0

/-- The raw entries k < N, in a table of LUT_MAX_N entries. -/
def lutRawTable (o : SineOracle) (cfg : SynCfg) : List Int :=
  (List.range (min cfg.lutN.toNat lutMaxN)).map (lutRaw o cfg)

/-- The entry does not fit 16 bits (R143). -/
def saturates (t : Int) : Bool := decide (t < -32768 ∨ 32767 < t)

/-- A raw entry clamped to 16 bits, as stored (R143). -/
def lutEntry (t : Int) : BitVec 16 := BitVec.ofInt 16 (clamp t (-32768) 32767)

/-- LUT_BUILD(c): write the table, and note condition 8 once when an entry saturated (R143). -/
def lutBuild (o : SineOracle) (s : State) (c : Chan) : State :=
  let raw := lutRawTable o s.syn[c].cfg
  let t := { s with mem := writeTable c (raw.map lutEntry) s.mem }
  if raw.any saturates then note .lutSat t else t

end Sys2Proof.Machine
end

