-- ==== Sys2Proof/Machine/HostAccess.lean ====
section
/-! DEFINITION. The host register space (10_state.md section 3, 20_memory.md) and host access, configuration and START
(44_host_access.md). -/

namespace Sys2Proof.Machine

/-! ## The register map -/

/-- The CFG registers but CTRL: read-write while CONFIGURING (R23, R206). -/
inductive CfgReg where
  | tickPNs
  | trigDiv
  | liveDiv
  | modFreq
  | modDuty
  | modPhase
  | modGeom
  | modClkbase
  | modRefreshLo
  | modRefreshHi
  | modEpsLo
  | modEpsHi
  | synMode (c : Chan)
  | synFreq (c : Chan)
  | synAmp (c : Chan)
  | synOffset (c : Chan)
  | synOutmax (c : Chan)
  | synLutN (c : Chan)
  | synGain (c : Chan)
  | synShift (c : Chan)
  | acqCtrl (a : Chan)
  | acqCap (a : Chan)
  deriving DecidableEq, Repr

/-- The registers of class RO or CONST, and the window entries: a write is refused with error 3 (R23, R213). -/
inductive RoReg where
  | id
  | hwcfg
  | lastErr
  | elapsedLo
  | elapsedHi
  | tickCnt
  | dlmissCnt
  | trigCnt
  | live
  | liveCnt
  | modPeriod
  | modCmpA
  | modCmpB
  | modPhs
  | modApplyCnt
  | modPol
  | synPhase (c : Chan)
  | synIndex (c : Chan)
  | synOut (c : Chan)
  | acqWidx (a : Chan)
  | acqCnt (a : Chan)
  | acqOvr (a : Chan)
  | acqStat (a : Chan)
  | acqResult (a : Chan)
  | lut (c : Chan) (k : Fin 1024)
  | buf (a : Chan) (k : Fin 4096)
  deriving DecidableEq, Repr

/-- A register of the map: CTRL (class CFG, R25), STATUS (class RO / W1C, R26), or one of the two kinds above. -/
inductive Reg where
  | ctrl
  | status
  | cfg (r : CfgReg)
  | ro (r : RoReg)
  deriving DecidableEq, Repr

/-- The global registers, 0x00000 to 0x00038 (10_state.md section 3). None of this map is a timer register
(60_exceptions.md R247). -/
def globalRegAt : Nat → Option Reg
  | 0x00 => some (.ro .id)
  | 0x04 => some (.ro .hwcfg)
  | 0x08 => some .ctrl
  | 0x0C => some .status
  | 0x10 => some (.ro .lastErr)
  | 0x14 => some (.cfg .tickPNs)
  | 0x18 => some (.cfg .trigDiv)
  | 0x1C => some (.cfg .liveDiv)
  | 0x20 => some (.ro .elapsedLo)
  | 0x24 => some (.ro .elapsedHi)
  | 0x28 => some (.ro .tickCnt)
  | 0x2C => some (.ro .dlmissCnt)
  | 0x30 => some (.ro .trigCnt)
  | 0x34 => some (.ro .live)
  | 0x38 => some (.ro .liveCnt)
  | _ => none

/-- The modulation registers, by offset from 0x00100. -/
def modRegAt : Nat → Option Reg
  | 0x00 => some (.cfg .modFreq)
  | 0x04 => some (.cfg .modDuty)
  | 0x08 => some (.cfg .modPhase)
  | 0x0C => some (.cfg .modGeom)
  | 0x10 => some (.cfg .modClkbase)
  | 0x14 => some (.cfg .modRefreshLo)
  | 0x18 => some (.cfg .modRefreshHi)
  | 0x1C => some (.cfg .modEpsLo)
  | 0x20 => some (.cfg .modEpsHi)
  | 0x24 => some (.ro .modPeriod)
  | 0x28 => some (.ro .modCmpA)
  | 0x2C => some (.ro .modCmpB)
  | 0x30 => some (.ro .modPhs)
  | 0x34 => some (.ro .modApplyCnt)
  | 0x38 => some (.ro .modPol)
  | _ => none

/-- The registers of synthesis channel c, by offset from 0x00400 + 0x40·c. -/
def synRegAt (c : Chan) : Nat → Option Reg
  | 0x00 => some (.cfg (.synMode c))
  | 0x04 => some (.cfg (.synFreq c))
  | 0x08 => some (.cfg (.synAmp c))
  | 0x0C => some (.cfg (.synOffset c))
  | 0x10 => some (.cfg (.synOutmax c))
  | 0x14 => some (.cfg (.synLutN c))
  | 0x18 => some (.cfg (.synGain c))
  | 0x1C => some (.cfg (.synShift c))
  | 0x20 => some (.ro (.synPhase c))
  | 0x24 => some (.ro (.synIndex c))
  | 0x28 => some (.ro (.synOut c))
  | _ => none

/-- The registers of acquisition channel a, by offset from 0x00800 + 0x20·a. -/
def acqRegAt (a : Chan) : Nat → Option Reg
  | 0x00 => some (.cfg (.acqCtrl a))
  | 0x04 => some (.cfg (.acqCap a))
  | 0x08 => some (.ro (.acqWidx a))
  | 0x0C => some (.ro (.acqCnt a))
  | 0x10 => some (.ro (.acqOvr a))
  | 0x14 => some (.ro (.acqStat a))
  | 0x18 => some (.ro (.acqResult a))
  | _ => none

/-- The register when the channel exists, that is when its number is below the count (20_memory.md R75). -/
def ifChannel (count : Nat) (c : Chan) (r : Option Reg) : Option Reg := if c.val < count then r else none

/-- regAt(addr) of an aligned address; `none` is UNMAPPED (R201, 20_memory.md R75, R76). -/
def regAt (p : Params) (addr : HAddr) : Option Reg :=
  let n := addr.toNat
  if n < 0x00100 then globalRegAt n
  else if n < 0x00400 then modRegAt (n - 0x00100)
  else if n < 0x00800 then
    let c := Fin.ofNat 16 ((n - 0x00400) / 0x40)
    ifChannel p.nsyn c (synRegAt c ((n - 0x00400) % 0x40))
  else if n < 0x00A00 then
    let a := Fin.ofNat 16 ((n - 0x00800) / 0x20)
    ifChannel p.nacq a (acqRegAt a ((n - 0x00800) % 0x20))
  else if n < 0x10000 then none
  else if n < 0x20000 then
    let c := Fin.ofNat 16 ((n - 0x10000) / 0x1000)
    ifChannel p.nsyn c (some (.ro (.lut c (Fin.ofNat 1024 ((n - 0x10000) % 0x1000 / 4)))))
  else if n < 0x60000 then
    let a := Fin.ofNat 16 ((n - 0x20000) / 0x4000)
    ifChannel p.nacq a (some (.ro (.buf a (Fin.ofNat 4096 ((n - 0x20000) % 0x4000 / 4)))))
  else none

/-- The address is not a multiple of 4 (20_memory.md R74). -/
def misaligned (addr : HAddr) : Bool := addr.extractLsb' 0 2 != 0

/-! ## Reads -/

/-- HWCFG (10_state.md R24, R210). -/
def hwcfgWord (p : Params) : Word := BitVec.ofNat 32 ((p.nsyn - 1) + (p.nacq - 1) * 16 + 16 * 256 + 12 * 65536)

/-- The value of a CFG register (R206, R210). -/
def readCfg (s : State) : CfgReg → Word
  | .tickPNs => s.cfg.tickPNs
  | .trigDiv => s.cfg.trigDiv
  | .liveDiv => s.cfg.liveDiv
  | .modFreq => s.cfg.modFreq
  | .modDuty => s.cfg.modDuty
  | .modPhase => s.cfg.modPhase
  | .modGeom => s.cfg.modGeom.setWidth 32
  | .modClkbase => s.cfg.modClkbase
  | .modRefreshLo => s.cfg.modRefreshLo
  | .modRefreshHi => s.cfg.modRefreshHi
  | .modEpsLo => s.cfg.modEpsLo
  | .modEpsHi => s.cfg.modEpsHi
  | .synMode c => s.syn[c].cfg.mode.setWidth 32
  | .synFreq c => s.syn[c].cfg.freq
  | .synAmp c => s.syn[c].cfg.amp
  | .synOffset c => s.syn[c].cfg.offset
  | .synOutmax c => s.syn[c].cfg.outmax
  | .synLutN c => s.syn[c].cfg.lutN
  | .synGain c => s.syn[c].cfg.gain
  | .synShift c => s.syn[c].cfg.shift.setWidth 32
  | .acqCtrl a => s.acq[a].cfg.en.setWidth 32
  | .acqCap a => s.acq[a].cfg.cap

/-- floor(PHASE · 2^31), the readback of a phase (10_state.md R46). -/
def phaseWord (phase : ℚ) : Word := wrap32 (phase * 2 ^ 31).floor

/-- The value of a read-only register or window entry (R210, R212). No row of R210 shows TRIG_SUB (log 19). -/
def readRo (s : State) : RoReg → Word
  | .id => 0x49434644
  | .hwcfg => hwcfgWord s.params
  | .lastErr => s.err.lastErr.setWidth 32
  | .elapsedLo => BitVec.ofNat 32 s.tick.elapsed
  | .elapsedHi => s.snap
  | .tickCnt => s.tick.tickCnt
  | .dlmissCnt => s.dlmissCnt
  | .trigCnt => s.tick.trigCnt
  | .live => flagWord s.tick.liveLevel
  | .liveCnt => BitVec.ofNat 32 s.tick.liveSub
  | .modPeriod => s.pwm.period
  | .modCmpA => s.pwm.cmpA
  | .modCmpB => s.pwm.cmpB
  | .modPhs => s.pwm.phs
  | .modApplyCnt => s.pwm.applyCnt
  | .modPol => 2
  | .synPhase c => phaseWord s.syn[c].phase
  | .synIndex c => BitVec.ofNat 32 s.syn[c].index
  | .synOut c => BitVec.ofNat 32 s.syn[c].out
  | .acqWidx a => BitVec.ofNat 32 s.acq[a].widx
  | .acqCnt a => s.acq[a].cnt
  | .acqOvr a => s.acq[a].ovr
  | .acqStat a => flagWord s.acq[a].pend
  | .acqResult a => s.acq[a].res.setWidth 32
  | .lut c k => wrap32 (readLut s.mem c k)
  | .buf a k => (readBuf s.mem a k).setWidth 32

/-- readValue(r) (R210). -/
def readValue (s : State) : Reg → Word
  | .ctrl => ctrlWord s
  | .status => statusWord s
  | .cfg r => readCfg s r
  | .ro r => readRo s r

/-- ELAPSED_SNAP <- (ELAPSED div 2^32) mod 2^32, the one read side effect (R211, 10_state.md R31). -/
def snapElapsed (s : State) : State := { s with snap := BitVec.ofNat 32 (s.tick.elapsed / 2 ^ 32) }

/-- The side effect of reading a register: only ELAPSED_LO has one (20_memory.md R78). -/
def readEffect (r : Reg) (s : State) : State := if r = .ro .elapsedLo then snapElapsed s else s

/-! ## Writes -/

/-- Change a synthesis channel's CFG registers. -/
def mapSynCfg (c : Chan) (f : SynCfg → SynCfg) (s : State) : State :=
  setSyn c { s.syn[c] with cfg := f s.syn[c].cfg } s

/-- Change an acquisition channel's CFG registers. -/
def mapAcqCfg (a : Chan) (f : AcqCfg → AcqCfg) (s : State) : State :=
  setAcq a { s.acq[a] with cfg := f s.acq[a].cfg } s

/-- r <- d AND writeMask(r): reserved bits are not stored (R206). -/
def writeCfg (r : CfgReg) (d : Word) (s : State) : State :=
  match r with
  | .tickPNs => { s with cfg := { s.cfg with tickPNs := d } }
  | .trigDiv => { s with cfg := { s.cfg with trigDiv := d } }
  | .liveDiv => { s with cfg := { s.cfg with liveDiv := d } }
  | .modFreq => { s with cfg := { s.cfg with modFreq := d } }
  | .modDuty => { s with cfg := { s.cfg with modDuty := d } }
  | .modPhase => { s with cfg := { s.cfg with modPhase := d } }
  | .modGeom => { s with cfg := { s.cfg with modGeom := d.setWidth 1 } }
  | .modClkbase => { s with cfg := { s.cfg with modClkbase := d } }
  | .modRefreshLo => { s with cfg := { s.cfg with modRefreshLo := d } }
  | .modRefreshHi => { s with cfg := { s.cfg with modRefreshHi := d } }
  | .modEpsLo => { s with cfg := { s.cfg with modEpsLo := d } }
  | .modEpsHi => { s with cfg := { s.cfg with modEpsHi := d } }
  | .synMode c => mapSynCfg c (fun g => { g with mode := d.setWidth 2 }) s
  | .synFreq c => mapSynCfg c (fun g => { g with freq := d }) s
  | .synAmp c => mapSynCfg c (fun g => { g with amp := d }) s
  | .synOffset c => mapSynCfg c (fun g => { g with offset := d }) s
  | .synOutmax c => mapSynCfg c (fun g => { g with outmax := d }) s
  | .synLutN c => mapSynCfg c (fun g => { g with lutN := d }) s
  | .synGain c => mapSynCfg c (fun g => { g with gain := d }) s
  | .synShift c => mapSynCfg c (fun g => { g with shift := d.setWidth 4 }) s
  | .acqCtrl a => mapAcqCfg a (fun g => { g with en := d.setWidth 1 }) s
  | .acqCap a => mapAcqCfg a (fun g => { g with cap := d }) s

/-- A STATUS write: W1C on the sticky bits (R208). -/
def writeStatus (d : Word) (s : State) : State := { s with err := { s.err with sticky := clearSticky d s.err.sticky } }

/-! ## START -/

/-- START validation (R215). -/
def startValid (s : State) : Bool :=
  decide (s.cfg.tickPNs ≠ 0) &&
  (channels s.params.nsyn).all (fun c =>
    decide (s.syn[c].cfg.mode = 3 → 1 ≤ s.syn[c].cfg.lutN.toNat ∧ s.syn[c].cfg.lutN.toNat ≤ lutMaxN)) &&
  (channels s.params.nacq).all (fun a =>
    decide (s.acq[a].cfg.en = 1 → 1 ≤ s.acq[a].cfg.cap.toNat ∧ s.acq[a].cfg.cap.toNat ≤ acqMaxC))

/-- SYN_FREQ · TICK_P_NS / 10^12 turns a tick (R216). -/
def incrementOf (cfg : SynCfg) (tickPNs : Word) : ℚ := (cfg.freq.toNat : ℚ) * tickPNs.toNat / 1000000000000

/-- INC[c] <- SYN_FREQ(c) · TICK_P_NS / 10^12 (R216). -/
def latchInc (s : State) (c : Chan) : State :=
  setSyn c { s.syn[c] with inc := incrementOf s.syn[c].cfg s.cfg.tickPNs } s

/-- LUT_BUILD(c) when channel c is in LUT mode (R214). -/
def buildIfLut (o : SineOracle) (s : State) (c : Chan) : State := if s.syn[c].cfg.mode = 3 then lutBuild o s c else s

/-- START(once), its validation passed, over the sine oracle `o` (R214). -/
def start (o : SineOracle) (once : Bool) (s : State) : State :=
  let s1 := { s with cfg := { s.cfg with modOnce := once } }
  let s2 := (channels s.params.nsyn).foldl latchInc s1
  let s3 := (channels s.params.nsyn).foldl (buildIfLut o) s2
  { s3 with run := .running }

/-! ## The two operations -/

/-- A refused access: ERROR(k), then HOST_RESP(0, 0) (R200, R203). -/
def refuseAccess (k : ErrCode) (s : State) : State := emit (.hostResp false 0) (raise k s)

/-- A performed access: HOST_RESP(1, v), the last event of the step (R200). -/
def answerAccess (v : Word) (s : State) : State := emit (.hostResp true v) s

/-- Checks 1 and 2 of R202: the register an access names, or the code it raises. -/
def locate (p : Params) (addr : HAddr) : Except ErrCode Reg :=
  if misaligned addr then .error .busMisaligned
  else match regAt p addr with
    | none => .error .busUnmapped
    | some r => .ok r

/-- Checks 3, 4 and 5 of R202 for a write of `d` to register `r`: the first code that applies. -/
def writeCheck (s : State) (r : Reg) (d : Word) : Option ErrCode :=
  match r with
  | .status => none
  | .ro _ => some .busReadonly
  | .cfg _ => if isRunning s then some .cfgLocked else none
  | .ctrl =>
    if isRunning s then some .cfgLocked
    else if d.getLsbD 0 ∧ startValid s = false then some .startInvalid else none

/-- CTRL_WRITE(d): START, or MOD_ONCE <- d[1] (R209). -/
def ctrlWrite (o : SineOracle) (d : Word) (s : State) : State :=
  if d.getLsbD 0 then start o (d.getLsbD 1) s else { s with cfg := { s.cfg with modOnce := d.getLsbD 1 } }

/-- The effect of an accepted write (R205). -/
def writeEffect (o : SineOracle) (r : Reg) (d : Word) (s : State) : State :=
  match r with
  | .status => writeStatus d s
  | .ctrl => ctrlWrite o d s
  | .cfg r => writeCfg r d s
  | .ro _ => s

/-- HOST_RD(addr) (R204). -/
def hostRead (addr : HAddr) (s : State) : State :=
  match locate s.params addr with
  | .error k => refuseAccess k s
  | .ok r => answerAccess (readValue s r) (readEffect r s)

/-- HOST_WR(addr, d) (R205) over the sine oracle `o`, which START reads. -/
def hostWriteWith (o : SineOracle) (addr : HAddr) (d : Word) (s : State) : State :=
  match locate s.params addr with
  | .error k => refuseAccess k s
  | .ok r =>
    match writeCheck s r d with
    | some k => refuseAccess k s
    | none => answerAccess 0 (writeEffect o r d s)

/-- HOST_WR(addr, d) of a block with its parameters' sine. -/
def hostWrite (addr : HAddr) (d : Word) (s : State) : State := hostWriteWith s.params.sine addr d s

/-- The meaning of HOST_RD (R204). -/
def execHostRd (addr : HAddr) (s : State) : Host.Outcome State Fault Refusal := .next (hostRead addr s)

/-- The meaning of HOST_WR (R205). -/
def execHostWr (addr : HAddr) (d : Word) (s : State) : Host.Outcome State Fault Refusal := .next (hostWrite addr d s)

end Sys2Proof.Machine
end

