-- ==== Sys2Proof/Machine/Reset.lean ====
section
/-! DEFINITION. RESET (70_reset_and_hazards.md R260) and the report of a MALFORMED word (30_encoding.md R97). -/

namespace Sys2Proof.Machine

/-- RESET (R260): every state element to its reset value (R261); the trace is kept and gains RESET_DONE (R262). The
parameters and the words still to be presented are not state of the block and stay (log 11). -/
def resetBlock (s : State) : State :=
  emit .resetDone { State.powerOn s.params with turns := s.turns, trace := s.trace }

/-- The meaning of RESET (R260). -/
def execReset (s : State) : Host.Outcome State Fault Refusal := .next (resetBlock s)

/-- A MALFORMED word, whatever made it so: BlockError(6), no other effect and no response (R97). -/
def malformedWord (_why : Malformed) (s : State) : State := raise .evMalformed s

end Sys2Proof.Machine
end

