-- ==== Sys2Proof/Machine/Modulation.lean ====
section
/-! DEFINITION. The PWM modulation scheduler (42_modulation.md). -/

namespace Sys2Proof.Machine

/-- The target frequency used, in mHz: at least 1 Hz (R164). -/
def modTarget (cfg : GlobalCfg) : Int := max (sext32 cfg.modFreq) 1000

/-- The counting geometry is symmetric (R37). -/
def modSymmetric (cfg : GlobalCfg) : Bool := cfg.modGeom == 0

/-- p, the time-base period (R165). -/
def modPeriodOf (cfg : GlobalCfg) : Int :=
  if modSymmetric cfg then floorDiv (cfg.modClkbase.toNat * 1000) (2 * modTarget cfg)
  else floorDiv (cfg.modClkbase.toNat * 1000) (modTarget cfg) - 1

/-- D, the duty used, in ppm (R166). -/
def modDutyOf (cfg : GlobalCfg) : Int := clamp (sext32 cfg.modDuty) 0 1000000

/-- q, the comparator threshold: trunc(p·(1 - d)), or trunc((p + 1)·(1 - d) - 1), with d = D/10^6 (R167). -/
def modCompareOf (cfg : GlobalCfg) : Int :=
  if modSymmetric cfg then truncDiv (modPeriodOf cfg * (1000000 - modDutyOf cfg)) 1000000
  else truncDiv ((modPeriodOf cfg + 1) * (1000000 - modDutyOf cfg) - 1000000) 1000000

/-- qb, the complementary output's threshold: the same one, under inverted polarity (R169). -/
def modCompareBOf (cfg : GlobalCfg) : Int := modCompareOf cfg

/-- h, the phase count: trunc(p·PH/10^6) with PH clamped to [0, 10^6] (R168). -/
def modPhaseOf (cfg : GlobalCfg) : Int :=
  truncDiv (modPeriodOf cfg * clamp (sext32 cfg.modPhase) 0 1000000) 1000000

/-- MOD_APPLY() (R163, R170). -/
def modApply (s : State) : State :=
  let p := modPeriodOf s.cfg
  let q := modCompareOf s.cfg
  let qb := modCompareBOf s.cfg
  let h := modPhaseOf s.cfg
  emit (.pwmApply s.cfg.modGeom p q qb h)
    { s with pwm := { s.pwm with period := wrap32 p, cmpA := wrap32 q, cmpB := wrap32 qb, phs := wrap32 h,
                                 applyCnt := s.pwm.applyCnt + 1 } }

/-- MOD_REFRESH, the cadence R in ns (10_state.md R39). -/
def modRefresh (cfg : GlobalCfg) : Nat := pair64 cfg.modRefreshHi cfg.modRefreshLo

/-- MOD_EPS, the window E in ns (10_state.md R39). -/
def modEps (cfg : GlobalCfg) : Nat := pair64 cfg.modEpsHi cfg.modEpsLo

/-- ELAPSED lies in an epsilon window, and the scheduler is enabled (R160, R161). -/
def inWindow (s : State) : Bool := decide (modRefresh s.cfg ≠ 0 ∧ s.tick.elapsed % modRefresh s.cfg < modEps s.cfg)

/-- ELAPSED div R, the index of the window (R160). -/
def windowIndex (s : State) : Nat := s.tick.elapsed / modRefresh s.cfg

/-- MOD_CHECK() (R160): under MOD_ONCE at most one application a window (R162). -/
def modCheck (s : State) : State :=
  if inWindow s then
    let t := if s.cfg.modOnce = false ∨ s.pwm.lastWin ≠ some (windowIndex s) then modApply s else s
    { t with pwm := { t.pwm with lastWin := some (windowIndex s) } }
  else s

end Sys2Proof.Machine
end

