-- ==== Sys2Proof/Machine/Tick.lean ====
section
/-! DEFINITION. The tick dispatcher (40_tick_dispatcher.md): the TICK word and the TICK_SERVICE step. -/

namespace Sys2Proof.Machine

/-- TICK (R111): ignored while CONFIGURING; a miss when a tick is pending; else it latches TICK_PEND. The timer
that fires it is outside the block (60_exceptions.md R247), and TICK_P_NS plays no part here. -/
def tickEvent (s : State) : State :=
  if isRunning s = false then s
  else if s.tickPend then note .tickMissed { s with dlmissCnt := s.dlmissCnt + 1 }
  else { s with tickPend := true }

/-- The meaning of TICK (R111). -/
def execTick (s : State) : Host.Outcome State Fault Refusal := .next (tickEvent s)

/-- Step (b) of the tick: ELAPSED advances by P, TICK_CNT by one (R113). P is the period that the timer is assumed to have
(60_exceptions.md R247). -/
def advanceTime (s : State) : State :=
  { s with tick := { s.tick with elapsed := s.tick.elapsed + s.cfg.tickPNs.toNat, tickCnt := s.tick.tickCnt + 1 } }

/-- LIVE_STEP() (R117). -/
def liveStep (s : State) : State :=
  if s.cfg.liveDiv = 0 then s
  else if s.tick.liveSub + 1 ≥ s.cfg.liveDiv.toNat then
    emit (.live (!s.tick.liveLevel)) { s with tick := { s.tick with liveSub := 0, liveLevel := !s.tick.liveLevel } }
  else { s with tick := { s.tick with liveSub := s.tick.liveSub + 1 } }

/-- TRIG_STEP() (R118). -/
def trigStep (s : State) : State :=
  if s.cfg.trigDiv = 0 then s
  else if s.tick.trigSub + 1 ≥ s.cfg.trigDiv.toNat then
    emit .convStart { s with tick := { s.tick with trigSub := 0, trigCnt := s.tick.trigCnt + 1 } }
  else { s with tick := { s.tick with trigSub := s.tick.trigSub + 1 } }

/-- TICK_PEND <- 0 (R113). -/
def clearTickPend (s : State) : State := { s with tickPend := false }

/-- TICK_SERVICE (R113) over the sine oracle `o`: channels, time, modulation, liveness, trigger, and the latch cleared. -/
def tickServiceWith (o : SineOracle) (s : State) : State :=
  clearTickPend (trigStep (liveStep (modCheck (advanceTime (updateChannels o s)))))

/-- TICK_SERVICE of a block with its parameters' sine. -/
def tickService (s : State) : State := tickServiceWith s.params.sine s

end Sys2Proof.Machine
end

