-- ==== Sys2Proof/Machine/Dispatch.lean ====
section
/-! DEFINITION. One arm per operation of spec/opcode_table.json. -/

namespace Sys2Proof.Machine

def exec (i : Instr) (s : State) : Host.Outcome State Fault Refusal :=
  match i with
  | .tick => Sys2Proof.Machine.execTick s
  | .convDone ch sample => Sys2Proof.Machine.execConvDone ch sample s
  | .hostWr addr data => Sys2Proof.Machine.execHostWr addr data s
  | .hostRd addr => Sys2Proof.Machine.execHostRd addr s
  | .reset => Sys2Proof.Machine.execReset s

end Sys2Proof.Machine
end

