-- ==== Sys2Proof/Machine/Schedule.lean ====
section
/-! DEFINITION. Who takes the next step (20_memory.md R80, 60_exceptions.md R237, R238): the next turn an agent presents,
or, when none is left, a pending service (log 3, 4, 5). -/

namespace Sys2Proof.Machine

/-- What the platform's periodic timer presents when it fires: a TICK word. The timer is outside the block (R247): the block
has no register of it, and only such a turn makes a tick. -/
def timerTurn : Turn := .word (encode .tick)

/-- TICK_SERVICE could run, priorities apart (40_tick_dispatcher.md R113). -/
def tickReady (s : State) : Bool := isRunning s && s.tickPend

/-- ACQ_SERVICE(a) could run, priorities apart (43_acquisition.md R184). -/
def acqReady (s : State) (a : Chan) : Bool := isRunning s && decide (a.val < s.params.nacq) && s.acq[a].pend

/-- Some ACQ_SERVICE could run, priorities apart. -/
def anyAcqReady (s : State) : Bool := (channels s.params.nacq).any (acqReady s)

/-- TICK_SERVICE is enabled, under SVC_ORDER (R237). -/
def tickEnabled (s : State) : Bool :=
  tickReady s && !(decide (s.params.svcOrder = .acqFirst) && anyAcqReady s)

/-- ACQ_SERVICE(a) is enabled, under SVC_ORDER (R237). -/
def acqEnabled (s : State) (a : Chan) : Bool :=
  acqReady s a && !(decide (s.params.svcOrder = .tickFirst) && tickReady s)

/-- The meaning of an operation: an instruction run on a state. -/
abbrev Meaning := Instr → State → Host.Outcome State Fault Refusal

/-- The acceptance of one event word, its operation run by `run` (30_encoding.md R104, R97). -/
def acceptWordBy (run : Meaning) (w : EventWord) (s : State) : Host.Outcome State Fault Refusal :=
  match decode w with
  | .ok i => run i s
  | .error why => .next (malformedWord why s)

/-- One presented turn. The turn of a service that is not enabled is no step of the block and changes nothing (log 4). -/
def takeTurnBy (run : Meaning) (tick : State → State) (t : Turn) (s : State) : Host.Outcome State Fault Refusal :=
  match t with
  | .word w => acceptWordBy run w s
  | .tickService => .next (if tickEnabled s then tick s else s)
  | .acqService a => .next (if acqEnabled s a then acqService a s else s)

/-- With no turn left, a pending enabled service runs, TICK_SERVICE before ACQ_SERVICE and a lower channel before a higher
one; with none pending the block is idle (R251). DESIGN CHOICE, and what makes the services weakly fair (R122, R191; log 5). -/
def drainStepBy (tick : State → State) (s : State) : State :=
  if tickEnabled s then tick s
  else match (channels s.params.nacq).find? (acqEnabled s) with
    | some a => acqService a s
    | none => s

/-- One step of a block whose operations `run` runs and whose TICK_SERVICE is `tick`. -/
def nextStepBy (run : Meaning) (tick : State → State) (s : State) : Host.Outcome State Fault Refusal :=
  match s.turns with
  | [] => .next (drainStepBy tick s)
  | t :: rest => takeTurnBy run tick t { s with turns := rest }

/-! ## The block with its parameters' sine -/

/-- The acceptance of one event word. -/
def acceptWord : EventWord → State → Host.Outcome State Fault Refusal := acceptWordBy exec

/-- One presented turn. -/
def takeTurn : Turn → State → Host.Outcome State Fault Refusal := takeTurnBy exec tickService

/-- The step with no turn left. -/
def drainStep : State → State := drainStepBy tickService

/-- One step of the block. -/
def nextStep : State → Host.Outcome State Fault Refusal := nextStepBy exec tickService

/-! ## The block with any sine oracle given (00_scope.md R15; 93_implementation_defined.md U2) -/

/-- `exec` with the sine oracle `o` given: only START, which HOST_WR runs, reads it. -/
def execWith (o : SineOracle) : Meaning := fun i s =>
  match i with
  | .tick => execTick s
  | .convDone ch sample => execConvDone ch sample s
  | .hostWr addr data => .next (hostWriteWith o addr data s)
  | .hostRd addr => execHostRd addr s
  | .reset => execReset s

/-- `step` with the sine oracle `o` given. -/
def stepWith (o : SineOracle) : State → Host.Outcome State Fault Refusal := nextStepBy (execWith o) (tickServiceWith o)

end Sys2Proof.Machine
end

