-- ==== Sys2Proof/Machine/Step.lean ====
section
/-! DEFINITION. The step of the machine, and where it reads its next event word. -/

namespace Sys2Proof.Machine

/-- One atomic step (20_memory.md R80). -/
def step (s : State) : Host.Outcome State Fault Refusal := Sys2Proof.Machine.nextStep s

/-- The event word presented to the port next: the environment or the host presents it, so it is the first turn (log 3). -/
def State.withFetchWord (s : State) (nbits w : Nat) : State := { s with turns := .word (tableWord nbits w) :: s.turns }

end Sys2Proof.Machine
end

