-- ==== Sys2Proof/Safety.lean ====
section
/-! DEFINITION. What counts as a good state and a good step, in the terms the statements use. -/

namespace Sys2Proof.Machine

/-! ## The safe states -/

/-- The invariants of the block (10_state.md R64 and the ranges of R49 to R60; 44_host_access.md R214 for the working
state while CONFIGURING). -/
structure Safe (s : State) : Prop where
  memory_canonical : s.mem.wf
  /-- PHASE[c] ∈ [0, 1] (R49, R64). -/
  phase_in_turn : ∀ c : Chan, 0 ≤ s.syn[c].phase ∧ s.syn[c].phase ≤ 1
  /-- INC[c] ≥ 0 (R50). -/
  inc_nonneg : ∀ c : Chan, 0 ≤ s.syn[c].inc
  /-- OUT[c] ≤ SYN_OUTMAX(c) (R52). -/
  out_bounded : ∀ c : Chan, s.syn[c].out ≤ s.syn[c].cfg.outmax.toNat
  /-- INDEX[c] < max(N, 1) (R51). -/
  index_in_table : ∀ c : Chan, s.syn[c].index < max s.syn[c].cfg.lutN.toNat 1
  /-- WIDX[a] < max(ACQ_CAP(a), 1) (R60). -/
  widx_in_buffer : ∀ a : Chan, s.acq[a].widx < max s.acq[a].cfg.cap.toNat 1
  /-- LIVE_SUB < max(LIVE_DIV, 1) (R55). -/
  live_sub_in_range : s.tick.liveSub < max s.cfg.liveDiv.toNat 1
  /-- TRIG_SUB < max(TRIG_DIV, 1) (R55). -/
  trig_sub_in_range : s.tick.trigSub < max s.cfg.trigDiv.toNat 1
  /-- A pending result belongs to an existing, enabled channel (43_acquisition.md R181). -/
  pending_is_armed : ∀ a : Chan, s.acq[a].pend = true → a.val < s.params.nacq ∧ s.acq[a].cfg.en = 1
  /-- Entries k ≥ N, and the tables of channels not in LUT mode, hold 0 (R57). -/
  table_tail_zero : ∀ (c : Chan) (k : Nat),
    (s.syn[c].cfg.mode ≠ 3 ∨ s.syn[c].cfg.lutN.toNat ≤ k) → readLut s.mem c k = 0
  /-- Slots k ≥ C are never written and stay 0 (R58, 43_acquisition.md R184). -/
  buffer_tail_zero : ∀ (a : Chan) (k : Nat), s.acq[a].cfg.cap.toNat ≤ k → readBuf s.mem a k = 0
  /-- RUNNING is entered only through START's validation (44_host_access.md R215), and the configuration is frozen (R66). -/
  running_is_valid : s.run = .running → startValid s = true
  /-- While RUNNING, INC[c] is the latched increment (44_host_access.md R216). -/
  running_inc_latched : s.run = .running →
    ∀ c : Chan, c.val < s.params.nsyn → s.syn[c].inc = incrementOf s.syn[c].cfg s.cfg.tickPNs
  /-- While CONFIGURING, the working state holds its reset values (44_host_access.md R214). -/
  configuring_is_fresh : s.run = .configuring →
    s.tick = .reset ∧ s.pwm = .reset ∧ s.mem = [] ∧ s.dlmissCnt = 0 ∧ s.tickPend = false ∧
    (∀ c : Chan, s.syn[c] = { SynChannel.reset with cfg := s.syn[c].cfg }) ∧
    (∀ a : Chan, s.acq[a] = { AcqChannel.reset with cfg := s.acq[a].cfg })

/-! ## The frozen configuration -/

/-- What does not change while RUNNING (R66): the CFG registers, CTRL.MOD_ONCE and the latched increments. -/
structure ConfigView where
  cfg : GlobalCfg
  syn : Vector (SynCfg × ℚ) 16
  acq : Vector AcqCfg 16
  deriving DecidableEq, Repr

/-- The frozen part of a state. -/
def configView (s : State) : ConfigView :=
  { cfg := s.cfg, syn := s.syn.map (fun ch => (ch.cfg, ch.inc)), acq := s.acq.map (fun ch => ch.cfg) }

/-! ## Host access -/

/-- writeMask(r), the defined bits of each CFG register (44_host_access.md R206). -/
def writeMask : CfgReg → Word
  | .modGeom => 0x00000001
  | .acqCtrl _ => 0x00000001
  | .synMode _ => 0x00000003
  | .synShift _ => 0x0000000F
  | .tickPNs | .trigDiv | .liveDiv | .modFreq | .modDuty | .modPhase | .modClkbase | .modRefreshLo | .modRefreshHi
  | .modEpsLo | .modEpsHi | .synFreq _ | .synAmp _ | .synOffset _ | .synOutmax _ | .synLutN _ | .synGain _
  | .acqCap _ => 0xFFFFFFFF

/-- The byte address of a synthesis channel's register. -/
def synAddr (c : Chan) (offset : Nat) : Nat := 0x00400 + 0x40 * c.val + offset

/-- The byte address of an acquisition channel's register. -/
def acqAddr (a : Chan) (offset : Nat) : Nat := 0x00800 + 0x20 * a.val + offset

/-- The address of each CFG register, from the register map of 10_state.md section 3. -/
def cfgRegAddr : CfgReg → Nat
  | .tickPNs => 0x00014
  | .trigDiv => 0x00018
  | .liveDiv => 0x0001C
  | .modFreq => 0x00100
  | .modDuty => 0x00104
  | .modPhase => 0x00108
  | .modGeom => 0x0010C
  | .modClkbase => 0x00110
  | .modRefreshLo => 0x00114
  | .modRefreshHi => 0x00118
  | .modEpsLo => 0x0011C
  | .modEpsHi => 0x00120
  | .synMode c => synAddr c 0x00
  | .synFreq c => synAddr c 0x04
  | .synAmp c => synAddr c 0x08
  | .synOffset c => synAddr c 0x0C
  | .synOutmax c => synAddr c 0x10
  | .synLutN c => synAddr c 0x14
  | .synGain c => synAddr c 0x18
  | .synShift c => synAddr c 0x1C
  | .acqCtrl a => acqAddr a 0x00
  | .acqCap a => acqAddr a 0x04

/-- The address of each read-only register and window entry, from the same map. -/
def roRegAddr : RoReg → Nat
  | .id => 0x00000
  | .hwcfg => 0x00004
  | .lastErr => 0x00010
  | .elapsedLo => 0x00020
  | .elapsedHi => 0x00024
  | .tickCnt => 0x00028
  | .dlmissCnt => 0x0002C
  | .trigCnt => 0x00030
  | .live => 0x00034
  | .liveCnt => 0x00038
  | .modPeriod => 0x00124
  | .modCmpA => 0x00128
  | .modCmpB => 0x0012C
  | .modPhs => 0x00130
  | .modApplyCnt => 0x00134
  | .modPol => 0x00138
  | .synPhase c => synAddr c 0x20
  | .synIndex c => synAddr c 0x24
  | .synOut c => synAddr c 0x28
  | .acqWidx a => acqAddr a 0x08
  | .acqCnt a => acqAddr a 0x0C
  | .acqOvr a => acqAddr a 0x10
  | .acqStat a => acqAddr a 0x14
  | .acqResult a => acqAddr a 0x18
  | .lut c k => 0x10000 + 0x1000 * c.val + 4 * k.val
  | .buf a k => 0x20000 + 0x4000 * a.val + 4 * k.val

/-- The address of each register of the map. -/
def regAddr : Reg → Nat
  | .ctrl => 0x00008
  | .status => 0x0000C
  | .cfg r => cfgRegAddr r
  | .ro r => roRegAddr r

/-- The channel that a register belongs to exists: c < NSYN, a < NACQ (20_memory.md R75). -/
def regExists (p : Params) : Reg → Bool
  | .cfg (.synMode c) | .cfg (.synFreq c) | .cfg (.synAmp c) | .cfg (.synOffset c) | .cfg (.synOutmax c)
  | .cfg (.synLutN c) | .cfg (.synGain c) | .cfg (.synShift c) | .ro (.synPhase c) | .ro (.synIndex c)
  | .ro (.synOut c) | .ro (.lut c _) => decide (c.val < p.nsyn)
  | .cfg (.acqCtrl a) | .cfg (.acqCap a) | .ro (.acqWidx a) | .ro (.acqCnt a) | .ro (.acqOvr a) | .ro (.acqStat a)
  | .ro (.acqResult a) | .ro (.buf a _) => decide (a.val < p.nacq)
  | .ctrl | .status | .cfg _ | .ro _ => true

/-- The reset value of each register of the map (70_reset_and_hazards.md R261). -/
def resetWord (p : Params) : Reg → Word
  | .ro .id => 0x49434644
  | .ro .hwcfg => BitVec.ofNat 32 ((p.nsyn - 1) + 16 * (p.nacq - 1) + 0x1000 + 0xC0000)
  | .cfg .trigDiv => 1
  | .ro .modPol => 0x00000002
  | .cfg (.synOutmax _) => 4095
  | .cfg (.synGain _) => 1000000
  | .cfg (.synShift _) => 4
  | .ctrl | .status | .cfg _ | .ro _ => 0

/-- The state after a refused access: the report of code `k`, whose STATUS bit and number are given, then
HOST_RESP(0, 0) (44_host_access.md R203). -/
def refusedWith (k : ErrCode) (bit : BitVec 7) (number : BitVec 8) (s : State) : State :=
  { s with err := { sticky := s.err.sticky ||| bit, lastErr := number }
           trace := s.trace ++ [.error k, .hostResp false 0] }

/-! ## Rounding -/

/-- z is the real x rounded to the nearest integer, a tie away from zero (00_scope.md R10). -/
def IsRoundHA (x : ℝ) (z : Int) : Prop := |x - z| ≤ 1 / 2 ∧ (|x - z| = 1 / 2 → |x| < |(z : ℝ)|)

/-- trunc of a rational: toward zero (00_scope.md R10). -/
def truncQ (q : ℚ) : Int := if 0 ≤ q then ⌊q⌋ else ⌈q⌉

/-! ## Counting ticks and results -/

/-- The counters after n TICK_SERVICE steps since START (40_tick_dispatcher.md R120). -/
def TickTally (n : Nat) (s : State) : Prop :=
  s.tick.elapsed = n * s.cfg.tickPNs.toNat ∧
  s.tick.tickCnt = BitVec.ofNat 32 n ∧
  (s.cfg.liveDiv ≠ 0 → s.tick.liveSub = n % s.cfg.liveDiv.toNat ∧
    s.tick.liveLevel = decide (n / s.cfg.liveDiv.toNat % 2 = 1)) ∧
  (s.cfg.trigDiv ≠ 0 → s.tick.trigCnt = BitVec.ofNat 32 (n / s.cfg.trigDiv.toNat) ∧
    s.tick.trigSub = n % s.cfg.trigDiv.toNat)

/-- Each result arrives on channel a and is serviced before the next one arrives. -/
def serveResults (a : Chan) (results : List (BitVec 12)) (s : State) : State :=
  results.foldl (fun s r => acqService a (convDoneEvent a r s)) s

/-- A channel whose buffer is empty and whose latch is free, ready to take results. -/
structure ReadyToAcquire (a : Chan) (s : State) : Prop where
  running : s.run = .running
  channel_exists : a.val < s.params.nacq
  enabled : s.acq[a].cfg.en = 1
  capacity_pos : 1 ≤ s.acq[a].cfg.cap.toNat
  capacity_le : s.acq[a].cfg.cap.toNat ≤ acqMaxC
  idle : s.acq[a].pend = false
  at_start : s.acq[a].widx = 0
  empty : ∀ k, readBuf s.mem a k = 0

end Sys2Proof.Machine
end

