-- ==== Sys2Proof/Certificates/Slice0/Obligations.lean ====
section
/-! DEFINITION. The statements for the provers. Each says what the block does in its own terms; a docstring names the rule
it formalises, and what is the model's own choice. -/

open Sys2Proof Sys2Proof.Machine

/-! ## Event words -/

/-- R108: the encoder is the rule's, and the decoder gives every operation back. -/
def Obligations.DecodeInvertsEncode : Prop :=
  encode .tick = 0x1000000000000000#64 ∧
  (∀ (ch : BitVec 4) (sample : BitVec 12), encode (.convDone ch sample) =
    (0x2#64 <<< 60) ||| (ch.setWidth 64 <<< 56) ||| sample.setWidth 64) ∧
  (∀ (addr : HAddr) (d : Word), encode (.hostWr addr d) =
    (0x3#64 <<< 60) ||| (addr.setWidth 64 <<< 32) ||| d.setWidth 64) ∧
  (∀ addr : HAddr, encode (.hostRd addr) = (0x4#64 <<< 60) ||| (addr.setWidth 64 <<< 32)) ∧
  encode .reset = 0xF000000000000000#64 ∧
  ∀ i : Instr, decode (encode i) = .ok i

/-- R104: a word is an operation exactly when (w AND mask) = match for that row, its operands are the fields of the rule, every
other word is MALFORMED, and at most one row accepts a word. -/
def Obligations.DecodeAcceptsExactlyTheTable : Prop :=
  ∀ w : EventWord,
    (decode w = .ok .tick ↔ OpcodeRow.tick.accepts w = true) ∧
    (∀ ch sample, decode w = .ok (.convDone ch sample) ↔
      OpcodeRow.convDone.accepts w = true ∧ ch = w.extractLsb' 56 4 ∧ sample = w.extractLsb' 0 12) ∧
    (∀ addr d, decode w = .ok (.hostWr addr d) ↔
      OpcodeRow.hostWr.accepts w = true ∧ addr = w.extractLsb' 32 20 ∧ d = w.extractLsb' 0 32) ∧
    (∀ addr, decode w = .ok (.hostRd addr) ↔ OpcodeRow.hostRd.accepts w = true ∧ addr = w.extractLsb' 32 20) ∧
    (decode w = .ok .reset ↔ OpcodeRow.reset.accepts w = true) ∧
    ((∃ why, decode w = .error why) ↔ EventWord.wellFormed w = false) ∧
    opcodeRows.Pairwise (fun r q => ¬(r.accepts w = true ∧ q.accepts w = true))

/-- Every word but RESET's has one spelling: encoding what a word decodes to gives the word back (R93, R104, R108). -/
def Obligations.AcceptedWordIsItsEncoding : Prop :=
  ∀ (w : EventWord) (i : Instr), decode w = .ok i → i ≠ .reset → encode i = w

/-- R109: the worked encodings, both ways. -/
def Obligations.WorkedEncodingsDecode : Prop :=
  encode (.hostWr 0x00014 100000) = 0x30000014000186A0#64 ∧ decode 0x30000014000186A0#64 = .ok (.hostWr 0x00014 100000) ∧
  encode (.hostWr 0x00404 60000) = 0x300004040000EA60#64 ∧ decode 0x300004040000EA60#64 = .ok (.hostWr 0x00404 60000) ∧
  encode (.hostRd 0x20298) = 0x4002029800000000#64 ∧ decode 0x4002029800000000#64 = .ok (.hostRd 0x20298) ∧
  (∀ p : Params, regAt p 0x00014 = some (.cfg .tickPNs) ∧ regAt p 0x00404 = some (.cfg (.synFreq 0)) ∧
    regAt p 0x20298 = some (.ro (.buf 0 166))) ∧
  encode (.convDone 1 4095) = 0x2100000000000FFF#64 ∧ decode 0x2100000000000FFF#64 = .ok (.convDone 1 4095) ∧
  encode .tick = 0x1000000000000000#64 ∧ decode 0x1000000000000000#64 = .ok .tick ∧
  decode 0x1000000000000001#64 = .error .shouldBeZero

/-- R97: which words are MALFORMED, and that such a word reports code 6 and does nothing else but leave the list of turns,
the model's own field (log 3). -/
def Obligations.MalformedWordOnlyReports : Prop :=
  (∀ w : EventWord, (∃ why, decode w = .error why) ↔
    ((opField w = 0 ∨ (5 ≤ (opField w).toNat ∧ (opField w).toNat ≤ 14)) ∨
     (opField w = 1 ∧ w.extractLsb' 0 60 ≠ 0) ∨
     (opField w = 2 ∧ w.extractLsb' 12 44 ≠ 0) ∨
     (opField w = 3 ∧ w.extractLsb' 52 8 ≠ 0) ∨
     (opField w = 4 ∧ (w.extractLsb' 52 8 ≠ 0 ∨ w.extractLsb' 0 32 ≠ 0)))) ∧
  ∀ (s : State) (w : EventWord) (rest : List Turn) (why : Malformed),
    s.turns = .word w :: rest → decode w = .error why →
    step s = .next { s with turns := rest
                            err := { sticky := s.err.sticky ||| 0x08, lastErr := 6 }
                            trace := s.trace ++ [.error .evMalformed] }

/-! ## The step -/

/-- A step runs the decoded instruction: with an event word presented, the step is `exec` of what the word decodes to, the
turn taken off the list (20_memory.md R80, R89). `exec` and `step` take the sine oracle that the parameters give, and are
the same machine as the one with that oracle given as an argument (R15; U2 of 93_implementation_defined.md). The list of
turns and the form of the oracle are the model's choice (log 1, 3). -/
def Obligations.StepRunsTheDecodedWord : Prop :=
  (∀ (s : State) (w : EventWord) (rest : List Turn) (i : Instr),
    s.turns = .word w :: rest → decode w = .ok i → step s = exec i { s with turns := rest }) ∧
  (∀ (s : State) (w : Nat) (i : Instr), decodeTableWord 64 w = some i → step (s.withFetchWord 64 w) = exec i s) ∧
  (∀ (s : State) (i : Instr), exec i s = execWith s.params.sine i s) ∧
  (∀ s : State, step s = stepWith s.params.sine s)

/-- R80: whatever agent is to move, some turn makes it the next step, and a step is nothing else than one of those moves, or
no move at all. The list of turns that says who moves is the model's choice (log 3, 4, 5). -/
def Obligations.StepsAreTheInterleavings : Prop :=
  ∀ s : State,
    (∀ w, step { s with turns := .word w :: s.turns } = acceptWord w s) ∧
    (tickEnabled s = true → step { s with turns := .tickService :: s.turns } = .next (tickService s)) ∧
    (∀ a, acqEnabled s a = true → step { s with turns := .acqService a :: s.turns } = .next (acqService a s)) ∧
    (∀ t, step s = .next t →
      (∃ w rest, s.turns = .word w :: rest ∧ acceptWord w { s with turns := rest } = .next t) ∨
      (tickEnabled s = true ∧ t = tickService { s with turns := s.turns.tail }) ∨
      (∃ a, acqEnabled s a = true ∧ t = acqService a { s with turns := s.turns.tail }) ∨
      t = { s with turns := s.turns.tail })

/-- Every state has a next state: the block has no terminal state and no trap (R240, R279). Each step takes one turn off the
list, keeps the parameters, and only appends to the trace (R69), whatever sine is given (U2). The turns and the parameters in
State are the model's choice (log 2, 3). -/
def Obligations.EveryStateSteps : Prop :=
  (∀ s : State, ∃ t, step s = .next t ∧ t.turns = s.turns.tail ∧ t.params = s.params ∧
    ∃ events, t.trace = s.trace ++ events) ∧
  (∀ (o : SineOracle) (s : State), ∃ t, stepWith o s = .next t ∧ t.turns = s.turns.tail ∧ t.params = s.params ∧
    ∃ events, t.trace = s.trace ++ events)

/-- R237: SVC_ORDER orders the service steps, and ANY leaves them free. -/
def Obligations.ServiceOrderIsRespected : Prop :=
  ∀ s : State,
    (s.params.svcOrder = .any →
      (tickEnabled s = true ↔ s.run = .running ∧ s.tickPend = true) ∧
      ∀ a : Chan, (acqEnabled s a = true ↔ s.run = .running ∧ a.val < s.params.nacq ∧ s.acq[a].pend = true)) ∧
    (s.params.svcOrder = .tickFirst →
      (tickEnabled s = true ↔ s.run = .running ∧ s.tickPend = true) ∧
      ∀ a : Chan, (acqEnabled s a = true ↔
        (s.run = .running ∧ a.val < s.params.nacq ∧ s.acq[a].pend = true) ∧ tickEnabled s = false)) ∧
    (s.params.svcOrder = .acqFirst →
      (tickEnabled s = true ↔
        (s.run = .running ∧ s.tickPend = true) ∧ ∀ a : Chan, acqEnabled s a = false) ∧
      ∀ a : Chan, (acqEnabled s a = true ↔ s.run = .running ∧ a.val < s.params.nacq ∧ s.acq[a].pend = true))

/-- Weak fairness (R122, R191), as the model gives it (log 5): once nothing more is presented, 17 steps take every pending
service, under every SVC_ORDER. -/
def Obligations.PendingServicesAreTaken : Prop :=
  ∀ s : State, s.run = .running → s.turns = [] →
    ∃ t, Host.Core.run Sys2Proof.core 17 s = .next t ∧ t.run = .running ∧ t.tickPend = false ∧
      ∀ a : Chan, a.val < s.params.nacq → t.acq[a].pend = false

/-! ## The tick dispatcher -/

/-- R111, R247: TICK is ignored while CONFIGURING, latches when no tick is pending, and else is dropped and reported. The
timer is outside the block: a tick becomes pending only by a TICK word that it presents, no host access makes, drops or
programs one, and TICK_P_NS decides neither whether a tick latches nor whether it is serviced. The list of turns is the
model's choice (log 3). -/
def Obligations.TickLatchesOrIsMissed : Prop :=
  (∀ s t : State, step s = .next t → s.tickPend = false → t.tickPend = true →
    s.run = .running ∧ ∃ rest, s.turns = timerTurn :: rest) ∧
  (∀ (s t : State) (addr : HAddr) (d : Word), (exec (.hostWr addr d) s = .next t ∨ exec (.hostRd addr) s = .next t) →
    t.tickPend = s.tickPend ∧ t.turns = s.turns) ∧
  (∀ (s t : State) (p : Word), exec .tick s = .next t →
    exec .tick { s with cfg := { s.cfg with tickPNs := p } } = .next { t with cfg := { t.cfg with tickPNs := p } } ∧
    tickEnabled { s with cfg := { s.cfg with tickPNs := p } } = tickEnabled s) ∧
  ∀ s : State,
    (s.run = .configuring → exec .tick s = .next s) ∧
    (s.run = .running → s.tickPend = false → exec .tick s = .next { s with tickPend := true }) ∧
    (s.run = .running → s.tickPend = true →
      exec .tick s = .next { s with dlmissCnt := s.dlmissCnt + 1
                                    err := { sticky := s.err.sticky ||| 0x20, lastErr := 9 }
                                    trace := s.trace ++ [.error .tickMissed] })

/-- R113, R117, R118: what TICK_SERVICE does to the counters, and what it leaves alone. The configuration registers within
`syn` are in the statements about the channels. -/
def Obligations.TickServiceCounts : Prop :=
  ∀ s : State,
    tickService s = { s with
      tick := { elapsed := s.tick.elapsed + s.cfg.tickPNs.toNat
                tickCnt := s.tick.tickCnt + 1
                liveSub := if s.cfg.liveDiv = 0 then s.tick.liveSub
                  else if s.cfg.liveDiv.toNat ≤ s.tick.liveSub + 1 then 0 else s.tick.liveSub + 1
                liveLevel := if s.cfg.liveDiv ≠ 0 ∧ s.cfg.liveDiv.toNat ≤ s.tick.liveSub + 1 then !s.tick.liveLevel
                  else s.tick.liveLevel
                trigSub := if s.cfg.trigDiv = 0 then s.tick.trigSub
                  else if s.cfg.trigDiv.toNat ≤ s.tick.trigSub + 1 then 0 else s.tick.trigSub + 1
                trigCnt := if s.cfg.trigDiv ≠ 0 ∧ s.cfg.trigDiv.toNat ≤ s.tick.trigSub + 1 then s.tick.trigCnt + 1
                  else s.tick.trigCnt }
      tickPend := false
      pwm := (tickService s).pwm
      syn := (tickService s).syn
      trace := (tickService s).trace }

/-- R113, R114: the events of one TICK_SERVICE, in order: SINK of each channel that is not OFF, ascending; PWM_APPLY;
LIVE; CONV_START. The modulation test sees ELAPSED after its advance (R160). -/
def Obligations.TickServiceEventOrder : Prop :=
  ∀ s : State,
    (tickService s).trace = s.trace ++
      ((channels s.params.nsyn).filter (fun c => s.syn[c].cfg.mode != 0)).map
        (fun c => OutEvent.sink c (tickService s).syn[c].out) ++
      (if modRefresh s.cfg ≠ 0 ∧ (s.tick.elapsed + s.cfg.tickPNs.toNat) % modRefresh s.cfg < modEps s.cfg ∧
          (s.cfg.modOnce = false ∨
            s.pwm.lastWin ≠ some ((s.tick.elapsed + s.cfg.tickPNs.toNat) / modRefresh s.cfg)) then
        [OutEvent.pwmApply s.cfg.modGeom (modPeriodOf s.cfg) (modCompareOf s.cfg) (modCompareOf s.cfg)
          (modPhaseOf s.cfg)] else []) ++
      (if s.cfg.liveDiv ≠ 0 ∧ s.cfg.liveDiv.toNat ≤ s.tick.liveSub + 1 then [OutEvent.live (!s.tick.liveLevel)] else []) ++
      (if s.cfg.trigDiv ≠ 0 ∧ s.cfg.trigDiv.toNat ≤ s.tick.trigSub + 1 then [OutEvent.convStart] else [])

/-- R120: the counters n TICK_SERVICE steps after START, however other steps but RESET come between. -/
def Obligations.TickTallyIsKept : Prop :=
  (∀ (o : SineOracle) (once : Bool) (s : State), s.tick = TickWork.reset → TickTally 0 (start o once s)) ∧
  (∀ (n : Nat) (s : State), TickTally n s → TickTally (n + 1) (tickService s)) ∧
  (∀ (n : Nat) (s : State) (a : Chan), TickTally n s → TickTally n (acqService a s)) ∧
  (∀ (n : Nat) (s t : State) (w : EventWord), s.run = .running → t.run = .running →
    acceptWord w s = .next t → TickTally n s → TickTally n t)

/-! ## The synthesizer -/

/-- R131, R135: a DIRECT channel adds its increment, drops to exactly 0 above one turn, and samples the new phase: with the
sine that the parameters give, and with any sine given (U2; log 1). -/
def Obligations.DirectChannelTick : Prop :=
  ∀ (s : State) (c : Chan), c.val < s.params.nsyn → s.syn[c].cfg.mode = 1 →
    let θ := if s.syn[c].phase + s.syn[c].inc > 1 then 0 else s.syn[c].phase + s.syn[c].inc
    (tickService s).syn[c] = { s.syn[c] with phase := θ, out := sampleOutput s.params.sine s.syn[c].cfg θ } ∧
    ∀ o : SineOracle, (tickServiceWith o s).syn[c] = { s.syn[c] with phase := θ, out := sampleOutput o s.syn[c].cfg θ }

/-- R115, R137: an ELAPSED channel samples SYN_FREQ · ELAPSED / 10^12, with ELAPSED as it stood before this tick: with the
sine that the parameters give, and with any sine given (U2; log 1). -/
def Obligations.ElapsedChannelTick : Prop :=
  ∀ (s : State) (c : Chan), c.val < s.params.nsyn → s.syn[c].cfg.mode = 2 →
    let θ : ℚ := (s.syn[c].cfg.freq.toNat : ℚ) * s.tick.elapsed / 10 ^ 12
    (tickService s).syn[c] = { s.syn[c] with out := sampleOutput s.params.sine s.syn[c].cfg θ } ∧
    ∀ o : SineOracle, (tickServiceWith o s).syn[c] = { s.syn[c] with out := sampleOutput o s.syn[c].cfg θ }

/-- R141, R146, R147: a LUT channel reads the entry at INDEX, maps it, and advances INDEX. -/
def Obligations.LutChannelTick : Prop :=
  ∀ (s : State) (c : Chan), c.val < s.params.nsyn → s.syn[c].cfg.mode = 3 →
    (tickService s).syn[c] = { s.syn[c] with
      index := if s.syn[c].index + 1 = s.syn[c].cfg.lutN.toNat then 0 else s.syn[c].index + 1
      out := (clamp (lutXform (readLut s.mem c s.syn[c].index) s.syn[c].cfg.shift + sext32 s.syn[c].cfg.offset)
        0 s.syn[c].cfg.outmax.toNat).toNat }

/-- R150, R113: an OFF channel keeps everything, and so does a channel at or above NSYN, which the loop of R113 does not
reach. That such a channel is stored at all is the model's choice (log 8). -/
def Obligations.OffChannelKeepsItsState : Prop :=
  ∀ (s : State) (c : Chan), (s.params.nsyn ≤ c.val ∨ s.syn[c].cfg.mode = 0) → (tickService s).syn[c] = s.syn[c]

/-- R152: a channel's tick reads its own registers, its own table and ELAPSED, and nothing of any other channel. -/
def Obligations.SynthesisChannelsAreIndependent : Prop :=
  ∀ (s t : State) (c : Chan), s.params = t.params → s.tick.elapsed = t.tick.elapsed → s.syn[c] = t.syn[c] →
    (∀ k, readLut s.mem c k = readLut t.mem c k) → (tickService s).syn[c] = (tickService t).syn[c]

/-- R133: the phase sequence of a DIRECT channel from phase 0, with increment d. -/
def Obligations.PhaseSequencePeriod : Prop :=
  ∀ d : ℚ,
    (d = 0 → ∀ t, (phaseStep d)^[t] 0 = 0) ∧
    (0 < d →
      (∀ t : Nat, t < ⌊1 / d⌋.toNat + 1 → (phaseStep d)^[t] 0 = t * d) ∧
      (phaseStep d)^[⌊1 / d⌋.toNat + 1] 0 = 0 ∧
      (∀ t : Nat, (phaseStep d)^[t + (⌊1 / d⌋.toNat + 1)] 0 = (phaseStep d)^[t] 0) ∧
      (∀ n : Nat, 1 / d = n → (phaseStep d)^[⌊1 / d⌋.toNat] 0 = 1) ∧
      (1 < d → ∀ t : Nat, (phaseStep d)^[t] 0 = 0))

/-- R15: the oracle `realSine` is the real sine: at every level its enclosure holds sin(2πx), and at the level first
tried it is at most 2·10^-20 wide. Computing the sine by enclosures is the model's choice (log 1). -/
def Obligations.SineEnclosesTheRealSine : Prop :=
  ∀ x : ℚ,
    (∀ n : Nat, ((realSine.enclose n x).lo : ℝ) ≤ Real.sin (2 * Real.pi * x) ∧
      Real.sin (2 * Real.pi * x) ≤ ((realSine.enclose n x).hi : ℝ)) ∧
    (realSine.enclose firstLevel x).hi - (realSine.enclose firstLevel x).lo ≤ 2 / 10 ^ 20

/-- R15, laws (a) to (d), of the enclosures of `realSine` at every level, which are the model's choice (log 1), and of
the rounded results, for every sine that obeys the laws (93_implementation_defined.md U2): period 1, oddness, the exact
values. Law (e) says where a result can tie: no other phase has a rational sine. -/
def Obligations.SineLaws : Prop :=
  (∀ n : Nat,
    (∀ x : ℚ, -1 ≤ (realSine.enclose n x).lo ∧ (realSine.enclose n x).hi ≤ 1) ∧
    (∀ x : ℚ, realSine.enclose n (x + 1) = realSine.enclose n x) ∧
    (∀ x : ℚ, realSine.enclose n (-x) = ⟨-(realSine.enclose n x).hi, -(realSine.enclose n x).lo⟩) ∧
    realSine.enclose n 0 = ⟨0, 0⟩ ∧ realSine.enclose n (1 / 12) = ⟨1 / 2, 1 / 2⟩ ∧
    realSine.enclose n (1 / 4) = ⟨1, 1⟩ ∧ realSine.enclose n (5 / 12) = ⟨1 / 2, 1 / 2⟩ ∧
    realSine.enclose n (1 / 2) = ⟨0, 0⟩ ∧ realSine.enclose n (7 / 12) = ⟨-1 / 2, -1 / 2⟩ ∧
    realSine.enclose n (3 / 4) = ⟨-1, -1⟩ ∧ realSine.enclose n (11 / 12) = ⟨-1 / 2, -1 / 2⟩) ∧
  (∀ (o : SineOracle) (x m b : ℚ),
    roundSine o (x + 1) m b = roundSine o x m b ∧
    roundSine o (-x) m 0 = -roundSine o x m 0 ∧
    (∀ p ∈ exactSines, roundSine o p.1 m b = roundHA (p.2 * m + b))) ∧
  (∀ x q : ℚ, Real.sin (2 * Real.pi * x) = q → ∃ k : ℤ,
    x = k ∨ x = 1 / 12 + k ∨ x = 1 / 4 + k ∨ x = 5 / 12 + k ∨ x = 1 / 2 + k ∨ x = 7 / 12 + k ∨ x = 3 / 4 + k ∨
      x = 11 / 12 + k)

/-- R10, R15, R134, R143: the model's rounding is the half-away rounding of the exact real number, at every phase, scale and
shift: for every sine that obeys the laws of R15 (93_implementation_defined.md U2), and so for the real sine, which is
the sine of a block whose parameters name it. How the sine is approximated is the model's choice (log 1). -/
def Obligations.RoundSineAgreesWithTheRealSine : Prop :=
  (∀ (o : SineOracle) (v : ℚ → ℝ), Sin2piLaws v → Encloses o.enclose v →
    ∀ x m b : ℚ, IsRoundHA (v x * m + b) (roundSine o x m b)) ∧
  (∀ x m b : ℚ, IsRoundHA (Real.sin (2 * Real.pi * x) * m + b) (roundSine realSine x m b)) ∧
  (∀ p : Params, p.sin2pi = .realSine → p.sine = realSine)

/-- R134, R136, R137: SAMPLE(c, θ) at every phase and for every sine that obeys the laws of R15, as the rounding of the exact
real (sin2pi(θ) + 1)·AMP/2, then the offset and the clamp; for the real sine, with sin(2πθ); a whole turn changes nothing;
and the corner cases. `roundSine` is the model's form of roundHA of a sine (log 1). -/
def Obligations.SampleCornerCases : Prop :=
  ∀ (o : SineOracle) (cfg : SynCfg),
    (∀ θ, sampleOutput o cfg θ =
      (clamp (roundSine o θ ((cfg.amp.toNat : ℚ) / 2) ((cfg.amp.toNat : ℚ) / 2) + sext32 cfg.offset)
        0 cfg.outmax.toNat).toNat) ∧
    (∀ v : ℚ → ℝ, Sin2piLaws v → Encloses o.enclose v → ∀ (θ : ℚ) (z : Int),
      IsRoundHA ((v θ + 1) * cfg.amp.toNat / 2) z →
      sampleOutput o cfg θ = (clamp (z + sext32 cfg.offset) 0 cfg.outmax.toNat).toNat) ∧
    (∀ (θ : ℚ) (z : Int), IsRoundHA ((Real.sin (2 * Real.pi * θ) + 1) * cfg.amp.toNat / 2) z →
      sampleOutput realSine cfg θ = (clamp (z + sext32 cfg.offset) 0 cfg.outmax.toNat).toNat) ∧
    (∀ θ, sampleOutput o cfg (θ + 1) = sampleOutput o cfg θ) ∧
    sampleOutput o cfg 0 =
      (clamp (roundHA ((cfg.amp.toNat : ℚ) / 2) + sext32 cfg.offset) 0 cfg.outmax.toNat).toNat ∧
    sampleOutput o cfg 1 = sampleOutput o cfg 0 ∧
    (cfg.amp = 0 → ∀ θ, sampleOutput o cfg θ = (clamp (sext32 cfg.offset) 0 cfg.outmax.toNat).toNat) ∧
    (cfg.outmax = 0 → ∀ θ, sampleOutput o cfg θ = 0)

/-- R139, R151: every SINK value lies in [0, SYN_OUTMAX(c)] and is what OUT[c] then holds, whatever sine is given (U2). -/
def Obligations.SinkValuesAreBounded : Prop :=
  ∀ s t : State, (step s = .next t ∨ ∃ o, stepWith o s = .next t) → ∃ events, t.trace = s.trace ++ events ∧
    ∀ c v, OutEvent.sink c v ∈ events → v ≤ s.syn[c].cfg.outmax.toNat ∧ t.syn[c].out = v

/-- R145: LUT_XFORM is floor((s + 32768)/2^S), that is the inversion of bit 15 and the right shift; its range is the whole of
[0, 65535 >> S], and S = 4 maps the 16-bit ends to 0 and 4095. -/
def Obligations.LutXformIsOffsetBinaryShifted : Prop :=
  (∀ (x : BitVec 16) (shift : BitVec 4),
    lutXform x.toInt shift = ⌊((x.toInt : ℚ) + 32768) / 2 ^ shift.toNat⌋ ∧
    lutXform x.toInt shift = (((x ^^^ 0x8000#16).toNat >>> shift.toNat : Nat) : Int) ∧
    0 ≤ lutXform x.toInt shift ∧ lutXform x.toInt shift ≤ ((65535 >>> shift.toNat : Nat) : Int)) ∧
  (∀ (shift : BitVec 4) (v : Nat), v ≤ 65535 >>> shift.toNat → ∃ x : BitVec 16, lutXform x.toInt shift = v) ∧
  lutXform (-32768) 4 = 0 ∧ lutXform 32767 4 = 4095

/-- R140, R141, R146: from index 0 a LUT channel's index after n serviced ticks is n mod N; the tick after them emits the
clamped transform of entry n mod N; and its output repeats every N ticks. -/
def Obligations.LutIndexCycles : Prop :=
  ∀ (s : State) (c : Chan), c.val < s.params.nsyn → s.syn[c].cfg.mode = 3 → 1 ≤ s.syn[c].cfg.lutN.toNat →
    s.syn[c].index = 0 → ∀ n : Nat,
      (tickService^[n] s).syn[c].index = n % s.syn[c].cfg.lutN.toNat ∧
      (tickService^[n + 1] s).syn[c].out =
        (clamp (lutXform (readLut s.mem c (n % s.syn[c].cfg.lutN.toNat)) s.syn[c].cfg.shift + sext32 s.syn[c].cfg.offset)
          0 s.syn[c].cfg.outmax.toNat).toNat ∧
      (tickService^[n + 1 + s.syn[c].cfg.lutN.toNat] s).syn[c].out = (tickService^[n + 1] s).syn[c].out

/-! ## The modulation scheduler -/

/-- R173: the four results lie in [-1, 2^32 - 2], within the bounds of each geometry. -/
def Obligations.ModulationResultsFit : Prop :=
  ∀ cfg : GlobalCfg,
    (cfg.modGeom = 0 →
      0 ≤ modCompareOf cfg ∧ modCompareOf cfg ≤ modPeriodOf cfg ∧ 0 ≤ modPhaseOf cfg ∧ modPhaseOf cfg ≤ modPeriodOf cfg ∧
      2 * modPeriodOf cfg ≤ cfg.modClkbase.toNat ∧ modPeriodOf cfg < 2 ^ 31) ∧
    (cfg.modGeom = 1 →
      -1 ≤ modPeriodOf cfg ∧ modPeriodOf cfg ≤ (cfg.modClkbase.toNat : Int) - 1 ∧
      -1 ≤ modCompareOf cfg ∧ modCompareOf cfg ≤ max (modPeriodOf cfg) 0 ∧
      -1 ≤ modPhaseOf cfg ∧ modPhaseOf cfg ≤ max (modPeriodOf cfg) 0) ∧
    (∀ z ∈ [modPeriodOf cfg, modCompareOf cfg, modCompareBOf cfg, modPhaseOf cfg], -1 ≤ z ∧ z ≤ 2 ^ 32 - 2 ∧
      ((wrap32 z).toNat : Int) = (if z = -1 then 2 ^ 32 - 1 else z))

/-- R164, R165, R167, R168: the results are the floors and truncations of the rules' rational expressions. -/
def Obligations.ModulationFormulas : Prop :=
  ∀ cfg : GlobalCfg,
    let F : ℚ := max (sext32 cfg.modFreq : ℚ) 1000
    let CB : ℚ := cfg.modClkbase.toNat
    let d : ℚ := (modDutyOf cfg : ℚ) / 10 ^ 6
    let p : ℚ := modPeriodOf cfg
    modDutyOf cfg = min (max (sext32 cfg.modDuty) 0) (10 ^ 6) ∧
    (cfg.modGeom = 0 → modPeriodOf cfg = ⌊CB * 1000 / (2 * F)⌋ ∧ modCompareOf cfg = truncQ (p * (1 - d))) ∧
    (cfg.modGeom = 1 → modPeriodOf cfg = ⌊CB * 1000 / F⌋ - 1 ∧ modCompareOf cfg = truncQ ((p + 1) * (1 - d) - 1)) ∧
    modPhaseOf cfg = truncQ (p * (min (max (sext32 cfg.modPhase : ℚ) 0) (10 ^ 6)) / 10 ^ 6) ∧
    modCompareBOf cfg = modCompareOf cfg

/-- R166: the duty used is clamped to [0, 10^6] ppm: a duty below 0 gives the comparator value of duty 0, one above 1 that of duty 1. -/
def Obligations.DutyIsClamped : Prop :=
  ∀ cfg : GlobalCfg,
    (sext32 cfg.modDuty < 0 → modCompareOf cfg = modCompareOf { cfg with modDuty := 0 }) ∧
    (1000000 < sext32 cfg.modDuty → modCompareOf cfg = modCompareOf { cfg with modDuty := 1000000 }) ∧
    modDutyOf cfg = min (max (sext32 cfg.modDuty) 0) 1000000

/-- R175: the corner cases of MOD_APPLY. -/
def Obligations.ModulationCornerCases : Prop :=
  ∀ cfg : GlobalCfg,
    (cfg.modGeom = 0 → cfg.modClkbase = 0 → modPeriodOf cfg = 0 ∧ modCompareOf cfg = 0 ∧ modPhaseOf cfg = 0) ∧
    (cfg.modGeom = 1 → cfg.modClkbase.toNat * 1000 < modTarget cfg →
      modPeriodOf cfg = -1 ∧ modCompareOf cfg = -1 ∧
      modPhaseOf cfg = (if 1000000 ≤ sext32 cfg.modPhase then -1 else 0)) ∧
    (sext32 cfg.modDuty ≤ 0 → modCompareOf cfg = modPeriodOf cfg) ∧
    (1000000 ≤ sext32 cfg.modDuty → modCompareOf cfg = (if cfg.modGeom = 0 then 0 else -1)) ∧
    (1000000 ≤ sext32 cfg.modPhase → modPhaseOf cfg = modPeriodOf cfg) ∧
    (cfg.modGeom = 0 → cfg.modClkbase.toNat * 1000 < 2 * modTarget cfg → modPeriodOf cfg = 0)

/-- R160, R161, R162, R170, R171: what a tick does to the modulation results. With the scheduler disabled, or outside a
window, nothing; inside one, an application, but for MOD_ONCE in a window already applied. -/
def Obligations.ModulationTick : Prop :=
  ∀ s : State,
    let e := s.tick.elapsed + s.cfg.tickPNs.toNat
    (tickService s).pwm =
      if modRefresh s.cfg = 0 ∨ modEps s.cfg ≤ e % modRefresh s.cfg then s.pwm
      else if s.cfg.modOnce = true ∧ s.pwm.lastWin = some (e / modRefresh s.cfg) then s.pwm
      else { period := wrap32 (modPeriodOf s.cfg), cmpA := wrap32 (modCompareOf s.cfg),
             cmpB := wrap32 (modCompareOf s.cfg), phs := wrap32 (modPhaseOf s.cfg),
             applyCnt := s.pwm.applyCnt + 1, lastWin := some (e / modRefresh s.cfg) }

/-- R162: with MOD_ONCE = 1, once a window is applied no later tick inside it applies again. -/
def Obligations.ModOnceAppliesOncePerWindow : Prop :=
  ∀ (s : State) (w n : Nat), s.cfg.modOnce = true → s.pwm.lastWin = some w →
    (∀ j, j ≤ n → (s.tick.elapsed + j * s.cfg.tickPNs.toNat) / modRefresh s.cfg = w) →
    (tickService^[n] s).pwm = s.pwm

/-! ## The acquisition controller and the sample FIFO -/

/-- R181, R182, R183: the four cases of CONV_DONE, with everything else unchanged. -/
def Obligations.ConvDoneLatchesOrReports : Prop :=
  ∀ (ch : BitVec 4) (sample : BitVec 12) (s : State),
    (s.params.nacq ≤ ch.toNat → exec (.convDone ch sample) s = .next
      { s with err := { sticky := s.err.sticky ||| 0x08, lastErr := 7 }, trace := s.trace ++ [.error .evChannel] }) ∧
    (ch.toNat < s.params.nacq → (s.run = .configuring ∨ s.acq[ch.toFin].cfg.en = 0) →
      exec (.convDone ch sample) s = .next s) ∧
    (ch.toNat < s.params.nacq → s.run = .running → s.acq[ch.toFin].cfg.en = 1 → s.acq[ch.toFin].pend = false →
      exec (.convDone ch sample) s = .next
        { s with acq := s.acq.set ch.toFin { s.acq[ch.toFin] with res := sample, pend := true } }) ∧
    (ch.toNat < s.params.nacq → s.run = .running → s.acq[ch.toFin].cfg.en = 1 → s.acq[ch.toFin].pend = true →
      exec (.convDone ch sample) s = .next
        { s with
          acq := s.acq.set ch.toFin { s.acq[ch.toFin] with res := sample, pend := true, ovr := s.acq[ch.toFin].ovr + 1 }
          err := { sticky := s.err.sticky ||| 0x40, lastErr := 10 }
          trace := s.trace ++ [.error .acqOverrun] })

/-- R184, R192: ACQ_SERVICE(a) stores the result unchanged at WIDX, then advances WIDX; every byte of memory outside that
slot, every other slot and every table entry keeps its value, and so does everything but channel a. The two bytes of a slot
are the model's choice (log 6). -/
def Obligations.AcqServiceStoresThenAdvances : Prop :=
  ∀ (s : State) (a : Chan),
    acqService a s = { s with
      mem := (acqService a s).mem
      acq := s.acq.set a { s.acq[a] with
        widx := if s.acq[a].widx + 1 = s.acq[a].cfg.cap.toNat then 0 else s.acq[a].widx + 1
        cnt := s.acq[a].cnt + 1
        pend := false } } ∧
    (s.acq[a].widx < 4096 → readBuf (acqService a s).mem a s.acq[a].widx = s.acq[a].res) ∧
    (∀ b k, (b ≠ a ∨ k ≠ s.acq[a].widx) → readBuf (acqService a s).mem b k = readBuf s.mem b k) ∧
    (∀ c k, readLut (acqService a s).mem c k = readLut s.mem c k) ∧
    (∀ x, x ≠ bufAddr a s.acq[a].widx → x ≠ bufAddr a s.acq[a].widx + 1 →
      readByte (acqService a s).mem x = readByte s.mem x)

/-- R185, R186: the buffer wraparound law. After n results, WIDX = n mod C, slot (n - 1 - j) mod C holds the j-th newest
for every j below both n and C, and slots never reached still hold 0. -/
def Obligations.BufferHoldsTheLastResults : Prop :=
  ∀ (a : Chan) (s : State) (results : List (BitVec 12)), ReadyToAcquire a s →
    let t := serveResults a results s
    let n := results.length
    let C := s.acq[a].cfg.cap.toNat
    t.acq[a].widx = n % C ∧
    t.acq[a].cnt = s.acq[a].cnt + BitVec.ofNat 32 n ∧
    (∀ j, j < n → j < C → readBuf t.mem a ((n - 1 - j) % C) = results.reverse.getD j 0) ∧
    (∀ k, n ≤ k → readBuf t.mem a k = 0)

/-- R81: TICK_SERVICE and ACQ_SERVICE(a) commute. -/
def Obligations.TickAndAcqServicesCommute : Prop :=
  ∀ (s : State) (a : Chan), acqService a (tickService s) = tickService (acqService a s)

/-- R83, R188: the services of different acquisition channels commute, on canonical memory, the model's
choice (log 6). -/
def Obligations.AcqServicesCommute : Prop :=
  ∀ (s : State) (a b : Chan), a ≠ b → s.mem.wf → acqService a (acqService b s) = acqService b (acqService a s)

/-! ## Host access -/

/-- R202, R203, R74, R75, R207, R213: every refused access, in the order of the checks, with its whole effect. -/
def Obligations.HostAccessRefusals : Prop :=
  ∀ (s : State) (addr : HAddr) (d : Word),
    (addr.toNat % 4 ≠ 0 →
      exec (.hostRd addr) s = .next (refusedWith .busMisaligned 0x01 1 s) ∧
      exec (.hostWr addr d) s = .next (refusedWith .busMisaligned 0x01 1 s)) ∧
    (addr.toNat % 4 = 0 → regAt s.params addr = none →
      exec (.hostRd addr) s = .next (refusedWith .busUnmapped 0x01 2 s) ∧
      exec (.hostWr addr d) s = .next (refusedWith .busUnmapped 0x01 2 s)) ∧
    (addr.toNat % 4 = 0 → ∀ r, regAt s.params addr = some (.ro r) →
      exec (.hostWr addr d) s = .next (refusedWith .busReadonly 0x01 3 s)) ∧
    (addr.toNat % 4 = 0 → s.run = .running →
      (regAt s.params addr = some .ctrl ∨ ∃ r, regAt s.params addr = some (.cfg r)) →
      exec (.hostWr addr d) s = .next (refusedWith .cfgLocked 0x02 4 s)) ∧
    (regAt s.params addr = some .ctrl → addr.toNat % 4 = 0 → s.run = .configuring → d.getLsbD 0 = true →
      startValid s = false → exec (.hostWr addr d) s = .next (refusedWith .startInvalid 0x04 5 s))

/-- R204, R78, R211: a read of a mapped register answers its value; only ELAPSED_LO's changes anything else, the snapshot. -/
def Obligations.HostReadAnswers : Prop :=
  ∀ (s : State) (addr : HAddr) (r : Reg), addr.toNat % 4 = 0 → regAt s.params addr = some r →
    exec (.hostRd addr) s = .next { s with
      snap := if addr = 0x00020 then BitVec.ofNat 32 (s.tick.elapsed / 2 ^ 32) else s.snap
      trace := s.trace ++ [.hostResp true (readValue s r)] }

/-- R210, R212, R24 to R26, R46: the value read of every register: the bits of CTRL and STATUS, ID, HWCFG, the counters and
results, the phase with 31 fraction bits, the sign-extended table entry, the zero-extended slot, each CFG register's own
field, the field that the services and START use, and, in a safe state, the naturals unwrapped. -/
def Obligations.ReadbackValues : Prop :=
  ∀ s : State,
    (∀ i, i < 32 → (readValue s .ctrl).getLsbD i =
      if i = 0 then decide (s.run = .running) else if i = 1 then s.cfg.modOnce else false) ∧
    (∀ i, i < 32 → (readValue s .status).getLsbD i =
      if i = 0 then decide (s.run = .running) else if i = 1 then s.tickPend
      else if i = 2 then decide (∃ a : Chan, a.val < s.params.nacq ∧ s.acq[a].pend = true)
      else if 8 ≤ i ∧ i ≤ 14 then s.err.sticky.getLsbD (i - 8) else false) ∧
    (readValue s (.ro .hwcfg)).toNat = (s.params.nsyn - 1) + 2 ^ 4 * (s.params.nacq - 1) + 2 ^ 8 * 16 + 2 ^ 16 * 12 ∧
    readValue s (.ro .id) = 0x49434644 ∧ readValue s (.ro .modPol) = 2 ∧
    (readValue s (.ro .lastErr)).toNat = s.err.lastErr.toNat ∧
    (readValue s (.ro .elapsedLo)).toNat = s.tick.elapsed % 2 ^ 32 ∧ readValue s (.ro .elapsedHi) = s.snap ∧
    readValue s (.ro .tickCnt) = s.tick.tickCnt ∧ readValue s (.ro .dlmissCnt) = s.dlmissCnt ∧
    readValue s (.ro .trigCnt) = s.tick.trigCnt ∧
    (readValue s (.ro .live)).toNat = (if s.tick.liveLevel = true then 1 else 0) ∧
    readValue s (.ro .modPeriod) = s.pwm.period ∧ readValue s (.ro .modCmpA) = s.pwm.cmpA ∧
    readValue s (.ro .modCmpB) = s.pwm.cmpB ∧ readValue s (.ro .modPhs) = s.pwm.phs ∧
    readValue s (.ro .modApplyCnt) = s.pwm.applyCnt ∧
    (∀ a : Chan, readValue s (.ro (.acqCnt a)) = s.acq[a].cnt ∧ readValue s (.ro (.acqOvr a)) = s.acq[a].ovr ∧
      (readValue s (.ro (.acqStat a))).toNat = (if s.acq[a].pend = true then 1 else 0) ∧
      (readValue s (.ro (.acqResult a))).toNat = s.acq[a].res.toNat) ∧
    (readValue s (.cfg .tickPNs) = s.cfg.tickPNs ∧ readValue s (.cfg .trigDiv) = s.cfg.trigDiv ∧
      readValue s (.cfg .liveDiv) = s.cfg.liveDiv ∧ readValue s (.cfg .modFreq) = s.cfg.modFreq ∧
      readValue s (.cfg .modDuty) = s.cfg.modDuty ∧ readValue s (.cfg .modPhase) = s.cfg.modPhase ∧
      (readValue s (.cfg .modGeom)).toNat = s.cfg.modGeom.toNat ∧ readValue s (.cfg .modClkbase) = s.cfg.modClkbase ∧
      readValue s (.cfg .modRefreshLo) = s.cfg.modRefreshLo ∧ readValue s (.cfg .modRefreshHi) = s.cfg.modRefreshHi ∧
      readValue s (.cfg .modEpsLo) = s.cfg.modEpsLo ∧ readValue s (.cfg .modEpsHi) = s.cfg.modEpsHi) ∧
    (modRefresh s.cfg =
        (readValue s (.cfg .modRefreshHi)).toNat * 2 ^ 32 + (readValue s (.cfg .modRefreshLo)).toNat ∧
      modEps s.cfg = (readValue s (.cfg .modEpsHi)).toNat * 2 ^ 32 + (readValue s (.cfg .modEpsLo)).toNat) ∧
    (∀ c : Chan, (readValue s (.cfg (.synMode c))).toNat = s.syn[c].cfg.mode.toNat ∧
      readValue s (.cfg (.synFreq c)) = s.syn[c].cfg.freq ∧ readValue s (.cfg (.synAmp c)) = s.syn[c].cfg.amp ∧
      readValue s (.cfg (.synOffset c)) = s.syn[c].cfg.offset ∧ readValue s (.cfg (.synOutmax c)) = s.syn[c].cfg.outmax ∧
      readValue s (.cfg (.synLutN c)) = s.syn[c].cfg.lutN ∧ readValue s (.cfg (.synGain c)) = s.syn[c].cfg.gain ∧
      (readValue s (.cfg (.synShift c))).toNat = s.syn[c].cfg.shift.toNat) ∧
    (∀ a : Chan, (readValue s (.cfg (.acqCtrl a))).toNat = s.acq[a].cfg.en.toNat ∧
      readValue s (.cfg (.acqCap a)) = s.acq[a].cfg.cap) ∧
    (∀ c : Chan, 0 ≤ s.syn[c].phase → s.syn[c].phase ≤ 1 →
      ((readValue s (.ro (.synPhase c))).toNat : Int) = ⌊s.syn[c].phase * 2 ^ 31⌋) ∧
    (∀ (c : Chan) (k : Fin 1024), (readValue s (.ro (.lut c k))).toInt = readLut s.mem c k.val) ∧
    (∀ (a : Chan) (k : Fin 4096), (readValue s (.ro (.buf a k))).toNat = (readBuf s.mem a k.val).toNat) ∧
    (Safe s → (readValue s (.ro .liveCnt)).toNat = s.tick.liveSub ∧
      (∀ c : Chan, (readValue s (.ro (.synIndex c))).toNat = s.syn[c].index ∧
        (readValue s (.ro (.synOut c))).toNat = s.syn[c].out) ∧
      ∀ a : Chan, (readValue s (.ro (.acqWidx a))).toNat = s.acq[a].widx)

/-- R205, R208, R209: the accepted writes: STATUS in either run state; CTRL with DATA[0] = 0 and a CFG register while
CONFIGURING. A CFG write changes that register (`ConfigWritesStoreTheMask`) and the trace. -/
def Obligations.HostWritePerforms : Prop :=
  ∀ (s : State) (d : Word),
    exec (.hostWr 0x0000C d) s = .next { s with
      err := { s.err with sticky := s.err.sticky &&& ~~~(d.extractLsb' 8 7) }
      trace := s.trace ++ [.hostResp true 0] } ∧
    (s.run = .configuring → d.getLsbD 0 = false →
      exec (.hostWr 0x00008 d) s = .next { s with
        cfg := { s.cfg with modOnce := d.getLsbD 1 }, trace := s.trace ++ [.hostResp true 0] }) ∧
    (s.run = .configuring → ∀ (addr : HAddr) (r : CfgReg), addr.toNat % 4 = 0 → regAt s.params addr = some (.cfg r) →
      exec (.hostWr addr d) s = .next { writeCfg r d s with trace := s.trace ++ [.hostResp true 0] })

/-- R206: a CFG register holds DATA AND writeMask after a write, every other CFG register its old value, and no other
state changes. -/
def Obligations.ConfigWritesStoreTheMask : Prop :=
  ∀ (r : CfgReg) (d : Word) (s : State),
    readCfg (writeCfg r d s) r = d &&& writeMask r ∧
    (∀ q, q ≠ r → readCfg (writeCfg r d s) q = readCfg s q) ∧
    writeCfg r d s = { s with
      cfg := { (writeCfg r d s).cfg with modOnce := s.cfg.modOnce }
      syn := (writeCfg r d s).syn
      acq := (writeCfg r d s).acq } ∧
    (∀ c : Chan, (writeCfg r d s).syn[c] = { s.syn[c] with cfg := (writeCfg r d s).syn[c].cfg }) ∧
    (∀ a : Chan, (writeCfg r d s).acq[a] = { s.acq[a] with cfg := (writeCfg r d s).acq[a].cfg })

/-- R76, R75, R201, and the register map of 10_state.md section 3: an aligned address is mapped to a register exactly when
it is that register's address and the register's channel exists. -/
def Obligations.RegisterMapIsTheTable : Prop :=
  ∀ (p : Params) (addr : HAddr) (r : Reg), addr.toNat % 4 = 0 →
    (regAt p addr = some r ↔ regAddr r = addr.toNat ∧ regExists p r = true)

/-- R200: a host access emits exactly one HOST_RESP, last, with ERROR(code) before it when ok = 0; a MALFORMED word emits
none. -/
def Obligations.HostResponseIsLast : Prop :=
  (∀ (s t : State) (i : Instr), ((∃ addr d, i = .hostWr addr d) ∨ ∃ addr, i = .hostRd addr) → exec i s = .next t →
    ∃ events ok data, t.trace = s.trace ++ events ++ [.hostResp ok data] ∧
      (∀ ok' data', OutEvent.hostResp ok' data' ∉ events) ∧
      (ok = false → data = 0 ∧ ∃ k, events = [.error k] ∧ k ≠ .lutSat) ∧
      (ok = true → ∀ e ∈ events, e = .error .lutSat)) ∧
  (∀ (s t : State) (w : EventWord) (why : Malformed), decode w = .error why → acceptWord w s = .next t →
    t.trace = s.trace ++ [.error .evMalformed])

/-- R208: a STATUS write clears the sticky bits written as 1 and leaves every other bit of STATUS, and LASTERR. -/
def Obligations.StatusWriteClearsWrittenOnes : Prop :=
  ∀ (s : State) (d : Word), ∃ t, exec (.hostWr 0x0000C d) s = .next t ∧ t.err.lastErr = s.err.lastErr ∧
    ∀ i, i < 32 → (statusWord t).getLsbD i =
      ((statusWord s).getLsbD i && !(decide (8 ≤ i ∧ i ≤ 14) && d.getLsbD i))

/-- R231: reporting a code sets its STATUS bit, leaves the others, sets LASTERR and appends ERROR(code); a bit already 1
stays 1. -/
def Obligations.ReportSetsTheStatusBit : Prop :=
  ∀ (s : State) (k : ErrCode),
    (k, statusBit k, codeNumber k) ∈
      [(ErrCode.busMisaligned, 8, 1#8), (.busUnmapped, 8, 2#8), (.busReadonly, 8, 3#8), (.cfgLocked, 9, 4#8),
       (.startInvalid, 10, 5#8), (.evMalformed, 11, 6#8), (.evChannel, 11, 7#8), (.lutSat, 12, 8#8),
       (.tickMissed, 13, 9#8), (.acqOverrun, 14, 10#8)] ∧
    (∀ i, i < 32 → (statusWord (report k s)).getLsbD i = ((statusWord s).getLsbD i || decide (i = statusBit k))) ∧
    report k s = { s with err := { sticky := (report k s).err.sticky, lastErr := codeNumber k }
                          trace := s.trace ++ [.error k] }

/-- R233: which codes each word, and each service, can report. Code 8 comes only with a START that succeeds. -/
def Obligations.ReportedCodesOfEachStep : Prop :=
  (∀ (s t : State) (w : EventWord), acceptWord w s = .next t → ∃ events, t.trace = s.trace ++ events ∧
    ∀ k, OutEvent.error k ∈ events →
      (opField w = 1 ∧ (k = .evMalformed ∨ k = .tickMissed)) ∨
      (opField w = 2 ∧ (k = .evMalformed ∨ k = .evChannel ∨ k = .acqOverrun)) ∨
      (opField w = 4 ∧ (k = .evMalformed ∨ k = .busMisaligned ∨ k = .busUnmapped)) ∨
      (opField w = 3 ∧ (k = .evMalformed ∨ k = .busMisaligned ∨ k = .busUnmapped ∨ k = .busReadonly ∨ k = .cfgLocked ∨
        k = .startInvalid ∨ (k = .lutSat ∧ s.run = .configuring ∧ t.run = .running))) ∨
      (opField w ≠ 15 ∧ opField w ∉ [1#4, 2#4, 3#4, 4#4] ∧ k = .evMalformed)) ∧
  (∀ (s : State), ∃ events, (tickService s).trace = s.trace ++ events ∧ ∀ k, OutEvent.error k ∉ events) ∧
  (∀ (s : State) (a : Chan), (acqService a s).trace = s.trace)

/-- R31, R211, R273: a read of ELAPSED_LO, then one of ELAPSED_HI any number of serviced ticks later, gives ELAPSED as it
stood at the first read. -/
def Obligations.ElapsedReadbackIsConsistent : Prop :=
  ∀ (s : State) (n : Nat), ∃ t u,
    exec (.hostRd 0x00020) s = .next t ∧
    t.trace = s.trace ++ [.hostResp true (BitVec.ofNat 32 s.tick.elapsed)] ∧
    exec (.hostRd 0x00024) (tickService^[n] t) = .next u ∧
    u.trace = (tickService^[n] t).trace ++ [.hostResp true (BitVec.ofNat 32 (s.tick.elapsed / 2 ^ 32))]

/-! ## START -/

/-- R215: what START's validation checks, and that it checks nothing else. -/
def Obligations.StartValidationChecks : Prop :=
  ∀ s : State, startValid s = true ↔
    1 ≤ s.cfg.tickPNs.toNat ∧
    (∀ c : Chan, c.val < s.params.nsyn → s.syn[c].cfg.mode = 3 →
      1 ≤ s.syn[c].cfg.lutN.toNat ∧ s.syn[c].cfg.lutN.toNat ≤ 1024) ∧
    (∀ a : Chan, a.val < s.params.nacq → s.acq[a].cfg.en = 1 →
      1 ≤ s.acq[a].cfg.cap.toNat ∧ s.acq[a].cfg.cap.toNat ≤ 4096)

/-- R214, R216, R143: a START that passes validation. It sets MOD_ONCE, latches the increments, builds the tables of the
LUT channels with the sine that the parameters give, and runs; nothing else changes but the reports
(`StartReportsSaturation`). With any sine given, the tables are that sine's (U2; log 1). The bytes of an entry are the
model's choice (log 6). -/
def Obligations.StartConfiguresAndRuns : Prop :=
  ∀ (s : State) (d : Word), s.run = .configuring → d.getLsbD 0 = true → startValid s = true →
    ∃ t, exec (.hostWr 0x00008 d) s = .next t ∧
      t = { s with run := .running, cfg := { s.cfg with modOnce := d.getLsbD 1 },
                   syn := t.syn, mem := t.mem, err := t.err, trace := t.trace } ∧
      (∀ c : Chan, t.syn[c] = if c.val < s.params.nsyn then
          { s.syn[c] with inc := (s.syn[c].cfg.freq.toNat : ℚ) * s.cfg.tickPNs.toNat / 10 ^ 12 } else s.syn[c]) ∧
      (∀ (c : Chan) (k : Nat), c.val < s.params.nsyn → s.syn[c].cfg.mode = 3 → k < 1024 →
        readLut t.mem c k = if k < s.syn[c].cfg.lutN.toNat then
          clamp (roundSine s.params.sine ((k : ℚ) / s.syn[c].cfg.lutN.toNat)
            ((s.syn[c].cfg.amp.toNat : ℚ) * sext32 s.syn[c].cfg.gain / 10 ^ 6) 0) (-32768) 32767 else 0) ∧
      (∀ (c : Chan) (k : Nat), (s.params.nsyn ≤ c.val ∨ s.syn[c].cfg.mode ≠ 3) →
        readLut t.mem c k = readLut s.mem c k) ∧
      (∀ (a : Chan) (k : Nat), readBuf t.mem a k = readBuf s.mem a k) ∧
      (∀ x : Nat, (∀ c : Chan, c.val < s.params.nsyn → s.syn[c].cfg.mode = 3 → x < lutAddr c 0 ∨ lutAddr c 1024 ≤ x) →
        readByte t.mem x = readByte s.mem x) ∧
      ∀ o : SineOracle, ∃ u, execWith o (.hostWr 0x00008 d) s = .next u ∧
        ∀ (c : Chan) (k : Nat), c.val < s.params.nsyn → s.syn[c].cfg.mode = 3 → k < 1024 →
          readLut u.mem c k = if k < s.syn[c].cfg.lutN.toNat then
            clamp (roundSine o ((k : ℚ) / s.syn[c].cfg.lutN.toNat)
              ((s.syn[c].cfg.amp.toNat : ℚ) * sext32 s.syn[c].cfg.gain / 10 ^ 6) 0) (-32768) 32767 else 0

/-- R143, R239: a START that succeeds notes code 8 once for each LUT channel whose table saturated, ascending. -/
def Obligations.StartReportsSaturation : Prop :=
  ∀ (s : State) (d : Word), s.run = .configuring → d.getLsbD 0 = true → startValid s = true →
    ∃ (t : State) (saturated : List Chan), exec (.hostWr 0x00008 d) s = .next t ∧
      saturated.Pairwise (· < ·) ∧
      (∀ c : Chan, c ∈ saturated ↔ c.val < s.params.nsyn ∧ s.syn[c].cfg.mode = 3 ∧
        ∃ (k : Nat) (entry : Int), k < s.syn[c].cfg.lutN.toNat ∧
          entry = roundSine s.params.sine ((k : ℚ) / s.syn[c].cfg.lutN.toNat)
            ((s.syn[c].cfg.amp.toNat : ℚ) * sext32 s.syn[c].cfg.gain / 10 ^ 6) 0 ∧
          (entry < -32768 ∨ 32767 < entry)) ∧
      t.trace = s.trace ++ saturated.map (fun _ => OutEvent.error .lutSat) ++ [.hostResp true 0] ∧
      t.err = if saturated = [] then s.err else { sticky := s.err.sticky ||| 0x10, lastErr := 8 }

/-- R66, R207: while RUNNING the configuration, MOD_ONCE and the increments do not change. -/
def Obligations.ConfigurationIsFrozenWhileRunning : Prop :=
  ∀ s t : State, step s = .next t → s.run = .running → t.run = .running → configView t = configView s

/-- R22: only a valid START enters RUNNING, and only RESET leaves it. The list of turns, whose head is the word that the
step accepts, is the model's choice (log 3). -/
def Obligations.RunStateMovesOnlyByStartAndReset : Prop :=
  ∀ s t : State, step s = .next t →
    (s.run = .configuring → t.run = .running →
      ∃ d rest, s.turns = .word (encode (.hostWr 0x00008 d)) :: rest ∧ d.getLsbD 0 = true ∧ startValid s = true) ∧
    (s.run = .running → t.run = .configuring → ∃ w rest, s.turns = .word w :: rest ∧ decode w = .ok .reset)

/-! ## RESET and the whole machine -/

/-- R260, R262: RESET puts every state element to its reset value, keeps the trace, and appends RESET_DONE; two in a row
leave the same state but for the trace. That the parameters and turns stay is the model's choice (log 11). -/
def Obligations.ResetRestoresTheResetState : Prop :=
  ∀ s : State,
    exec .reset s = .next { State.powerOn s.params with turns := s.turns, trace := s.trace ++ [.resetDone] } ∧
    ∃ t u, exec .reset s = .next t ∧ exec .reset t = .next u ∧ u = { t with trace := t.trace ++ [.resetDone] }

/-- R261, R262: the reset value of every register, and of the state no register shows (TRIG_SUB with it, log 19); the trace is empty at power-on. The
parameters of `State.reset` are the model's choice of the reference configuration (log 2). -/
def Obligations.PowerOnValues : Prop :=
  (∀ (p : Params) (r : Reg), readValue (State.powerOn p) r = resetWord p r) ∧
  (∀ p : Params,
    (State.powerOn p).run = .configuring ∧ (State.powerOn p).trace = [] ∧ (State.powerOn p).pwm.lastWin = none ∧
    (State.powerOn p).tick.elapsed = 0 ∧ (State.powerOn p).snap = 0 ∧ (State.powerOn p).tick.trigSub = 0 ∧
    (State.powerOn p).tick.liveSub = 0 ∧ (State.powerOn p).tickPend = false ∧
    (∀ c : Chan, (State.powerOn p).syn[c].phase = 0 ∧ (State.powerOn p).syn[c].inc = 0 ∧
      (State.powerOn p).syn[c].index = 0 ∧ (State.powerOn p).syn[c].out = 0) ∧
    ∀ a : Chan, (State.powerOn p).acq[a].widx = 0) ∧
  State.reset = State.powerOn Params.reference

/-- R61: no result depends on a sticky bit or on LASTERR: changing the error reporting changes the next state in the error
reporting alone, for every instruction but a read of STATUS or LASTERR, and for both services. -/
def Obligations.ErrorFlagsChangeNothing : Prop :=
  ∀ (s : State) (e : ErrState),
    (∀ i : Instr, i ≠ .hostRd 0x0000C → i ≠ .hostRd 0x00010 →
      ∃ t t', exec i s = .next t ∧ exec i { s with err := e } = .next t' ∧ { t' with err := t.err } = t) ∧
    { tickService { s with err := e } with err := s.err } = tickService s ∧
    ∀ a : Chan, { acqService a { s with err := e } with err := s.err } = acqService a s

/-- The power-on state of every parameter choice is safe (R265); the canonical storage among the invariants is the model's
choice (log 6). -/
def Obligations.PowerOnIsSafe : Prop :=
  ∀ p : Params, Safe (State.powerOn p)

/-- R64, R265: every step keeps the invariants, the model's canonical storage (log 6) among them, whatever sine is given
(U2). -/
def Obligations.StepKeepsSafe : Prop :=
  (∀ s t : State, Safe s → step s = .next t → Safe t) ∧
  (∀ (o : SineOracle) (s t : State), Safe s → stepWith o s = .next t → Safe t)

/-- Every step keeps the canonical form of the storage, so that equal contents stay equal data (log 6). -/
def Obligations.StepKeepsMemoryCanonical : Prop :=
  ∀ s t : State, s.mem.wf → step s = .next t → t.mem.wf
end

