-- ==== Sys2Proof/Laws/Memory.lean ====
section
/-! SUPPORT. The laws of the storage: read after write, everything else unchanged, and the canonical form kept. -/

namespace Sys2Proof.Laws

open Sys2Proof.Machine

/-! ## One byte -/

theorem readByte_insertByte (a b : Nat) (v : Byte) (m : Memory) :
    readByte (insertByte a v m) b = if b = a then v else readByte m b := by
  induction m with
  | nil => simp [insertByte, readByte, eq_comm]
  | cons x m ih =>
    obtain ⟨k, u⟩ := x
    unfold insertByte
    split
    · simp [readByte, eq_comm]
    · split
      · subst k
        by_cases h : b = a
        · simp [readByte, h]
        · simp [readByte, h, Ne.symm h]
      · simp only [readByte, ih]; split <;> split <;> simp_all

theorem readByte_filter_ne (a b : Nat) (m : Memory) :
    readByte (m.filter (fun x => decide (x.1 ≠ a))) b = if b = a then 0 else readByte m b := by
  induction m with
  | nil => simp [readByte]
  | cons x m ih =>
    obtain ⟨k, u⟩ := x
    by_cases hk : k = a
    · subst k; simp only [List.filter_cons, ih, readByte, ne_eq, not_true, decide_false, Bool.false_eq_true, if_false]
      split <;> rename_i h
      · rfl
      · rw [if_neg (fun e => h e.symm)]
    · simp only [List.filter_cons, ih, readByte, ne_eq, hk, not_false_eq_true, decide_true, if_true]
      split <;> split <;> simp_all

/-- Reading a byte after writing one: the written one at its address, the old one everywhere else. -/
@[simp] theorem readByte_writeByte (a b : Nat) (v : Byte) (m : Memory) :
    readByte (writeByte a v m) b = if b = a then v else readByte m b := by
  unfold writeByte; split
  · subst v; exact readByte_filter_ne a b m
  · exact readByte_insertByte a b v m

theorem mem_insertByte {a : Nat} {v : Byte} {m : Memory} {x : Host.Cell} (h : x ∈ insertByte a v m) :
    x = (a, v) ∨ x ∈ m := by
  induction m with
  | nil => simpa [insertByte] using h
  | cons y m ih =>
    unfold insertByte at h
    split at h
    · simpa using h
    · split at h
      · rcases List.mem_cons.1 h with h | h
        · exact .inl h
        · exact .inr (List.mem_cons_of_mem _ h)
      · rcases List.mem_cons.1 h with h | h
        · exact .inr (h ▸ List.mem_cons_self)
        · rcases ih h with h | h
          · exact .inl h
          · exact .inr (List.mem_cons_of_mem _ h)

/-- Writing a byte keeps the canonical form. -/
theorem writeByte_wf {a : Nat} {v : Byte} {m : Memory} (h : m.wf) : (writeByte a v m).wf := by
  unfold writeByte; split
  · exact ⟨h.1.filter _, fun x hx => h.2 x (List.mem_of_mem_filter hx)⟩
  · rename_i hv
    refine ⟨?_, fun x hx => ?_⟩
    · obtain ⟨hs, -⟩ := h
      induction m with
      | nil => simp [insertByte]
      | cons y m ih =>
        obtain ⟨k, u⟩ := y
        obtain ⟨hk, hs⟩ := List.pairwise_cons.1 hs
        unfold insertByte; split
        · rename_i hlt
          refine List.pairwise_cons.2 ⟨fun z hz => ?_, List.pairwise_cons.2 ⟨hk, hs⟩⟩
          rcases List.mem_cons.1 hz with rfl | hz
          · exact hlt
          · exact hlt.trans (hk z hz)
        · split
          · rename_i h1 h2
            subst h2
            exact List.pairwise_cons.2 ⟨hk, hs⟩
          · rename_i h1 h2
            refine List.pairwise_cons.2 ⟨fun z hz => ?_, ih hs⟩
            rcases mem_insertByte hz with rfl | hz
            · exact lt_of_le_of_ne (Nat.le_of_not_lt h1) h2
            · exact hk z hz
    · rcases mem_insertByte hx with rfl | hx
      · exact hv
      · exact h.2 x hx

/-- Equal reads make equal canonical memories. -/
theorem memory_ext {m n : Memory} (hm : m.wf) (hn : n.wf) (h : ∀ a, readByte m a = readByte n a) : m = n := by
  have lower : ∀ {m : Memory} {k : Nat}, (∀ x ∈ m, k < x.1) → ∀ a ≤ k, readByte m a = 0 := by
    intro m k hk a ha
    induction m with
    | nil => rfl
    | cons x m ih =>
      obtain ⟨j, u⟩ := x
      have hj : k < j := hk (j, u) List.mem_cons_self
      rw [readByte, if_neg (by omega)]
      exact ih (fun y hy => hk y (List.mem_cons_of_mem _ hy))
  induction m generalizing n with
  | nil =>
    cases n with
    | nil => rfl
    | cons y n =>
      obtain ⟨j, u⟩ := y
      have := h j
      simp only [readByte, if_true] at this
      exact absurd this.symm (hn.2 (j, u) List.mem_cons_self)
  | cons x m ih =>
    obtain ⟨k, v⟩ := x
    have hk := (List.pairwise_cons.1 hm.1).1
    have hv : v ≠ 0 := hm.2 (k, v) List.mem_cons_self
    have hmt : Memory.wf m := ⟨(List.pairwise_cons.1 hm.1).2, fun y hy => hm.2 y (List.mem_cons_of_mem _ hy)⟩
    cases n with
    | nil =>
      have := h k
      simp only [readByte, if_true] at this
      exact absurd this hv
    | cons y n =>
      obtain ⟨j, u⟩ := y
      have hj := (List.pairwise_cons.1 hn.1).1
      have hu : u ≠ 0 := hn.2 (j, u) List.mem_cons_self
      have hnt : Memory.wf n := ⟨(List.pairwise_cons.1 hn.1).2, fun y hy => hn.2 y (List.mem_cons_of_mem _ hy)⟩
      have hkj : k = j := by
        rcases Nat.lt_trichotomy k j with hlt | heq | hgt
        · have := h k
          simp only [readByte, if_true] at this
          rw [if_neg (by omega), lower hj k hlt.le] at this
          exact absurd this hv
        · exact heq
        · have := h j
          simp only [readByte, if_true] at this
          rw [if_neg (by omega), lower hk j hgt.le] at this
          exact absurd this.symm hu
      subst hkj
      have huv : v = u := by simpa [readByte] using h k
      subst huv
      have : m = n := ih hmt hnt (fun a => by
        by_cases ha : k = a
        · subst ha; rw [lower hk k le_rfl, lower hj k le_rfl]
        · simpa [readByte, ha] using h a)
      rw [this]

/-! ## Two bytes -/

/-- Writing two bytes touches those two and no other. -/
theorem readByte_writeHalf (a b : Nat) (v : BitVec 16) (m : Memory) :
    readByte (writeHalf a v m) b =
      if b = a + 1 then v.extractLsb' 8 8 else if b = a then v.extractLsb' 0 8 else readByte m b := by
  simp [writeHalf]

theorem readHalf_writeHalf_self (a : Nat) (v : BitVec 16) (m : Memory) : readHalf (writeHalf a v m) a = v := by
  simp only [readHalf, readByte_writeHalf, if_true]
  rw [if_neg (by omega)]
  ext i hi
  simp only [BitVec.getElem_append, BitVec.getElem_extractLsb']
  split
  · simp [BitVec.getLsbD_eq_getElem hi]
  · rw [show 8 + (i - 8) = i by omega, BitVec.getLsbD_eq_getElem hi]

theorem readHalf_writeHalf_of_ne {a b : Nat} (v : BitVec 16) (m : Memory) (h : a + 1 < b ∨ b + 1 < a) :
    readHalf (writeHalf a v m) b = readHalf m b := by
  simp only [readHalf, readByte_writeHalf]
  rw [if_neg (by omega), if_neg (by omega), if_neg (by omega), if_neg (by omega)]

theorem writeHalf_wf {a : Nat} {v : BitVec 16} {m : Memory} (h : m.wf) : (writeHalf a v m).wf :=
  writeByte_wf (writeByte_wf h)

/-! ## Entries of the two arrays -/

theorem writeLut_wf {c : Chan} {k : Nat} {v : BitVec 16} {m : Memory} (h : m.wf) : (writeLut c k v m).wf := by
  unfold writeLut; split
  · exact writeHalf_wf h
  · exact h

theorem writeBuf_wf {a : Chan} {k : Nat} {v : BitVec 12} {m : Memory} (h : m.wf) : (writeBuf a k v m).wf := by
  unfold writeBuf; split
  · exact writeHalf_wf h
  · exact h

theorem clearLut_wf {c : Chan} {m : Memory} (h : m.wf) : (clearLut c m).wf :=
  ⟨h.1.filter _, fun x hx => h.2 x (List.mem_of_mem_filter hx)⟩

theorem writeLutFrom_wf {c : Chan} {k : Nat} {vs : List (BitVec 16)} {m : Memory} (h : m.wf) :
    (writeLutFrom c k vs m).wf := by
  induction vs generalizing k with
  | nil => exact h
  | cons v vs ih => exact writeLut_wf ih

theorem writeTable_wf {c : Chan} {vs : List (BitVec 16)} {m : Memory} (h : m.wf) : (writeTable c vs m).wf :=
  writeLutFrom_wf (clearLut_wf h)

/-- A slot reads back what was written to it. -/
theorem readBuf_writeBuf_self {a : Chan} {k : Nat} (v : BitVec 12) (m : Memory) (h : k < acqMaxC) :
    readBuf (writeBuf a k v m) a k = v := by
  simp only [readBuf, writeBuf, if_pos h, readHalf_writeHalf_self]
  ext i hi; simp

/-- Another slot keeps its value. -/
theorem readBuf_writeBuf_of_ne {a b : Chan} {j k : Nat} (v : BitVec 12) (m : Memory) (h : a ≠ b ∨ j ≠ k) :
    readBuf (writeBuf a j v m) b k = readBuf m b k := by
  unfold readBuf writeBuf
  split
  · split
    · rename_i hk hj
      rw [readHalf_writeHalf_of_ne]
      have hj' : j < 4096 := hj
      have hk' : k < 4096 := hk
      unfold bufAddr
      rcases Nat.lt_trichotomy a.val b.val with hlt | heq | hgt
      · left; omega
      · have : j ≠ k := h.resolve_left (fun hne => hne (Fin.ext heq))
        rw [heq]; omega
      · right; omega
    · rfl
  · rfl

/-- Writing a slot of a sample buffer changes no byte outside its own two. -/
theorem readByte_writeBuf_of_ne {a : Chan} {k b : Nat} (v : BitVec 12) (m : Memory)
    (h : b ≠ bufAddr a k) (h' : b ≠ bufAddr a k + 1) : readByte (writeBuf a k v m) b = readByte m b := by
  unfold writeBuf; split
  · rw [readByte_writeHalf, if_neg h', if_neg h]
  · rfl

/-- Writing a sample buffer changes no lookup-table entry. -/
theorem readLut_writeBuf (a : Chan) (j : Nat) (v : BitVec 12) (m : Memory) (c : Chan) (k : Nat) :
    readLut (writeBuf a j v m) c k = readLut m c k := by
  unfold readLut writeBuf
  split
  · split
    · rename_i hk hj
      have hk' : k < 1024 := hk
      rw [readHalf_writeHalf_of_ne _ _ (by unfold bufAddr lutAddr; omega)]
    · rfl
  · rfl

/-- Writing an entry of a lookup table changes no sample buffer. -/
theorem readBuf_writeLut (c : Chan) (j : Nat) (v : BitVec 16) (m : Memory) (a : Chan) (k : Nat) :
    readBuf (writeLut c j v m) a k = readBuf m a k := by
  unfold readBuf writeLut
  split
  · split
    · rename_i hk hj
      have hj' : j < 1024 := hj
      rw [readHalf_writeHalf_of_ne _ _ (by unfold bufAddr lutAddr; omega)]
    · rfl
  · rfl

theorem readLut_writeLut_self {c : Chan} {k : Nat} (v : BitVec 16) (m : Memory) (h : k < lutMaxN) :
    readLut (writeLut c k v m) c k = v.toInt := by
  simp only [readLut, writeLut, if_pos h, readHalf_writeHalf_self]

theorem readLut_writeLut_of_ne {c d : Chan} {j k : Nat} (v : BitVec 16) (m : Memory) (h : c ≠ d ∨ j ≠ k) :
    readLut (writeLut c j v m) d k = readLut m d k := by
  unfold readLut writeLut
  split
  · split
    · rename_i hk hj
      rw [readHalf_writeHalf_of_ne]
      have hj' : j < 1024 := hj
      have hk' : k < 1024 := hk
      unfold lutAddr
      rcases Nat.lt_trichotomy c.val d.val with hlt | heq | hgt
      · left; omega
      · have : j ≠ k := h.resolve_left (fun hne => hne (Fin.ext heq))
        rw [heq]; omega
      · right; omega
    · rfl
  · rfl

/-- Clearing a table clears its window and no other byte. -/
theorem readByte_clearLut (c : Chan) (m : Memory) (b : Nat) :
    readByte (clearLut c m) b = if lutAddr c 0 ≤ b ∧ b < lutAddr c lutMaxN then 0 else readByte m b := by
  unfold clearLut
  induction m with
  | nil => simp [readByte]
  | cons x m ih =>
    obtain ⟨k, u⟩ := x
    simp only [List.filter_cons]
    split
    · rename_i hk
      simp only [decide_eq_true_eq] at hk
      simp only [readByte, ih]
      split
      · rename_i h; subst h; rw [if_neg (by omega)]
      · rfl
    · rename_i hk
      simp only [decide_eq_true_eq, not_or, Nat.not_lt, Nat.not_le] at hk
      rw [ih]
      split
      · rfl
      · rename_i h; rw [readByte, if_neg (by rintro rfl; exact h hk)]

theorem readLut_clearLut (c d : Chan) (m : Memory) (k : Nat) :
    readLut (clearLut c m) d k = if c = d then 0 else readLut m d k := by
  unfold readLut readHalf
  simp only [readByte_clearLut]
  split
  · rename_i hk
    have hk' : k < 1024 := hk
    by_cases hc : c = d
    · subst hc
      rw [if_pos (by unfold lutAddr; omega), if_pos (by unfold lutAddr; omega), if_pos rfl]
      rfl
    · have : c.val ≠ d.val := fun e => hc (Fin.ext e)
      rw [if_neg (by unfold lutAddr lutMaxN; omega), if_neg (by unfold lutAddr lutMaxN; omega), if_neg hc]
  · split <;> rfl

theorem readBuf_clearLut (c a : Chan) (m : Memory) (k : Nat) : readBuf (clearLut c m) a k = readBuf m a k := by
  unfold readBuf readHalf
  simp only [readByte_clearLut]
  split
  · rw [if_neg (by unfold lutAddr bufAddr lutMaxN; omega), if_neg (by unfold lutAddr bufAddr lutMaxN; omega)]
  · rfl

/-- Writing a run of entries from entry j on: entry j + i holds the i-th value, every other entry its old one. -/
theorem readLut_writeLutFrom (c d : Chan) (j k : Nat) (vs : List (BitVec 16)) (m : Memory) (h : j + vs.length ≤ lutMaxN) :
    readLut (writeLutFrom c j vs m) d k =
      if c = d ∧ j ≤ k ∧ k < j + vs.length then (vs.getD (k - j) 0).toInt else readLut m d k := by
  induction vs generalizing j with
  | nil => rw [if_neg (by simp)]; rfl
  | cons v vs ih =>
    simp only [List.length_cons] at h
    simp only [writeLutFrom]
    by_cases hd : c = d ∧ j = k
    · obtain ⟨rfl, rfl⟩ := hd
      rw [readLut_writeLut_self _ _ (by omega), if_pos (by simp)]
      simp
    · rw [readLut_writeLut_of_ne _ _ (by by_cases h1 : c = d
                                         · exact .inr (fun h2 => hd ⟨h1, h2⟩)
                                         · exact .inl h1), ih _ (by omega)]
      simp only [List.length_cons]
      by_cases h1 : c = d
      · have hjk : j ≠ k := fun e => hd ⟨h1, e⟩
        by_cases h2 : j + 1 ≤ k ∧ k < j + 1 + vs.length
        · rw [if_pos ⟨h1, h2⟩, if_pos ⟨h1, by omega, by omega⟩]
          obtain ⟨n, rfl⟩ : ∃ n, k = j + 1 + n := ⟨k - (j + 1), by omega⟩
          rw [show j + 1 + n - (j + 1) = n by omega, show j + 1 + n - j = n + 1 by omega]
          simp
        · rw [if_neg (by tauto), if_neg (by omega)]
      · rw [if_neg (by tauto), if_neg (by tauto)]

theorem readBuf_writeLutFrom (c a : Chan) (j k : Nat) (vs : List (BitVec 16)) (m : Memory) :
    readBuf (writeLutFrom c j vs m) a k = readBuf m a k := by
  induction vs generalizing j with
  | nil => rfl
  | cons v vs ih => rw [writeLutFrom, readBuf_writeLut, ih]

/-- The reset storage reads 0 everywhere (70_reset_and_hazards.md R261). -/
@[simp] theorem readLut_nil (c : Chan) (k : Nat) : readLut [] c k = 0 := by
  unfold readLut; split
  · show (0#8 ++ 0#8).toInt = 0; decide
  · rfl

@[simp] theorem readBuf_nil (a : Chan) (k : Nat) : readBuf [] a k = 0 := by
  unfold readBuf; split
  · show (0#8 ++ 0#8).setWidth 12 = 0; decide
  · rfl

/-- Table writes stay within the channel's window. -/
theorem readByte_writeLutFrom_of_outside {c : Chan} {j b : Nat} (vs : List (BitVec 16)) (m : Memory)
    (h : b < lutAddr c 0 ∨ lutAddr c lutMaxN ≤ b) : readByte (writeLutFrom c j vs m) b = readByte m b := by
  induction vs generalizing j with
  | nil => rfl
  | cons v vs ih =>
    rw [writeLutFrom, writeLut]
    split
    · rename_i hj
      unfold lutAddr lutMaxN at *
      rw [readByte_writeHalf, if_neg (by omega), if_neg (by omega), ih]
    · exact ih

theorem readByte_writeTable_of_outside {c : Chan} {b : Nat} (vs : List (BitVec 16)) (m : Memory)
    (h : b < lutAddr c 0 ∨ lutAddr c lutMaxN ≤ b) : readByte (writeTable c vs m) b = readByte m b := by
  rw [writeTable, readByte_writeLutFrom_of_outside _ _ h, readByte_clearLut, if_neg (by omega)]

/-- Everything `writeTable` does to the lookup tables: the given entries, 0 after them, other channels kept. -/
theorem readLut_writeTable (c d : Chan) (k : Nat) (vs : List (BitVec 16)) (m : Memory) (h : vs.length ≤ lutMaxN) :
    readLut (writeTable c vs m) d k = if c = d then (vs.getD k 0).toInt else readLut m d k := by
  rw [writeTable, readLut_writeLutFrom _ _ _ _ _ _ (by omega), readLut_clearLut]
  by_cases hc : c = d
  · simp only [hc, true_and, if_true, Nat.zero_le, Nat.zero_add, Nat.sub_zero]
    split
    · rfl
    · rename_i hk
      rw [List.getD_eq_getElem?_getD, List.getElem?_eq_none (by omega)]; rfl
  · simp [hc]

theorem readBuf_writeTable (c a : Chan) (k : Nat) (vs : List (BitVec 16)) (m : Memory) :
    readBuf (writeTable c vs m) a k = readBuf m a k := by
  rw [writeTable, readBuf_writeLutFrom, readBuf_clearLut]

/-- Writes of two different slots commute on canonical memories. -/
theorem writeBuf_comm {a b : Chan} {j k : Nat} (u v : BitVec 12) {m : Memory} (hm : m.wf) (h : a ≠ b) :
    writeBuf a j u (writeBuf b k v m) = writeBuf b k v (writeBuf a j u m) := by
  refine memory_ext (writeBuf_wf (writeBuf_wf hm)) (writeBuf_wf (writeBuf_wf hm)) fun x => ?_
  have hab : a.val ≠ b.val := fun e => h (Fin.ext e)
  unfold writeBuf
  split <;> rename_i hj <;> split <;> rename_i hk
  · have hj' : j < 4096 := hj
    have hk' : k < 4096 := hk
    simp only [readByte_writeHalf, bufAddr]
    split_ifs <;> first | rfl | omega
  all_goals rfl

end Sys2Proof.Laws
end

