-- ==== Sys2Proof/Laws/State.lean ====
section
/-! SUPPORT. One lemma per field of the state for each basic update, and the channel reads after a channel write. -/

namespace Sys2Proof.Laws

open Sys2Proof.Machine

/-- Two states with equal fields are equal. -/
theorem state_ext {s t : State}
    (h0 : s.params = t.params) (h1 : s.turns = t.turns) (h2 : s.trace = t.trace) (h3 : s.run = t.run) (h4 : s.err = t.err)
    (h5 : s.cfg = t.cfg) (h6 : s.tick = t.tick) (h7 : s.tickPend = t.tickPend) (h8 : s.dlmissCnt = t.dlmissCnt) (h9 : s.snap = t.snap)
    (h10 : s.pwm = t.pwm) (h11 : s.syn = t.syn) (h12 : s.acq = t.acq) (h13 : s.mem = t.mem) : s = t := by
  cases s; cases t; simp only at *; subst_vars; rfl

/-! ## `emit` -/

@[simp] theorem emit_params (e : OutEvent) (s : State) : (emit e s).params = s.params := rfl
@[simp] theorem emit_turns (e : OutEvent) (s : State) : (emit e s).turns = s.turns := rfl
@[simp] theorem emit_trace (e : OutEvent) (s : State) : (emit e s).trace = s.trace ++ [e] := rfl
@[simp] theorem emit_run (e : OutEvent) (s : State) : (emit e s).run = s.run := rfl
@[simp] theorem emit_err (e : OutEvent) (s : State) : (emit e s).err = s.err := rfl
@[simp] theorem emit_cfg (e : OutEvent) (s : State) : (emit e s).cfg = s.cfg := rfl
@[simp] theorem emit_tick (e : OutEvent) (s : State) : (emit e s).tick = s.tick := rfl
@[simp] theorem emit_tickPend (e : OutEvent) (s : State) : (emit e s).tickPend = s.tickPend := rfl
@[simp] theorem emit_dlmissCnt (e : OutEvent) (s : State) : (emit e s).dlmissCnt = s.dlmissCnt := rfl
@[simp] theorem emit_snap (e : OutEvent) (s : State) : (emit e s).snap = s.snap := rfl
@[simp] theorem emit_pwm (e : OutEvent) (s : State) : (emit e s).pwm = s.pwm := rfl
@[simp] theorem emit_syn (e : OutEvent) (s : State) : (emit e s).syn = s.syn := rfl
@[simp] theorem emit_acq (e : OutEvent) (s : State) : (emit e s).acq = s.acq := rfl
@[simp] theorem emit_mem (e : OutEvent) (s : State) : (emit e s).mem = s.mem := rfl

/-! ## `report`, and `raise` and `note`, which are it -/

@[simp] theorem report_params (k : ErrCode) (s : State) : (report k s).params = s.params := rfl
@[simp] theorem report_turns (k : ErrCode) (s : State) : (report k s).turns = s.turns := rfl
@[simp] theorem report_trace (k : ErrCode) (s : State) : (report k s).trace = s.trace ++ [.error k] := rfl
@[simp] theorem report_run (k : ErrCode) (s : State) : (report k s).run = s.run := rfl
@[simp] theorem report_err (k : ErrCode) (s : State) : (report k s).err = ⟨setSticky k s.err.sticky, codeNumber k⟩ := rfl
@[simp] theorem report_cfg (k : ErrCode) (s : State) : (report k s).cfg = s.cfg := rfl
@[simp] theorem report_tick (k : ErrCode) (s : State) : (report k s).tick = s.tick := rfl
@[simp] theorem report_tickPend (k : ErrCode) (s : State) : (report k s).tickPend = s.tickPend := rfl
@[simp] theorem report_dlmissCnt (k : ErrCode) (s : State) : (report k s).dlmissCnt = s.dlmissCnt := rfl
@[simp] theorem report_snap (k : ErrCode) (s : State) : (report k s).snap = s.snap := rfl
@[simp] theorem report_pwm (k : ErrCode) (s : State) : (report k s).pwm = s.pwm := rfl
@[simp] theorem report_syn (k : ErrCode) (s : State) : (report k s).syn = s.syn := rfl
@[simp] theorem report_acq (k : ErrCode) (s : State) : (report k s).acq = s.acq := rfl
@[simp] theorem report_mem (k : ErrCode) (s : State) : (report k s).mem = s.mem := rfl
@[simp] theorem raise_eq (k : ErrCode) (s : State) : raise k s = report k s := rfl
@[simp] theorem note_eq (k : ErrCode) (s : State) : note k s = report k s := rfl

/-! ## `setSyn` and `setAcq` -/

@[simp] theorem setSyn_params (c : Chan) (ch : SynChannel) (s : State) : (setSyn c ch s).params = s.params := rfl
@[simp] theorem setSyn_turns (c : Chan) (ch : SynChannel) (s : State) : (setSyn c ch s).turns = s.turns := rfl
@[simp] theorem setSyn_trace (c : Chan) (ch : SynChannel) (s : State) : (setSyn c ch s).trace = s.trace := rfl
@[simp] theorem setSyn_run (c : Chan) (ch : SynChannel) (s : State) : (setSyn c ch s).run = s.run := rfl
@[simp] theorem setSyn_err (c : Chan) (ch : SynChannel) (s : State) : (setSyn c ch s).err = s.err := rfl
@[simp] theorem setSyn_cfg (c : Chan) (ch : SynChannel) (s : State) : (setSyn c ch s).cfg = s.cfg := rfl
@[simp] theorem setSyn_tick (c : Chan) (ch : SynChannel) (s : State) : (setSyn c ch s).tick = s.tick := rfl
@[simp] theorem setSyn_tickPend (c : Chan) (ch : SynChannel) (s : State) : (setSyn c ch s).tickPend = s.tickPend := rfl
@[simp] theorem setSyn_dlmissCnt (c : Chan) (ch : SynChannel) (s : State) : (setSyn c ch s).dlmissCnt = s.dlmissCnt := rfl
@[simp] theorem setSyn_snap (c : Chan) (ch : SynChannel) (s : State) : (setSyn c ch s).snap = s.snap := rfl
@[simp] theorem setSyn_pwm (c : Chan) (ch : SynChannel) (s : State) : (setSyn c ch s).pwm = s.pwm := rfl
@[simp] theorem setSyn_syn (c : Chan) (ch : SynChannel) (s : State) : (setSyn c ch s).syn = s.syn.set c ch := rfl
@[simp] theorem setSyn_acq (c : Chan) (ch : SynChannel) (s : State) : (setSyn c ch s).acq = s.acq := rfl
@[simp] theorem setSyn_mem (c : Chan) (ch : SynChannel) (s : State) : (setSyn c ch s).mem = s.mem := rfl

@[simp] theorem setAcq_params (a : Chan) (ch : AcqChannel) (s : State) : (setAcq a ch s).params = s.params := rfl
@[simp] theorem setAcq_turns (a : Chan) (ch : AcqChannel) (s : State) : (setAcq a ch s).turns = s.turns := rfl
@[simp] theorem setAcq_trace (a : Chan) (ch : AcqChannel) (s : State) : (setAcq a ch s).trace = s.trace := rfl
@[simp] theorem setAcq_run (a : Chan) (ch : AcqChannel) (s : State) : (setAcq a ch s).run = s.run := rfl
@[simp] theorem setAcq_err (a : Chan) (ch : AcqChannel) (s : State) : (setAcq a ch s).err = s.err := rfl
@[simp] theorem setAcq_cfg (a : Chan) (ch : AcqChannel) (s : State) : (setAcq a ch s).cfg = s.cfg := rfl
@[simp] theorem setAcq_tick (a : Chan) (ch : AcqChannel) (s : State) : (setAcq a ch s).tick = s.tick := rfl
@[simp] theorem setAcq_tickPend (a : Chan) (ch : AcqChannel) (s : State) : (setAcq a ch s).tickPend = s.tickPend := rfl
@[simp] theorem setAcq_dlmissCnt (a : Chan) (ch : AcqChannel) (s : State) : (setAcq a ch s).dlmissCnt = s.dlmissCnt := rfl
@[simp] theorem setAcq_snap (a : Chan) (ch : AcqChannel) (s : State) : (setAcq a ch s).snap = s.snap := rfl
@[simp] theorem setAcq_pwm (a : Chan) (ch : AcqChannel) (s : State) : (setAcq a ch s).pwm = s.pwm := rfl
@[simp] theorem setAcq_syn (a : Chan) (ch : AcqChannel) (s : State) : (setAcq a ch s).syn = s.syn := rfl
@[simp] theorem setAcq_acq (a : Chan) (ch : AcqChannel) (s : State) : (setAcq a ch s).acq = s.acq.set a ch := rfl
@[simp] theorem setAcq_mem (a : Chan) (ch : AcqChannel) (s : State) : (setAcq a ch s).mem = s.mem := rfl

/-- A channel vector read after one channel was replaced. -/
theorem chan_get_set {α : Type} (v : Vector α 16) (c d : Chan) (x : α) :
    (v.set c x)[d] = if c = d then x else v[d] := by
  simp only [Fin.getElem_fin, Vector.getElem_set, Fin.ext_iff]

@[simp] theorem chan_get_set_self {α : Type} (v : Vector α 16) (c : Chan) (x : α) : (v.set c x)[c.val] = x := by
  simp

/-- Two channel vectors with equal channels are equal. -/
theorem chan_ext {α : Type} {v w : Vector α 16} (h : ∀ c : Chan, v[c] = w[c]) : v = w :=
  Vector.ext fun i hi => h ⟨i, hi⟩

@[simp] theorem chan_get_replicate {α : Type} (x : α) (c : Chan) : (Vector.replicate 16 x)[c] = x := by
  simp

/-! ## The channel lists -/

theorem mem_channels {n : Nat} {c : Chan} : c ∈ channels n ↔ c.val < n := by
  simp [channels]

theorem channels_nodup (n : Nat) : (channels n).Nodup := (List.nodup_finRange 16).filter _

/-- The channel list is ascending (00_scope.md R19). -/
theorem channels_sorted (n : Nat) : (channels n).Pairwise (· < ·) := (List.pairwise_lt_finRange 16).filter _

/-! ## The clamp -/

theorem clamp_bounds {v lo hi : Int} (h : lo ≤ hi) : lo ≤ clamp v lo hi ∧ clamp v lo hi ≤ hi := by
  unfold clamp; omega

theorem clamp_of_mem {v lo hi : Int} (h : lo ≤ v) (h' : v ≤ hi) : clamp v lo hi = v := by
  unfold clamp; omega

end Sys2Proof.Laws
end

