-- ==== Sys2Proof/Laws/Access.lean ====
section
/-! SUPPORT. What a host access can do: the checks, the reads, the configuration writes, and START. -/

namespace Sys2Proof.Laws

open Sys2Proof.Machine

/-! ## The checks -/

/-- The alignment check is on ADDR[1:0] (20_memory.md R74). -/
theorem misaligned_iff (addr : HAddr) : misaligned addr = true ↔ addr.toNat % 4 ≠ 0 := by
  have h : (addr.extractLsb' 0 2).toNat = addr.toNat % 4 := by
    simp [BitVec.extractLsb'_toNat]
  rw [misaligned, bne_iff_ne, ne_eq, ← BitVec.toNat_inj, h]; rfl

/-- What checks 1 and 2 answer (44_host_access.md R202). -/
theorem locate_cases (p : Params) (addr : HAddr) :
    (addr.toNat % 4 ≠ 0 ∧ locate p addr = .error .busMisaligned) ∨
    (addr.toNat % 4 = 0 ∧ regAt p addr = none ∧ locate p addr = .error .busUnmapped) ∨
    (∃ r, addr.toNat % 4 = 0 ∧ regAt p addr = some r ∧ locate p addr = .ok r) := by
  unfold locate
  by_cases h : misaligned addr = true
  · exact .inl ⟨(misaligned_iff addr).1 h, by rw [if_pos h]⟩
  · have h4 : addr.toNat % 4 = 0 := by
      by_contra hc; exact h ((misaligned_iff addr).2 hc)
    rw [if_neg h]
    cases hr : regAt p addr with
    | none => exact .inr (.inl ⟨h4, rfl, rfl⟩)
    | some r => exact .inr (.inr ⟨r, h4, rfl, rfl⟩)

/-- An aligned, mapped address passes checks 1 and 2. -/
theorem locate_of_regAt {p : Params} {addr : HAddr} {r : Reg} (h4 : addr.toNat % 4 = 0) (hr : regAt p addr = some r) :
    locate p addr = .ok r := by
  rcases locate_cases p addr with ⟨h, _⟩ | ⟨_, h, _⟩ | ⟨q, _, h, hl⟩
  · exact absurd h4 h
  · rw [hr] at h; cases h
  · rw [hr] at h; cases h; exact hl

/-- What HOST_RD can do. -/
theorem hostRead_cases (addr : HAddr) (s : State) :
    (∃ k, (k = .busMisaligned ∨ k = .busUnmapped) ∧ hostRead addr s = refuseAccess k s) ∨
    (∃ r, addr.toNat % 4 = 0 ∧ regAt s.params addr = some r ∧
      hostRead addr s = answerAccess (readValue s r) (readEffect r s)) := by
  unfold hostRead
  rcases locate_cases s.params addr with ⟨_, hl⟩ | ⟨_, _, hl⟩ | ⟨r, h4, hr, hl⟩ <;> rw [hl]
  · exact .inl ⟨_, .inl rfl, rfl⟩
  · exact .inl ⟨_, .inr rfl, rfl⟩
  · exact .inr ⟨r, h4, hr, rfl⟩

/-- What HOST_WR can do: a refusal, or an accepted write to STATUS, to CTRL or to a CFG register. -/
theorem hostWriteWith_cases (o : SineOracle) (addr : HAddr) (d : Word) (s : State) :
    (∃ k, (k = .busMisaligned ∨ k = .busUnmapped ∨ k = .busReadonly ∨ (k = .cfgLocked ∧ s.run = .running) ∨
        (k = .startInvalid ∧ s.run = .configuring ∧ d.getLsbD 0 = true ∧ startValid s = false)) ∧
      hostWriteWith o addr d s = refuseAccess k s) ∨
    (addr.toNat % 4 = 0 ∧ regAt s.params addr = some .status ∧ hostWriteWith o addr d s = answerAccess 0 (writeStatus d s)) ∨
    (addr.toNat % 4 = 0 ∧ regAt s.params addr = some .ctrl ∧ s.run = .configuring ∧
      (d.getLsbD 0 = true → startValid s = true) ∧ hostWriteWith o addr d s = answerAccess 0 (ctrlWrite o d s)) ∨
    (∃ r, addr.toNat % 4 = 0 ∧ regAt s.params addr = some (.cfg r) ∧ s.run = .configuring ∧
      hostWriteWith o addr d s = answerAccess 0 (writeCfg r d s)) := by
  unfold hostWriteWith
  rcases locate_cases s.params addr with ⟨_, hl⟩ | ⟨_, _, hl⟩ | ⟨r, h4, hr, hl⟩ <;> rw [hl]
  · exact .inl ⟨_, .inl rfl, rfl⟩
  · exact .inl ⟨_, .inr (.inl rfl), rfl⟩
  · simp only []
    cases r with
    | status => exact .inr (.inl ⟨h4, hr, rfl⟩)
    | ro r => exact .inl ⟨_, .inr (.inr (.inl rfl)), rfl⟩
    | cfg r =>
      cases hrun : s.run with
      | running => exact .inl ⟨.cfgLocked, .inr (.inr (.inr (.inl ⟨rfl, rfl⟩))), by simp [writeCheck, isRunning, hrun]⟩
      | configuring =>
        exact .inr (.inr (.inr ⟨r, h4, hr, rfl, by simp [writeCheck, isRunning, hrun, writeEffect]⟩))
    | ctrl =>
      cases hrun : s.run with
      | running => exact .inl ⟨.cfgLocked, .inr (.inr (.inr (.inl ⟨rfl, rfl⟩))), by simp [writeCheck, isRunning, hrun]⟩
      | configuring =>
        by_cases hd : d.getLsbD 0 = true ∧ startValid s = false
        · exact .inl ⟨.startInvalid, .inr (.inr (.inr (.inr ⟨rfl, rfl, hd.1, hd.2⟩))), by
            simp only [writeCheck, isRunning, hrun, if_pos hd]; rfl⟩
        · refine .inr (.inr (.inl ⟨h4, hr, rfl, fun h => ?_, ?_⟩))
          · by_contra hv; exact hd ⟨h, by simpa using hv⟩
          · simp only [writeCheck, isRunning, hrun, if_neg hd]; rfl

/-- The same, with the parameters' sine. -/
theorem hostWrite_cases (addr : HAddr) (d : Word) (s : State) :
    (∃ k, (k = .busMisaligned ∨ k = .busUnmapped ∨ k = .busReadonly ∨ (k = .cfgLocked ∧ s.run = .running) ∨
        (k = .startInvalid ∧ s.run = .configuring ∧ d.getLsbD 0 = true ∧ startValid s = false)) ∧
      hostWrite addr d s = refuseAccess k s) ∨
    (addr.toNat % 4 = 0 ∧ regAt s.params addr = some .status ∧ hostWrite addr d s = answerAccess 0 (writeStatus d s)) ∨
    (addr.toNat % 4 = 0 ∧ regAt s.params addr = some .ctrl ∧ s.run = .configuring ∧
      (d.getLsbD 0 = true → startValid s = true) ∧ hostWrite addr d s = answerAccess 0 (ctrlWrite s.params.sine d s)) ∨
    (∃ r, addr.toNat % 4 = 0 ∧ regAt s.params addr = some (.cfg r) ∧ s.run = .configuring ∧
      hostWrite addr d s = answerAccess 0 (writeCfg r d s)) :=
  hostWriteWith_cases s.params.sine addr d s

/-- A refused access writes the error reporting and the trace. -/
theorem refuseAccess_eq (k : ErrCode) (s : State) :
    refuseAccess k s = { s with
      err := ⟨setSticky k s.err.sticky, codeNumber k⟩
      trace := s.trace ++ [.error k, .hostResp false 0] } := by
  simp [refuseAccess, emit, raise, report]

/-- A read writes at most ELAPSED_SNAP. -/
theorem readEffect_eq (r : Reg) (s : State) :
    readEffect r s = { s with
      snap := if r = .ro .elapsedLo then BitVec.ofNat 32 (s.tick.elapsed / 2 ^ 32) else s.snap } := by
  unfold readEffect; split <;> rfl

/-! ## Configuration writes -/

/-- A CFG write writes the configuration registers. -/
theorem writeCfg_frame (r : CfgReg) (d : Word) (s : State) :
    writeCfg r d s = { s with
      cfg := (writeCfg r d s).cfg, syn := (writeCfg r d s).syn, acq := (writeCfg r d s).acq } := by
  cases r <;> rfl

@[simp] theorem writeCfg_params (r : CfgReg) (d : Word) (s : State) : (writeCfg r d s).params = s.params := by
  rw [writeCfg_frame]
@[simp] theorem writeCfg_turns (r : CfgReg) (d : Word) (s : State) : (writeCfg r d s).turns = s.turns := by
  rw [writeCfg_frame]
@[simp] theorem writeCfg_trace (r : CfgReg) (d : Word) (s : State) : (writeCfg r d s).trace = s.trace := by
  rw [writeCfg_frame]
@[simp] theorem writeCfg_run (r : CfgReg) (d : Word) (s : State) : (writeCfg r d s).run = s.run := by
  rw [writeCfg_frame]
@[simp] theorem writeCfg_err (r : CfgReg) (d : Word) (s : State) : (writeCfg r d s).err = s.err := by
  rw [writeCfg_frame]
@[simp] theorem writeCfg_tick (r : CfgReg) (d : Word) (s : State) : (writeCfg r d s).tick = s.tick := by
  rw [writeCfg_frame]
@[simp] theorem writeCfg_tickPend (r : CfgReg) (d : Word) (s : State) : (writeCfg r d s).tickPend = s.tickPend := by
  rw [writeCfg_frame]
@[simp] theorem writeCfg_dlmissCnt (r : CfgReg) (d : Word) (s : State) : (writeCfg r d s).dlmissCnt = s.dlmissCnt := by
  rw [writeCfg_frame]
@[simp] theorem writeCfg_snap (r : CfgReg) (d : Word) (s : State) : (writeCfg r d s).snap = s.snap := by
  rw [writeCfg_frame]
@[simp] theorem writeCfg_pwm (r : CfgReg) (d : Word) (s : State) : (writeCfg r d s).pwm = s.pwm := by
  rw [writeCfg_frame]
@[simp] theorem writeCfg_mem (r : CfgReg) (d : Word) (s : State) : (writeCfg r d s).mem = s.mem := by
  rw [writeCfg_frame]

/-- The synthesis channels after one channel's CFG registers changed. -/
theorem mapSynCfg_syn (c d : Chan) (f : SynCfg → SynCfg) (s : State) :
    (mapSynCfg c f s).syn[d] = if c = d then { s.syn[d] with cfg := f s.syn[d].cfg } else s.syn[d] := by
  rw [mapSynCfg, setSyn_syn, chan_get_set]; split
  · rename_i h; subst h; rfl
  · rfl

/-- The acquisition channels after one channel's CFG registers changed. -/
theorem mapAcqCfg_acq (a d : Chan) (f : AcqCfg → AcqCfg) (s : State) :
    (mapAcqCfg a f s).acq[d] = if a = d then { s.acq[d] with cfg := f s.acq[d].cfg } else s.acq[d] := by
  rw [mapAcqCfg, setAcq_acq, chan_get_set]; split
  · rename_i h; subst h; rfl
  · rfl

/-! ## START -/

/-- The latching of INC over a list of distinct channels: each latches its own increment. -/
theorem latchInc_fold (cs : List Chan) (hcs : cs.Nodup) (s : State) :
    cs.foldl latchInc s = { s with syn := (cs.foldl latchInc s).syn } ∧
    ∀ d : Chan, (cs.foldl latchInc s).syn[d] =
      if d ∈ cs then { s.syn[d] with inc := incrementOf s.syn[d].cfg s.cfg.tickPNs } else s.syn[d] := by
  induction cs generalizing s with
  | nil => simp
  | cons c cs ih =>
    obtain ⟨hc, hcs⟩ := List.nodup_cons.1 hcs
    obtain ⟨h1, h2⟩ := ih hcs (latchInc s c)
    have hother : ∀ d : Chan, (latchInc s c).syn[d] =
        if c = d then { s.syn[c] with inc := incrementOf s.syn[c].cfg s.cfg.tickPNs } else s.syn[d] :=
      fun d => chan_get_set _ _ _ _
    refine ⟨?_, fun d => ?_⟩
    · rw [List.foldl_cons, h1]; rfl
    · rw [List.foldl_cons, h2, hother]
      have hcfg : (latchInc s c).cfg = s.cfg := rfl
      rw [hcfg]
      by_cases hcd : c = d
      · subst hcd; rw [if_neg hc, if_pos rfl, if_pos List.mem_cons_self]
      · rw [if_neg hcd]
        by_cases hd : d ∈ cs
        · rw [if_pos hd, if_pos (List.mem_cons_of_mem _ hd)]
        · rw [if_neg hd, if_neg (by simp only [List.mem_cons, not_or]; exact ⟨fun e => hcd e.symm, hd⟩)]

/-- LUT_BUILD(c) of a channel in LUT mode saturates an entry. -/
def buildSaturates (o : SineOracle) (cfg : SynCfg) : Bool := decide (cfg.mode = 3) && (lutRawTable o cfg).any saturates

/-- The storage after LUT_BUILD(c), if channel c is in LUT mode. -/
def builtMem (o : SineOracle) (cfg : SynCfg) (c : Chan) (m : Memory) : Memory :=
  if cfg.mode = 3 then writeTable c ((lutRawTable o cfg).map lutEntry) m else m

/-- LUT_BUILD writes the channel's table and, when an entry saturated, the error reporting and the trace. -/
theorem buildIfLut_eq (o : SineOracle) (s : State) (c : Chan) :
    buildIfLut o s c = { s with
      mem := builtMem o s.syn[c].cfg c s.mem
      err := if buildSaturates o s.syn[c].cfg then ⟨setSticky .lutSat s.err.sticky, 8⟩ else s.err
      trace := s.trace ++ if buildSaturates o s.syn[c].cfg then [.error .lutSat] else [] } := by
  unfold buildIfLut lutBuild builtMem buildSaturates
  by_cases h : s.syn[c].cfg.mode = 3
  · by_cases h' : (lutRawTable o s.syn[c].cfg).any saturates = true
    · simp only [h, h', if_true, decide_true, Bool.and_true]; rfl
    · rw [Bool.not_eq_true] at h'
      simp only [h, h', if_true, decide_true, Bool.and_false, Bool.false_eq_true, if_false, List.append_nil]
  · simp only [h, if_false, decide_false, Bool.false_and, Bool.false_eq_true, List.append_nil]

/-- The channels of a list whose table saturates. -/
def saturating (o : SineOracle) (syn : Vector SynChannel 16) (cs : List Chan) : List Chan := cs.filter (fun c => buildSaturates o syn[c].cfg)

/-- The builds over a list of channels: every table, and the reports in the list's order. -/
theorem buildIfLut_fold (o : SineOracle) (cs : List Chan) (s : State) :
    cs.foldl (buildIfLut o) s = { s with
      mem := cs.foldl (fun m c => builtMem o s.syn[c].cfg c m) s.mem
      err := if saturating o s.syn cs = [] then s.err else ⟨setSticky .lutSat s.err.sticky, 8⟩
      trace := s.trace ++ (saturating o s.syn cs).map (fun _ => .error .lutSat) } := by
  induction cs generalizing s with
  | nil => simp [saturating]
  | cons c cs ih =>
    rw [List.foldl_cons, ih, buildIfLut_eq]
    by_cases h : buildSaturates o s.syn[c].cfg = true
    · have hs : saturating o s.syn (c :: cs) = c :: saturating o s.syn cs := by
        simp only [saturating, List.filter_cons, h, if_true]
      have hi : setSticky .lutSat (setSticky .lutSat s.err.sticky) = setSticky .lutSat s.err.sticky := by
        simp only [setSticky, BitVec.or_assoc, BitVec.or_self]
      simp only [h, if_true, hs, List.foldl_cons, List.map_cons, List.append_assoc, List.singleton_append, hi, ite_self,
        reduceCtorEq, if_false]
    · have hs : saturating o s.syn (c :: cs) = saturating o s.syn cs := by
        simp only [saturating, List.filter_cons, h, Bool.false_eq_true, if_false]
      simp only [h, hs, List.foldl_cons, Bool.false_eq_true, if_false, List.append_nil]

/-- A table entry as stored reads back as the clamped integer. -/
theorem lutEntry_toInt (t : Int) : (lutEntry t).toInt = clamp t (-32768) 32767 := by
  have := clamp_bounds (v := t) (lo := -32768) (hi := 32767) (by omega)
  unfold lutEntry
  rw [BitVec.toInt_ofInt]
  exact Int.bmod_eq_of_le (by omega) (by omega)

theorem length_lutRawTable (o : SineOracle) (cfg : SynCfg) : (lutRawTable o cfg).length = min cfg.lutN.toNat lutMaxN := by
  simp [lutRawTable]

theorem getElem?_lutRawTable (o : SineOracle) (cfg : SynCfg) (k : Nat) :
    (lutRawTable o cfg)[k]? = if k < min cfg.lutN.toNat lutMaxN then some (lutRaw o cfg k) else none := by
  unfold lutRawTable
  by_cases h : k < min cfg.lutN.toNat lutMaxN
  · rw [if_pos h, List.getElem?_map, List.getElem?_range h]; rfl
  · rw [if_neg h, List.getElem?_eq_none]; rw [List.length_map, List.length_range]; omega

/-- Which tables saturate: LUT mode, and an entry k < N outside 16 bits. -/
theorem buildSaturates_iff (o : SineOracle) (cfg : SynCfg) :
    buildSaturates o cfg = true ↔ cfg.mode = 3 ∧
      ∃ k, k < min cfg.lutN.toNat lutMaxN ∧ (lutRaw o cfg k < -32768 ∨ 32767 < lutRaw o cfg k) := by
  simp only [buildSaturates, Bool.and_eq_true, decide_eq_true_eq, List.any_eq_true, lutRawTable, List.mem_map,
    List.mem_range, saturates]
  constructor
  · rintro ⟨h, x, ⟨k, hk, rfl⟩, hx⟩; exact ⟨h, k, hk, hx⟩
  · rintro ⟨h, k, hk, hx⟩; exact ⟨h, _, ⟨k, hk, rfl⟩, hx⟩

/-- START, as one update. -/
theorem start_eq (o : SineOracle) (once : Bool) (s : State) :
    start o once s = { s with
      run := .running
      cfg := { s.cfg with modOnce := once }
      syn := (start o once s).syn
      mem := (channels s.params.nsyn).foldl (fun m c => builtMem o s.syn[c].cfg c m) s.mem
      err := if saturating o s.syn (channels s.params.nsyn) = [] then s.err
        else ⟨setSticky .lutSat s.err.sticky, 8⟩
      trace := s.trace ++ (saturating o s.syn (channels s.params.nsyn)).map (fun _ => .error .lutSat) } ∧
    ∀ d : Chan, (start o once s).syn[d] =
      if d.val < s.params.nsyn then { s.syn[d] with inc := incrementOf s.syn[d].cfg s.cfg.tickPNs } else s.syn[d] := by
  set s1 : State := { s with cfg := { s.cfg with modOnce := once } } with hs1
  obtain ⟨h1, h2⟩ := latchInc_fold _ (channels_nodup s.params.nsyn) s1
  have hcfg : ∀ c : Chan, ((channels s.params.nsyn).foldl latchInc s1).syn[c].cfg = s.syn[c].cfg := fun c => by
    rw [h2]; split <;> rfl
  have hstart : start o once s =
      { (channels s.params.nsyn).foldl (buildIfLut o) ((channels s.params.nsyn).foldl latchInc s1) with run := .running } :=
    rfl
  have hmem : (channels s.params.nsyn).foldl
      (fun m c => builtMem o ((channels s.params.nsyn).foldl latchInc s1).syn[c].cfg c m) s.mem =
      (channels s.params.nsyn).foldl (fun m c => builtMem o s.syn[c].cfg c m) s.mem := by
    congr 1; funext m c; rw [hcfg]
  have hsat : saturating o ((channels s.params.nsyn).foldl latchInc s1).syn (channels s.params.nsyn) =
      saturating o s.syn (channels s.params.nsyn) := by
    unfold saturating; congr 1; funext c; rw [hcfg]
  have hsyn : (start o once s).syn = ((channels s.params.nsyn).foldl latchInc s1).syn := by
    rw [hstart, buildIfLut_fold]
  refine ⟨?_, fun d => ?_⟩
  · have key : start o once s = { ((channels s.params.nsyn).foldl latchInc s1) with
        run := .running
        mem := (channels s.params.nsyn).foldl (fun m c => builtMem o s.syn[c].cfg c m) s.mem
        err := if saturating o s.syn (channels s.params.nsyn) = [] then s.err
          else ⟨setSticky .lutSat s.err.sticky, 8⟩
        trace := s.trace ++ (saturating o s.syn (channels s.params.nsyn)).map (fun _ => .error .lutSat) } := by
      have hm : ((channels s.params.nsyn).foldl latchInc s1).mem = s.mem := by rw [h1]
      have he : ((channels s.params.nsyn).foldl latchInc s1).err = s.err := by rw [h1]
      have ht : ((channels s.params.nsyn).foldl latchInc s1).trace = s.trace := by rw [h1]
      rw [hstart, buildIfLut_fold, hsat, hm, he, ht, hmem]
    rw [key, h1]
  · rw [hsyn, h2]; simp only [mem_channels]; rfl

/-! ### The tables after START -/

theorem builtMem_wf {o : SineOracle} {cfg : SynCfg} {c : Chan} {m : Memory} (h : m.wf) : (builtMem o cfg c m).wf := by
  unfold builtMem; split
  · exact writeTable_wf h
  · exact h

theorem readBuf_builtMem (o : SineOracle) (cfg : SynCfg) (c a : Chan) (k : Nat) (m : Memory) :
    readBuf (builtMem o cfg c m) a k = readBuf m a k := by
  unfold builtMem; split
  · exact readBuf_writeTable _ _ _ _ _
  · rfl

/-- LUT_BUILD writes only within its channel's window. -/
theorem readByte_builtMem_of_outside {o : SineOracle} {cfg : SynCfg} {c : Chan} {b : Nat} {m : Memory}
    (h : cfg.mode = 3 → b < lutAddr c 0 ∨ lutAddr c lutMaxN ≤ b) : readByte (builtMem o cfg c m) b = readByte m b := by
  unfold builtMem; split
  · rename_i hm; exact readByte_writeTable_of_outside _ _ (h hm)
  · rfl

/-- One table after LUT_BUILD of one channel. -/
theorem readLut_builtMem (o : SineOracle) (cfg : SynCfg) (c d : Chan) (k : Nat) (m : Memory) :
    readLut (builtMem o cfg c m) d k =
      if c = d ∧ cfg.mode = 3 then
        if k < min cfg.lutN.toNat lutMaxN then clamp (lutRaw o cfg k) (-32768) 32767 else 0
      else readLut m d k := by
  unfold builtMem
  by_cases h : cfg.mode = 3
  · rw [if_pos h, readLut_writeTable _ _ _ _ _ (by rw [List.length_map, length_lutRawTable]; exact min_le_right _ _)]
    by_cases hcd : c = d
    · subst hcd
      simp only [h, and_self, if_true, List.getD_eq_getElem?_getD, List.getElem?_map, getElem?_lutRawTable]
      split
      · simp [lutEntry_toInt]
      · simp
    · simp [hcd]
  · rw [if_neg h, if_neg (fun hc => h hc.2)]

/-- The storage after the builds over a list of distinct channels. -/
theorem builtMem_fold (o : SineOracle) (syn : Vector SynChannel 16) (cs : List Chan) (hcs : cs.Nodup) (m : Memory) :
    (m.wf → (cs.foldl (fun m c => builtMem o syn[c].cfg c m) m).wf) ∧
    (∀ a k, readBuf (cs.foldl (fun m c => builtMem o syn[c].cfg c m) m) a k = readBuf m a k) ∧
    (∀ d k, readLut (cs.foldl (fun m c => builtMem o syn[c].cfg c m) m) d k =
      if d ∈ cs ∧ syn[d].cfg.mode = 3 then
        if k < min syn[d].cfg.lutN.toNat lutMaxN then clamp (lutRaw o syn[d].cfg k) (-32768) 32767 else 0
      else readLut m d k) := by
  induction cs generalizing m with
  | nil => simp
  | cons c cs ih =>
    obtain ⟨hc, hcs⟩ := List.nodup_cons.1 hcs
    obtain ⟨h1, h2, h3⟩ := ih hcs (builtMem o syn[c].cfg c m)
    refine ⟨fun h => h1 (builtMem_wf h), fun a k => ?_, fun d k => ?_⟩
    · rw [List.foldl_cons, h2, readBuf_builtMem]
    · rw [List.foldl_cons, h3, readLut_builtMem]
      by_cases hcd : c = d
      · subst hcd; simp [hc]
      · have : (d ∈ c :: cs) ↔ d ∈ cs := by
          simp only [List.mem_cons, or_iff_right_iff_imp]; exact fun e => absurd e.symm hcd
        simp [hcd, this]

end Sys2Proof.Laws
end

