-- ==== Sys2Proof/Laws/PerInstr.lean ====
section
/-! SUPPORT. What holds of every operation as syntax, one lemma per constructor. -/

namespace Sys2Proof.Laws

/-- The opcode-table row of an operation (30_encoding.md R94). -/
def rowOf : Instr → OpcodeRow
  | .tick => .tick
  | .convDone _ _ => .convDone
  | .hostWr _ _ => .hostWr
  | .hostRd _ => .hostRd
  | .reset => .reset

/-- Every row's mask covers OP. -/
theorem opField_mask : ∀ r ∈ opcodeRows, opField r.mask = 0xF#4 := by decide

/-- Two rows with one OP are one row. -/
theorem row_eq_of_opField : ∀ r ∈ opcodeRows, ∀ q ∈ opcodeRows, opField r.pattern = opField q.pattern → r = q := by decide

/-- A row accepts only words with its own OP. -/
theorem opField_of_accepts {r : OpcodeRow} (hr : r ∈ opcodeRows) {w : EventWord} (h : r.accepts w = true) :
    opField w = opField r.pattern := by
  have hm := opField_mask r hr
  rw [OpcodeRow.accepts, beq_iff_eq] at h
  rw [← h]
  unfold opField at hm ⊢
  rw [BitVec.extractLsb'_and, hm]
  exact (BitVec.and_allOnes (w := 4)).symm

/-- A word that its row accepts is accepted by no other row: the OPs differ. -/
theorem accepts_of_own_row {r q : OpcodeRow} (hr : r ∈ opcodeRows) (hq : q ∈ opcodeRows) {w : EventWord}
    (h : q.accepts w = true) : r.accepts w = decide (r = q) := by
  by_cases hrq : r = q
  · subst hrq; simp [h]
  · rw [decide_eq_false hrq]
    by_contra hc
    exact hrq (row_eq_of_opField r hr q hq
      ((opField_of_accepts hr (by simpa using hc)).symm.trans (opField_of_accepts hq h)))

/-- A row's mask in the layout of its encoding. -/
theorem mask_convDone : OpcodeRow.convDone.mask = 0xF#4 ++ 0#4 ++ BitVec.allOnes 44 ++ 0#12 := by decide
theorem mask_hostWr : OpcodeRow.hostWr.mask = BitVec.allOnes 4 ++ BitVec.allOnes 8 ++ 0#20 ++ 0#32 := by decide
theorem mask_hostRd : OpcodeRow.hostRd.mask = BitVec.allOnes 4 ++ BitVec.allOnes 8 ++ 0#20 ++ BitVec.allOnes 32 := by
  decide

end Sys2Proof.Laws

namespace Sys2Proof.Laws.EncodeFits

/-- The operation's word belongs to its own row of the opcode table, and to no other row. -/
def Statement (i : Instr) : Prop := ∀ r ∈ opcodeRows, r.accepts (encode i) = decide (r = rowOf i)

/-- TICK's word (R95). -/
theorem tick : Statement .tick := by unfold Statement; decide

/-- CONV_DONE's words (R96). -/
theorem convDone (ch : BitVec 4) (sample : BitVec 12) : Statement (.convDone ch sample) := fun r hr =>
  accepts_of_own_row hr (by simp [rowOf, opcodeRows]) (by
    simp only [rowOf, OpcodeRow.accepts, beq_iff_eq]
    rw [mask_convDone, encode, BitVec.and_append, BitVec.and_append, BitVec.and_append, BitVec.and_zero,
      BitVec.and_zero, BitVec.zero_and]
    decide)

/-- HOST_WR's words (R98). -/
theorem hostWr (addr : HAddr) (data : Word) : Statement (.hostWr addr data) := fun r hr =>
  accepts_of_own_row hr (by simp [rowOf, opcodeRows]) (by
    simp only [rowOf, OpcodeRow.accepts, beq_iff_eq]
    rw [mask_hostWr, encode, BitVec.and_append, BitVec.and_append, BitVec.and_append, BitVec.and_zero,
      BitVec.and_zero, BitVec.and_allOnes, BitVec.and_allOnes]
    decide)

/-- HOST_RD's words (R99). -/
theorem hostRd (addr : HAddr) : Statement (.hostRd addr) := fun r hr =>
  accepts_of_own_row hr (by simp [rowOf, opcodeRows]) (by
    simp only [rowOf, OpcodeRow.accepts, beq_iff_eq]
    rw [mask_hostRd, encode, BitVec.and_append, BitVec.and_append, BitVec.and_append, BitVec.and_zero,
      BitVec.and_allOnes, BitVec.and_allOnes, BitVec.zero_and]
    decide)

/-- RESET's word (R100). -/
theorem reset : Statement .reset := by unfold Statement; decide

end Sys2Proof.Laws.EncodeFits
end

