-- ==== Sys2Proof/Laws/Services.lean ====
section
/-! SUPPORT. What each service step, and each part of the tick, can do: one equation per operation. -/

namespace Sys2Proof.Laws

open Sys2Proof.Machine

/-! ## Parts of the tick -/

/-- The trace events of LIVE_STEP. -/
def liveEvents (s : State) : List OutEvent :=
  if s.cfg.liveDiv ≠ 0 ∧ s.cfg.liveDiv.toNat ≤ s.tick.liveSub + 1 then [.live (!s.tick.liveLevel)] else []

/-- LIVE_STEP writes the liveness counter and level, and appends its event. -/
theorem liveStep_eq (s : State) :
    liveStep s = { s with
      tick := { s.tick with
        liveSub := if s.cfg.liveDiv = 0 then s.tick.liveSub
          else if s.cfg.liveDiv.toNat ≤ s.tick.liveSub + 1 then 0 else s.tick.liveSub + 1
        liveLevel := if s.cfg.liveDiv ≠ 0 ∧ s.cfg.liveDiv.toNat ≤ s.tick.liveSub + 1 then !s.tick.liveLevel
          else s.tick.liveLevel }
      trace := s.trace ++ liveEvents s } := by
  unfold liveStep liveEvents
  by_cases h : s.cfg.liveDiv = 0
  · simp only [h, ne_eq, not_true, false_and, if_true, if_false, List.append_nil]
  · by_cases h' : s.cfg.liveDiv.toNat ≤ s.tick.liveSub + 1 <;>
      simp only [h, h', ne_eq, not_false_eq_true, true_and, if_true, if_false, emit, List.append_nil]

/-- The trace events of TRIG_STEP. -/
def trigEvents (s : State) : List OutEvent :=
  if s.cfg.trigDiv ≠ 0 ∧ s.cfg.trigDiv.toNat ≤ s.tick.trigSub + 1 then [.convStart] else []

/-- TRIG_STEP writes the trigger counters, and appends its event. -/
theorem trigStep_eq (s : State) :
    trigStep s = { s with
      tick := { s.tick with
        trigSub := if s.cfg.trigDiv = 0 then s.tick.trigSub
          else if s.cfg.trigDiv.toNat ≤ s.tick.trigSub + 1 then 0 else s.tick.trigSub + 1
        trigCnt := if s.cfg.trigDiv ≠ 0 ∧ s.cfg.trigDiv.toNat ≤ s.tick.trigSub + 1 then s.tick.trigCnt + 1
          else s.tick.trigCnt }
      trace := s.trace ++ trigEvents s } := by
  unfold trigStep trigEvents
  by_cases h : s.cfg.trigDiv = 0
  · simp only [h, ne_eq, not_true, false_and, if_true, if_false, List.append_nil]
  · by_cases h' : s.cfg.trigDiv.toNat ≤ s.tick.trigSub + 1 <;>
      simp only [h, h', ne_eq, not_false_eq_true, true_and, if_true, if_false, emit, List.append_nil]

/-- MOD_CHECK applies the scheduler in this state. -/
def modApplies (s : State) : Bool :=
  inWindow s && decide (s.cfg.modOnce = false ∨ s.pwm.lastWin ≠ some (windowIndex s))

/-- The trace events of MOD_CHECK. -/
def modEvents (s : State) : List OutEvent :=
  if modApplies s then
    [.pwmApply s.cfg.modGeom (modPeriodOf s.cfg) (modCompareOf s.cfg) (modCompareBOf s.cfg) (modPhaseOf s.cfg)]
  else []

/-- MOD_CHECK writes the modulation results, MOD_APPLY_CNT and LASTWIN, and appends its event. -/
theorem modCheck_eq (s : State) :
    modCheck s = { s with pwm := (modCheck s).pwm, trace := s.trace ++ modEvents s } := by
  unfold modCheck modEvents modApplies
  by_cases h : inWindow s
  · by_cases h' : s.cfg.modOnce = false ∨ s.pwm.lastWin ≠ some (windowIndex s) <;> simp [h, h', modApply, emit]
  · simp [h]

/-- What MOD_CHECK leaves in the modulation results. -/
theorem modCheck_pwm (s : State) :
    (modCheck s).pwm =
      if modApplies s then
        { period := wrap32 (modPeriodOf s.cfg), cmpA := wrap32 (modCompareOf s.cfg), cmpB := wrap32 (modCompareBOf s.cfg),
          phs := wrap32 (modPhaseOf s.cfg), applyCnt := s.pwm.applyCnt + 1, lastWin := some (windowIndex s) }
      else if inWindow s then { s.pwm with lastWin := some (windowIndex s) } else s.pwm := by
  unfold modCheck modApplies
  by_cases h : inWindow s
  · by_cases h' : s.cfg.modOnce = false ∨ s.pwm.lastWin ≠ some (windowIndex s) <;> simp [h, h', modApply, emit]
  · simp [h]

/-- MOD_CHECK reads only the configuration, ELAPSED and its own results (42_modulation.md R160, R176). -/
theorem modCheck_congr {s t : State} (h1 : s.cfg = t.cfg) (h2 : s.tick = t.tick) (h3 : s.pwm = t.pwm) :
    (modCheck s).pwm = (modCheck t).pwm ∧ modEvents s = modEvents t := by
  rw [modCheck_pwm, modCheck_pwm]
  cases s; cases t; simp only at h1 h2 h3; subst h1 h2 h3; exact ⟨rfl, rfl⟩

theorem liveStep_trace (s : State) : (liveStep s).trace = s.trace ++ liveEvents s := by rw [liveStep_eq]

theorem trigStep_trace (s : State) : (trigStep s).trace = s.trace ++ trigEvents s := by rw [trigStep_eq]

theorem modCheck_trace (s : State) : (modCheck s).trace = s.trace ++ modEvents s := by rw [modCheck_eq]

/-! ## The channels -/

/-- A channel after step (a) of the tick, from the tables and ELAPSED before it. -/
def tickedChannel (o : SineOracle) (m : Memory) (elapsed : Nat) (c : Chan) (ch : SynChannel) : SynChannel :=
  if ch.cfg.mode = 0 then ch
  else
    let r := synStep o m elapsed c ch
    { ch with phase := r.phase, index := r.index, out := r.out }

@[simp] theorem tickedChannel_cfg (o : SineOracle) (m : Memory) (e : Nat) (c : Chan) (ch : SynChannel) :
    (tickedChannel o m e c ch).cfg = ch.cfg := by
  unfold tickedChannel; split <;> rfl

@[simp] theorem tickedChannel_inc (o : SineOracle) (m : Memory) (e : Nat) (c : Chan) (ch : SynChannel) :
    (tickedChannel o m e c ch).inc = ch.inc := by
  unfold tickedChannel; split <;> rfl

/-- The SINK events of a channel in step (a). -/
def sinkEvents (o : SineOracle) (m : Memory) (elapsed : Nat) (c : Chan) (ch : SynChannel) : List OutEvent :=
  if ch.cfg.mode = 0 then [] else [.sink c (tickedChannel o m elapsed c ch).out]

/-- One channel of step (a). -/
theorem updateChannel_eq (o : SineOracle) (s : State) (c : Chan) :
    updateChannel o s c = { s with
      syn := s.syn.set c (tickedChannel o s.mem s.tick.elapsed c s.syn[c])
      trace := s.trace ++ sinkEvents o s.mem s.tick.elapsed c s.syn[c] } := by
  unfold updateChannel tickedChannel sinkEvents
  by_cases h : s.syn[c].cfg.mode = 0
  · have : s.syn.set c s.syn[c] = s.syn := chan_ext fun d => by
      rw [chan_get_set]; split
      · rename_i hcd; rw [hcd]
      · rfl
    simp only [h, if_true, List.append_nil, this]
  · simp only [h, if_false]
    simp only [emit, setSyn]
    unfold tickedChannel
    simp only [h, if_false]

/-- A list of distinct channels of step (a): each is stepped from its own state, the others stay. -/
theorem updateChannels_fold (o : SineOracle) (cs : List Chan) (hcs : cs.Nodup) (s : State) :
    cs.foldl (updateChannel o) s = { s with
      syn := (cs.foldl (updateChannel o) s).syn
      trace := s.trace ++ cs.flatMap (fun c => sinkEvents o s.mem s.tick.elapsed c s.syn[c]) } ∧
    ∀ d : Chan, (cs.foldl (updateChannel o) s).syn[d] =
      if d ∈ cs then tickedChannel o s.mem s.tick.elapsed d s.syn[d] else s.syn[d] := by
  induction cs generalizing s with
  | nil => simp
  | cons c cs ih =>
    obtain ⟨hc, hcs⟩ := List.nodup_cons.1 hcs
    obtain ⟨h1, h2⟩ := ih hcs (updateChannel o s c)
    have hother : ∀ d : Chan, (updateChannel o s c).syn[d] =
        if c = d then tickedChannel o s.mem s.tick.elapsed c s.syn[c] else s.syn[d] := fun d => by
      rw [updateChannel_eq]; exact chan_get_set _ _ _ _
    have hmem : (updateChannel o s c).mem = s.mem := by rw [updateChannel_eq]
    have htick : (updateChannel o s c).tick = s.tick := by rw [updateChannel_eq]
    refine ⟨?_, fun d => ?_⟩
    · rw [List.foldl_cons, h1]
      have hev : cs.flatMap (fun c' => sinkEvents o (updateChannel o s c).mem (updateChannel o s c).tick.elapsed c'
            (updateChannel o s c).syn[c']) =
          cs.flatMap (fun c' => sinkEvents o s.mem s.tick.elapsed c' s.syn[c']) := by
        refine List.flatMap_congr fun c' hc' => ?_
        rw [hother, if_neg (by rintro rfl; exact hc hc'), hmem, htick]
      rw [hev]
      rw [updateChannel_eq]
      simp [List.append_assoc]
    · rw [List.foldl_cons, h2, hother, hmem, htick]
      by_cases hd : d ∈ cs
      · rw [if_pos hd, if_pos (List.mem_cons_of_mem _ hd), if_neg (by rintro rfl; exact hc hd)]
      · rw [if_neg hd]
        by_cases hcd : c = d
        · subst hcd; rw [if_pos rfl, if_pos List.mem_cons_self]
        · rw [if_neg hcd, if_neg (by simp only [List.mem_cons, not_or]; exact ⟨fun e => hcd e.symm, hd⟩)]

/-- Step (a) of the tick writes the synthesis channels and appends SINK events, and nothing else. -/
theorem updateChannels_eq (o : SineOracle) (s : State) :
    updateChannels o s = { s with
      syn := (updateChannels o s).syn
      trace := s.trace ++ (channels s.params.nsyn).flatMap (fun c => sinkEvents o s.mem s.tick.elapsed c s.syn[c]) } :=
  (updateChannels_fold o _ (channels_nodup _) s).1

/-- Each channel below NSYN is stepped from its own state and the others stay. -/
theorem updateChannels_syn (o : SineOracle) (s : State) (d : Chan) :
    (updateChannels o s).syn[d] =
      if d.val < s.params.nsyn then tickedChannel o s.mem s.tick.elapsed d s.syn[d] else s.syn[d] := by
  have h := (updateChannels_fold o _ (channels_nodup s.params.nsyn) s).2 d
  simp only [mem_channels] at h
  exact h


/-! ## The fields that each part keeps -/

@[simp] theorem updateChannels_params (o : SineOracle) (s : State) : (updateChannels o s).params = s.params := by rw [updateChannels_eq]
@[simp] theorem updateChannels_turns (o : SineOracle) (s : State) : (updateChannels o s).turns = s.turns := by rw [updateChannels_eq]
@[simp] theorem updateChannels_run (o : SineOracle) (s : State) : (updateChannels o s).run = s.run := by rw [updateChannels_eq]
@[simp] theorem updateChannels_err (o : SineOracle) (s : State) : (updateChannels o s).err = s.err := by rw [updateChannels_eq]
@[simp] theorem updateChannels_cfg (o : SineOracle) (s : State) : (updateChannels o s).cfg = s.cfg := by rw [updateChannels_eq]
@[simp] theorem updateChannels_tick (o : SineOracle) (s : State) : (updateChannels o s).tick = s.tick := by rw [updateChannels_eq]
@[simp] theorem updateChannels_tickPend (o : SineOracle) (s : State) : (updateChannels o s).tickPend = s.tickPend := by rw [updateChannels_eq]
@[simp] theorem updateChannels_dlmissCnt (o : SineOracle) (s : State) : (updateChannels o s).dlmissCnt = s.dlmissCnt := by rw [updateChannels_eq]
@[simp] theorem updateChannels_snap (o : SineOracle) (s : State) : (updateChannels o s).snap = s.snap := by rw [updateChannels_eq]
@[simp] theorem updateChannels_pwm (o : SineOracle) (s : State) : (updateChannels o s).pwm = s.pwm := by rw [updateChannels_eq]
@[simp] theorem updateChannels_acq (o : SineOracle) (s : State) : (updateChannels o s).acq = s.acq := by rw [updateChannels_eq]
@[simp] theorem updateChannels_mem (o : SineOracle) (s : State) : (updateChannels o s).mem = s.mem := by rw [updateChannels_eq]

@[simp] theorem advanceTime_params (s : State) : (advanceTime s).params = s.params := rfl
@[simp] theorem advanceTime_turns (s : State) : (advanceTime s).turns = s.turns := rfl
@[simp] theorem advanceTime_trace (s : State) : (advanceTime s).trace = s.trace := rfl
@[simp] theorem advanceTime_run (s : State) : (advanceTime s).run = s.run := rfl
@[simp] theorem advanceTime_err (s : State) : (advanceTime s).err = s.err := rfl
@[simp] theorem advanceTime_cfg (s : State) : (advanceTime s).cfg = s.cfg := rfl
@[simp] theorem advanceTime_tickPend (s : State) : (advanceTime s).tickPend = s.tickPend := rfl
@[simp] theorem advanceTime_dlmissCnt (s : State) : (advanceTime s).dlmissCnt = s.dlmissCnt := rfl
@[simp] theorem advanceTime_snap (s : State) : (advanceTime s).snap = s.snap := rfl
@[simp] theorem advanceTime_pwm (s : State) : (advanceTime s).pwm = s.pwm := rfl
@[simp] theorem advanceTime_syn (s : State) : (advanceTime s).syn = s.syn := rfl
@[simp] theorem advanceTime_acq (s : State) : (advanceTime s).acq = s.acq := rfl
@[simp] theorem advanceTime_mem (s : State) : (advanceTime s).mem = s.mem := rfl

@[simp] theorem modCheck_params (s : State) : (modCheck s).params = s.params := by rw [modCheck_eq]
@[simp] theorem modCheck_turns (s : State) : (modCheck s).turns = s.turns := by rw [modCheck_eq]
@[simp] theorem modCheck_run (s : State) : (modCheck s).run = s.run := by rw [modCheck_eq]
@[simp] theorem modCheck_err (s : State) : (modCheck s).err = s.err := by rw [modCheck_eq]
@[simp] theorem modCheck_cfg (s : State) : (modCheck s).cfg = s.cfg := by rw [modCheck_eq]
@[simp] theorem modCheck_tick (s : State) : (modCheck s).tick = s.tick := by rw [modCheck_eq]
@[simp] theorem modCheck_tickPend (s : State) : (modCheck s).tickPend = s.tickPend := by rw [modCheck_eq]
@[simp] theorem modCheck_dlmissCnt (s : State) : (modCheck s).dlmissCnt = s.dlmissCnt := by rw [modCheck_eq]
@[simp] theorem modCheck_snap (s : State) : (modCheck s).snap = s.snap := by rw [modCheck_eq]
@[simp] theorem modCheck_syn (s : State) : (modCheck s).syn = s.syn := by rw [modCheck_eq]
@[simp] theorem modCheck_acq (s : State) : (modCheck s).acq = s.acq := by rw [modCheck_eq]
@[simp] theorem modCheck_mem (s : State) : (modCheck s).mem = s.mem := by rw [modCheck_eq]

@[simp] theorem liveStep_params (s : State) : (liveStep s).params = s.params := by rw [liveStep_eq]
@[simp] theorem liveStep_turns (s : State) : (liveStep s).turns = s.turns := by rw [liveStep_eq]
@[simp] theorem liveStep_run (s : State) : (liveStep s).run = s.run := by rw [liveStep_eq]
@[simp] theorem liveStep_err (s : State) : (liveStep s).err = s.err := by rw [liveStep_eq]
@[simp] theorem liveStep_cfg (s : State) : (liveStep s).cfg = s.cfg := by rw [liveStep_eq]
@[simp] theorem liveStep_tickPend (s : State) : (liveStep s).tickPend = s.tickPend := by rw [liveStep_eq]
@[simp] theorem liveStep_dlmissCnt (s : State) : (liveStep s).dlmissCnt = s.dlmissCnt := by rw [liveStep_eq]
@[simp] theorem liveStep_snap (s : State) : (liveStep s).snap = s.snap := by rw [liveStep_eq]
@[simp] theorem liveStep_pwm (s : State) : (liveStep s).pwm = s.pwm := by rw [liveStep_eq]
@[simp] theorem liveStep_syn (s : State) : (liveStep s).syn = s.syn := by rw [liveStep_eq]
@[simp] theorem liveStep_acq (s : State) : (liveStep s).acq = s.acq := by rw [liveStep_eq]
@[simp] theorem liveStep_mem (s : State) : (liveStep s).mem = s.mem := by rw [liveStep_eq]

@[simp] theorem trigStep_params (s : State) : (trigStep s).params = s.params := by rw [trigStep_eq]
@[simp] theorem trigStep_turns (s : State) : (trigStep s).turns = s.turns := by rw [trigStep_eq]
@[simp] theorem trigStep_run (s : State) : (trigStep s).run = s.run := by rw [trigStep_eq]
@[simp] theorem trigStep_err (s : State) : (trigStep s).err = s.err := by rw [trigStep_eq]
@[simp] theorem trigStep_cfg (s : State) : (trigStep s).cfg = s.cfg := by rw [trigStep_eq]
@[simp] theorem trigStep_tickPend (s : State) : (trigStep s).tickPend = s.tickPend := by rw [trigStep_eq]
@[simp] theorem trigStep_dlmissCnt (s : State) : (trigStep s).dlmissCnt = s.dlmissCnt := by rw [trigStep_eq]
@[simp] theorem trigStep_snap (s : State) : (trigStep s).snap = s.snap := by rw [trigStep_eq]
@[simp] theorem trigStep_pwm (s : State) : (trigStep s).pwm = s.pwm := by rw [trigStep_eq]
@[simp] theorem trigStep_syn (s : State) : (trigStep s).syn = s.syn := by rw [trigStep_eq]
@[simp] theorem trigStep_acq (s : State) : (trigStep s).acq = s.acq := by rw [trigStep_eq]
@[simp] theorem trigStep_mem (s : State) : (trigStep s).mem = s.mem := by rw [trigStep_eq]

/-! ## The two services -/

@[simp] theorem clearTickPend_params (s : State) : (clearTickPend s).params = s.params := rfl
@[simp] theorem clearTickPend_turns (s : State) : (clearTickPend s).turns = s.turns := rfl
@[simp] theorem clearTickPend_trace (s : State) : (clearTickPend s).trace = s.trace := rfl
@[simp] theorem clearTickPend_run (s : State) : (clearTickPend s).run = s.run := rfl
@[simp] theorem clearTickPend_err (s : State) : (clearTickPend s).err = s.err := rfl
@[simp] theorem clearTickPend_cfg (s : State) : (clearTickPend s).cfg = s.cfg := rfl
@[simp] theorem clearTickPend_tick (s : State) : (clearTickPend s).tick = s.tick := rfl
@[simp] theorem clearTickPend_tickPend (s : State) : (clearTickPend s).tickPend = false := rfl
@[simp] theorem clearTickPend_dlmissCnt (s : State) : (clearTickPend s).dlmissCnt = s.dlmissCnt := rfl
@[simp] theorem clearTickPend_snap (s : State) : (clearTickPend s).snap = s.snap := rfl
@[simp] theorem clearTickPend_pwm (s : State) : (clearTickPend s).pwm = s.pwm := rfl
@[simp] theorem clearTickPend_syn (s : State) : (clearTickPend s).syn = s.syn := rfl
@[simp] theorem clearTickPend_acq (s : State) : (clearTickPend s).acq = s.acq := rfl
@[simp] theorem clearTickPend_mem (s : State) : (clearTickPend s).mem = s.mem := rfl

@[simp] theorem tickServiceWith_params (o : SineOracle) (s : State) : (tickServiceWith o s).params = s.params := by
  rw [tickServiceWith, clearTickPend_params, trigStep_params, liveStep_params, modCheck_params, advanceTime_params, updateChannels_params]
@[simp] theorem tickServiceWith_turns (o : SineOracle) (s : State) : (tickServiceWith o s).turns = s.turns := by
  rw [tickServiceWith, clearTickPend_turns, trigStep_turns, liveStep_turns, modCheck_turns, advanceTime_turns, updateChannels_turns]
@[simp] theorem tickServiceWith_run (o : SineOracle) (s : State) : (tickServiceWith o s).run = s.run := by
  rw [tickServiceWith, clearTickPend_run, trigStep_run, liveStep_run, modCheck_run, advanceTime_run, updateChannels_run]
@[simp] theorem tickServiceWith_err (o : SineOracle) (s : State) : (tickServiceWith o s).err = s.err := by
  rw [tickServiceWith, clearTickPend_err, trigStep_err, liveStep_err, modCheck_err, advanceTime_err, updateChannels_err]
@[simp] theorem tickServiceWith_cfg (o : SineOracle) (s : State) : (tickServiceWith o s).cfg = s.cfg := by
  rw [tickServiceWith, clearTickPend_cfg, trigStep_cfg, liveStep_cfg, modCheck_cfg, advanceTime_cfg, updateChannels_cfg]
@[simp] theorem tickServiceWith_dlmissCnt (o : SineOracle) (s : State) : (tickServiceWith o s).dlmissCnt = s.dlmissCnt := by
  rw [tickServiceWith, clearTickPend_dlmissCnt, trigStep_dlmissCnt, liveStep_dlmissCnt, modCheck_dlmissCnt, advanceTime_dlmissCnt, updateChannels_dlmissCnt]
@[simp] theorem tickServiceWith_snap (o : SineOracle) (s : State) : (tickServiceWith o s).snap = s.snap := by
  rw [tickServiceWith, clearTickPend_snap, trigStep_snap, liveStep_snap, modCheck_snap, advanceTime_snap, updateChannels_snap]
@[simp] theorem tickServiceWith_acq (o : SineOracle) (s : State) : (tickServiceWith o s).acq = s.acq := by
  rw [tickServiceWith, clearTickPend_acq, trigStep_acq, liveStep_acq, modCheck_acq, advanceTime_acq, updateChannels_acq]
@[simp] theorem tickServiceWith_mem (o : SineOracle) (s : State) : (tickServiceWith o s).mem = s.mem := by
  rw [tickServiceWith, clearTickPend_mem, trigStep_mem, liveStep_mem, modCheck_mem, advanceTime_mem, updateChannels_mem]
@[simp] theorem tickServiceWith_tickPend (o : SineOracle) (s : State) : (tickServiceWith o s).tickPend = false := by
  rw [tickServiceWith, clearTickPend_tickPend]

/-- A state that differs from another at most in the tick, the latch, the modulation results, the channels and the trace. -/
theorem state_frame_tick {s t : State} (h0 : t.params = s.params) (h1 : t.turns = s.turns) (h2 : t.run = s.run)
    (h3 : t.err = s.err) (h4 : t.cfg = s.cfg) (h5 : t.dlmissCnt = s.dlmissCnt) (h6 : t.snap = s.snap)
    (h7 : t.acq = s.acq) (h8 : t.mem = s.mem) :
    t = { s with tick := t.tick, tickPend := t.tickPend, pwm := t.pwm, syn := t.syn, trace := t.trace } := by
  cases s; cases t; simp only at *; subst_vars; rfl

/-- What TICK_SERVICE writes: the tick's own state, the latch, the channels, the modulation results, the trace. -/
theorem tickServiceWith_frame (o : SineOracle) (s : State) :
    tickServiceWith o s = { s with
      tick := (tickServiceWith o s).tick
      tickPend := (tickServiceWith o s).tickPend
      pwm := (tickServiceWith o s).pwm
      syn := (tickServiceWith o s).syn
      trace := (tickServiceWith o s).trace } :=
  state_frame_tick (tickServiceWith_params o s) (tickServiceWith_turns o s) (tickServiceWith_run o s) (tickServiceWith_err o s)
    (tickServiceWith_cfg o s) (tickServiceWith_dlmissCnt o s) (tickServiceWith_snap o s) (tickServiceWith_acq o s) (tickServiceWith_mem o s)

/-- The synthesis channels after TICK_SERVICE. -/
theorem tickServiceWith_syn (o : SineOracle) (s : State) (d : Chan) :
    (tickServiceWith o s).syn[d] =
      if d.val < s.params.nsyn then tickedChannel o s.mem s.tick.elapsed d s.syn[d] else s.syn[d] := by
  have h : (tickServiceWith o s).syn = (updateChannels o s).syn := by
    rw [tickServiceWith, clearTickPend_syn, trigStep_syn, liveStep_syn, modCheck_syn, advanceTime_syn]
  rw [h, updateChannels_syn]

/-- The tick's own state after LIVE_STEP, and after TRIG_STEP. -/
theorem liveStep_tick (s : State) :
    (liveStep s).tick = { s.tick with
      liveSub := if s.cfg.liveDiv = 0 then s.tick.liveSub
        else if s.cfg.liveDiv.toNat ≤ s.tick.liveSub + 1 then 0 else s.tick.liveSub + 1
      liveLevel := if s.cfg.liveDiv ≠ 0 ∧ s.cfg.liveDiv.toNat ≤ s.tick.liveSub + 1 then !s.tick.liveLevel
        else s.tick.liveLevel } := by rw [liveStep_eq]

theorem trigStep_tick (s : State) :
    (trigStep s).tick = { s.tick with
      trigSub := if s.cfg.trigDiv = 0 then s.tick.trigSub
        else if s.cfg.trigDiv.toNat ≤ s.tick.trigSub + 1 then 0 else s.tick.trigSub + 1
      trigCnt := if s.cfg.trigDiv ≠ 0 ∧ s.cfg.trigDiv.toNat ≤ s.tick.trigSub + 1 then s.tick.trigCnt + 1
        else s.tick.trigCnt } := by rw [trigStep_eq]

/-- The tick's own state after TICK_SERVICE (40_tick_dispatcher.md R113, R117, R118). -/
theorem tickServiceWith_tick (o : SineOracle) (s : State) :
    (tickServiceWith o s).tick =
      { elapsed := s.tick.elapsed + s.cfg.tickPNs.toNat
        tickCnt := s.tick.tickCnt + 1
        trigCnt := if s.cfg.trigDiv ≠ 0 ∧ s.cfg.trigDiv.toNat ≤ s.tick.trigSub + 1 then s.tick.trigCnt + 1
          else s.tick.trigCnt
        liveSub := if s.cfg.liveDiv = 0 then s.tick.liveSub
          else if s.cfg.liveDiv.toNat ≤ s.tick.liveSub + 1 then 0 else s.tick.liveSub + 1
        liveLevel := if s.cfg.liveDiv ≠ 0 ∧ s.cfg.liveDiv.toNat ≤ s.tick.liveSub + 1 then !s.tick.liveLevel
          else s.tick.liveLevel
        trigSub := if s.cfg.trigDiv = 0 then s.tick.trigSub
          else if s.cfg.trigDiv.toNat ≤ s.tick.trigSub + 1 then 0 else s.tick.trigSub + 1 } := by
  have h : (advanceTime (updateChannels o s)).tick =
      { s.tick with elapsed := s.tick.elapsed + s.cfg.tickPNs.toNat, tickCnt := s.tick.tickCnt + 1 } := by
    rw [advanceTime, updateChannels_tick, updateChannels_cfg]
  rw [tickServiceWith, clearTickPend_tick, trigStep_tick, liveStep_tick, liveStep_cfg, modCheck_tick, modCheck_cfg,
    advanceTime_cfg, updateChannels_cfg, h]

/-- The trace after TICK_SERVICE: SINK events in ascending channel order, then PWM_APPLY, LIVE, CONV_START
(40_tick_dispatcher.md R113, R114). MOD_CHECK sees ELAPSED after its advance. -/
theorem tickServiceWith_trace (o : SineOracle) (s : State) :
    (tickServiceWith o s).trace =
      s.trace ++ (channels s.params.nsyn).flatMap (fun c => sinkEvents o s.mem s.tick.elapsed c s.syn[c]) ++
        modEvents (advanceTime s) ++ liveEvents s ++ trigEvents s := by
  have hu : (updateChannels o s).trace =
      s.trace ++ (channels s.params.nsyn).flatMap (fun c => sinkEvents o s.mem s.tick.elapsed c s.syn[c]) := by
    rw [updateChannels_eq]
  have hm : modEvents (advanceTime (updateChannels o s)) = modEvents (advanceTime s) :=
    (modCheck_congr (by simp only [advanceTime, updateChannels_cfg])
      (by simp only [advanceTime, updateChannels_tick, updateChannels_cfg])
      (by simp only [advanceTime, updateChannels_pwm])).2
  have hl : liveEvents (modCheck (advanceTime (updateChannels o s))) = liveEvents s := by
    simp only [liveEvents, modCheck_cfg, modCheck_tick, advanceTime, updateChannels_cfg, updateChannels_tick]
  have ht : trigEvents (liveStep (modCheck (advanceTime (updateChannels o s)))) = trigEvents s := by
    simp only [trigEvents, liveStep_cfg, liveStep_tick, modCheck_cfg, modCheck_tick, advanceTime, updateChannels_cfg,
      updateChannels_tick]
  have ha : (advanceTime (updateChannels o s)).trace = (updateChannels o s).trace := rfl
  rw [tickServiceWith, clearTickPend_trace, trigStep_trace, ht, liveStep_trace, hl, modCheck_trace, hm, ha, hu]

/-- The modulation results after TICK_SERVICE are those of MOD_CHECK after the advance of ELAPSED. -/
theorem tickServiceWith_pwm (o : SineOracle) (s : State) : (tickServiceWith o s).pwm = (modCheck (advanceTime s)).pwm := by
  rw [tickServiceWith, clearTickPend_pwm, trigStep_pwm, liveStep_pwm]
  exact (modCheck_congr (by simp only [advanceTime, updateChannels_cfg])
    (by simp only [advanceTime, updateChannels_tick, updateChannels_cfg])
    (by simp only [advanceTime, updateChannels_pwm])).1

/-! ### TICK_SERVICE with the parameters' sine -/

@[simp] theorem tickService_params (s : State) : (tickService s).params = s.params := tickServiceWith_params _ s
@[simp] theorem tickService_turns (s : State) : (tickService s).turns = s.turns := tickServiceWith_turns _ s
@[simp] theorem tickService_run (s : State) : (tickService s).run = s.run := tickServiceWith_run _ s
@[simp] theorem tickService_err (s : State) : (tickService s).err = s.err := tickServiceWith_err _ s
@[simp] theorem tickService_cfg (s : State) : (tickService s).cfg = s.cfg := tickServiceWith_cfg _ s
@[simp] theorem tickService_dlmissCnt (s : State) : (tickService s).dlmissCnt = s.dlmissCnt := tickServiceWith_dlmissCnt _ s
@[simp] theorem tickService_snap (s : State) : (tickService s).snap = s.snap := tickServiceWith_snap _ s
@[simp] theorem tickService_acq (s : State) : (tickService s).acq = s.acq := tickServiceWith_acq _ s
@[simp] theorem tickService_mem (s : State) : (tickService s).mem = s.mem := tickServiceWith_mem _ s
@[simp] theorem tickService_tickPend (s : State) : (tickService s).tickPend = false := tickServiceWith_tickPend _ s

/-- What TICK_SERVICE writes. -/
theorem tickService_frame (s : State) :
    tickService s = { s with
      tick := (tickService s).tick
      tickPend := (tickService s).tickPend
      pwm := (tickService s).pwm
      syn := (tickService s).syn
      trace := (tickService s).trace } := tickServiceWith_frame _ s

/-- The synthesis channels after TICK_SERVICE. -/
theorem tickService_syn (s : State) (d : Chan) :
    (tickService s).syn[d] =
      if d.val < s.params.nsyn then tickedChannel s.params.sine s.mem s.tick.elapsed d s.syn[d] else s.syn[d] :=
  tickServiceWith_syn _ s d

/-- The tick's own state after TICK_SERVICE does not depend on the sine. -/
theorem tickService_tick (o : SineOracle) (s : State) : (tickService s).tick = (tickServiceWith o s).tick := by
  rw [tickService, tickServiceWith_tick, tickServiceWith_tick]

/-- The trace after TICK_SERVICE. -/
theorem tickService_trace (s : State) :
    (tickService s).trace =
      s.trace ++ (channels s.params.nsyn).flatMap (fun c => sinkEvents s.params.sine s.mem s.tick.elapsed c s.syn[c]) ++
        modEvents (advanceTime s) ++ liveEvents s ++ trigEvents s := tickServiceWith_trace _ s

/-- The modulation results after TICK_SERVICE. -/
theorem tickService_pwm (s : State) : (tickService s).pwm = (modCheck (advanceTime s)).pwm := tickServiceWith_pwm _ s

/-- What ACQ_SERVICE(a) writes: its channel's index, counter and latch, and its buffer. -/
theorem acqService_frame (a : Chan) (s : State) :
    acqService a s = { s with acq := (acqService a s).acq, mem := writeBuf a s.acq[a].widx s.acq[a].res s.mem } := rfl

/-- The acquisition channels after ACQ_SERVICE(a). -/
theorem acqService_acq (a d : Chan) (s : State) :
    (acqService a s).acq[d] =
      if a = d then
        { s.acq[a] with widx := nextWidx s.acq[a].cfg.cap.toNat s.acq[a].widx, cnt := s.acq[a].cnt + 1, pend := false }
      else s.acq[d] := chan_get_set _ _ _ _

/-- The bound of both output mappings (41_synthesizer.md R139). -/
theorem toOutput_le (cfg : SynCfg) (z : Int) : toOutput cfg z ≤ cfg.outmax.toNat := by
  have := clamp_bounds (v := z + sext32 cfg.offset) (lo := 0) (hi := cfg.outmax.toNat) (by omega)
  unfold toOutput; omega

/-! ## One step -/

/-- What the block does when no turn is left: TICK_SERVICE, or one ACQ_SERVICE, or nothing. -/
theorem drainStepBy_cases (tick : State → State) (s : State) :
    (tickEnabled s ∧ drainStepBy tick s = tick s) ∨
    (tickEnabled s = false ∧ ∃ a, acqEnabled s a ∧ drainStepBy tick s = acqService a s) ∨
    (tickEnabled s = false ∧ (∀ a, a.val < s.params.nacq → acqEnabled s a = false) ∧ drainStepBy tick s = s) := by
  unfold drainStepBy
  by_cases ht : tickEnabled s
  · simp [ht]
  · simp only [ht, Bool.false_eq_true, if_false]
    cases hf : (channels s.params.nacq).find? (acqEnabled s) with
    | some a => exact .inr (.inl ⟨by simp, a, List.find?_some hf, rfl⟩)
    | none =>
      refine .inr (.inr ⟨by simp, fun a ha => ?_, rfl⟩)
      simpa using List.find?_eq_none.1 hf a (mem_channels.2 ha)

/-- The drain reads its TICK_SERVICE at the one state it runs on. -/
theorem drainStepBy_congr {tick tick' : State → State} {s : State} (h : tick s = tick' s) :
    drainStepBy tick s = drainStepBy tick' s := by
  simp only [drainStepBy, h]

/-- The drain of the block. -/
theorem drainStep_cases (s : State) :
    (tickEnabled s ∧ drainStep s = tickService s) ∨
    (tickEnabled s = false ∧ ∃ a, acqEnabled s a ∧ drainStep s = acqService a s) ∨
    (tickEnabled s = false ∧ (∀ a, a.val < s.params.nacq → acqEnabled s a = false) ∧ drainStep s = s) :=
  drainStepBy_cases tickService s

end Sys2Proof.Laws
end

