-- ==== Sys2Proof/Laws/Step.lean ====
section
/-! SUPPORT. The step as a total function, and what each event word can do: the forms that later proofs cite. -/

namespace Sys2Proof.Laws

open Sys2Proof.Machine

/-! ## Every step answers a next state -/

/-- The state after an operation, with the sine oracle given. -/
def eventResultWith (o : SineOracle) : Instr → State → State
  | .tick, s => tickEvent s
  | .convDone ch sample, s => convDoneEvent (chanOf ch) sample s
  | .hostWr addr data, s => hostWriteWith o addr data s
  | .hostRd addr, s => hostRead addr s
  | .reset, s => resetBlock s

/-- The state after an operation. -/
def eventResult (i : Instr) (s : State) : State := eventResultWith s.params.sine i s

theorem execWith_eq (o : SineOracle) (i : Instr) (s : State) : execWith o i s = .next (eventResultWith o i s) := by
  cases i <;> rfl

theorem exec_eq (i : Instr) (s : State) : exec i s = .next (eventResult i s) := by cases i <;> rfl

/-- The state after an event word, from what its operation leaves. -/
def wordResultBy (event : Instr → State → State) (w : EventWord) (s : State) : State :=
  match decode w with
  | .ok i => event i s
  | .error why => malformedWord why s

/-- The state after a turn. -/
def turnResultBy (event : Instr → State → State) (tick : State → State) : Turn → State → State
  | .word w, s => wordResultBy event w s
  | .tickService, s => if tickEnabled s then tick s else s
  | .acqService a, s => if acqEnabled s a then acqService a s else s

/-- The state after a step. -/
def stepResultBy (event : Instr → State → State) (tick : State → State) (s : State) : State :=
  match s.turns with
  | [] => drainStepBy tick s
  | t :: rest => turnResultBy event tick t { s with turns := rest }

section By
variable {run : Meaning} {event : Instr → State → State} (h : ∀ i s, run i s = .next (event i s))
include h

theorem acceptWordBy_eq (w : EventWord) (s : State) : acceptWordBy run w s = .next (wordResultBy event w s) := by
  unfold acceptWordBy wordResultBy
  cases decode w with
  | ok i => exact h i s
  | error why => rfl

theorem nextStepBy_eq (tick : State → State) (s : State) :
    nextStepBy run tick s = .next (stepResultBy event tick s) := by
  unfold nextStepBy stepResultBy
  cases s.turns with
  | nil => rfl
  | cons t rest =>
    cases t with
    | word w => exact acceptWordBy_eq h w _
    | tickService => rfl
    | acqService a => rfl

end By

/-- The state after an event word, with the parameters' sine. -/
def wordResult : EventWord → State → State := wordResultBy eventResult

theorem acceptWord_eq (w : EventWord) (s : State) : acceptWord w s = .next (wordResult w s) :=
  acceptWordBy_eq exec_eq w s

/-- The state after a step, with the parameters' sine. -/
def stepResult : State → State := stepResultBy eventResult tickService

theorem step_eq (s : State) : step s = .next (stepResult s) := nextStepBy_eq exec_eq tickService s

/-- The state after a step, with the sine oracle given. -/
def stepResultWith (o : SineOracle) : State → State := stepResultBy (eventResultWith o) (tickServiceWith o)

theorem stepWith_eq (o : SineOracle) (s : State) : stepWith o s = .next (stepResultWith o s) :=
  nextStepBy_eq (execWith_eq o) (tickServiceWith o) s

/-! ## What each event word can do -/

/-- What TICK can do (40_tick_dispatcher.md R111). -/
theorem tickEvent_cases (s : State) :
    (s.run = .configuring ∧ tickEvent s = s) ∨
    (s.run = .running ∧ s.tickPend = false ∧ tickEvent s = { s with tickPend := true }) ∨
    (s.run = .running ∧ s.tickPend = true ∧ tickEvent s = report .tickMissed { s with dlmissCnt := s.dlmissCnt + 1 }) := by
  unfold tickEvent isRunning
  cases hr : s.run <;> cases hp : s.tickPend <;> simp

/-- What CONV_DONE can do (43_acquisition.md R181). -/
theorem convDoneEvent_cases (a : Chan) (x : BitVec 12) (s : State) :
    (s.params.nacq ≤ a.val ∧ convDoneEvent a x s = report .evChannel s) ∨
    (a.val < s.params.nacq ∧ (s.run = .configuring ∨ s.acq[a].cfg.en = 0) ∧ convDoneEvent a x s = s) ∨
    (a.val < s.params.nacq ∧ s.run = .running ∧ s.acq[a].cfg.en = 1 ∧ s.acq[a].pend = true ∧
      convDoneEvent a x s =
        report .acqOverrun (setAcq a { s.acq[a] with res := x, ovr := s.acq[a].ovr + 1 } s)) ∨
    (a.val < s.params.nacq ∧ s.run = .running ∧ s.acq[a].cfg.en = 1 ∧ s.acq[a].pend = false ∧
      convDoneEvent a x s = setAcq a { s.acq[a] with res := x, pend := true } s) := by
  unfold convDoneEvent
  by_cases h1 : s.params.nacq ≤ a.val
  · exact .inl ⟨h1, by simp [h1]⟩
  · have h1' : a.val < s.params.nacq := by omega
    have hen : s.acq[a].cfg.en = 0 ∨ s.acq[a].cfg.en = 1 := by
      generalize s.acq[a].cfg.en = e; revert e; decide
    simp only [h1, if_false]
    by_cases h2 : isRunning s = false ∨ s.acq[a].cfg.en = 0
    · refine .inr (.inl ⟨h1', ?_, by simp only [h2, if_true]⟩)
      refine h2.imp_left fun h => ?_
      unfold isRunning at h; cases hr : s.run <;> simp_all
    · simp only [not_or, Bool.not_eq_false] at h2
      have hr : s.run = .running := by unfold isRunning at h2; simpa using h2.1
      have he : s.acq[a].cfg.en = 1 := hen.resolve_left h2.2
      have h2' : ¬(isRunning s = false ∨ s.acq[a].cfg.en = 0) := by
        rintro (h | h)
        · rw [h2.1] at h; cases h
        · exact h2.2 h
      simp only [h2', if_false]
      by_cases hp : s.acq[a].pend = true
      · exact .inr (.inr (.inl ⟨h1', hr, he, hp, by simp only [hp, if_true, note_eq]⟩))
      · exact .inr (.inr (.inr ⟨h1', hr, he, by simpa using hp, by simp only [hp, if_false, Bool.false_eq_true]⟩))

/-- No event word changes the parameters. -/
theorem eventResultWith_params (o : SineOracle) (i : Instr) (s : State) : (eventResultWith o i s).params = s.params := by
  cases i with
  | tick => rcases tickEvent_cases s with ⟨_, h⟩ | ⟨_, _, h⟩ | ⟨_, _, h⟩ <;> simp [eventResultWith, h]
  | convDone ch x =>
    rcases convDoneEvent_cases (chanOf ch) x s with ⟨_, h⟩ | ⟨_, _, h⟩ | ⟨_, _, _, _, h⟩ | ⟨_, _, _, _, h⟩ <;>
      simp [eventResultWith, h]
  | hostWr addr d =>
    rcases hostWriteWith_cases o addr d s with ⟨k, _, h⟩ | ⟨_, _, h⟩ | ⟨_, _, _, _, h⟩ | ⟨r, _, _, _, h⟩ <;>
      simp only [eventResultWith, h, refuseAccess_eq, answerAccess, emit_params, writeStatus, writeCfg_params]
    unfold ctrlWrite; split
    · rw [(start_eq _ _ s).1]
    · rfl
  | hostRd addr =>
    rcases hostRead_cases addr s with ⟨k, _, h⟩ | ⟨r, _, _, h⟩ <;>
      simp only [eventResultWith, h, refuseAccess_eq, answerAccess, emit_params, readEffect_eq]
  | reset => rfl

/-- No event word changes the turns that are left. -/
theorem eventResultWith_turns (o : SineOracle) (i : Instr) (s : State) : (eventResultWith o i s).turns = s.turns := by
  cases i with
  | tick => rcases tickEvent_cases s with ⟨_, h⟩ | ⟨_, _, h⟩ | ⟨_, _, h⟩ <;> simp [eventResultWith, h]
  | convDone ch x =>
    rcases convDoneEvent_cases (chanOf ch) x s with ⟨_, h⟩ | ⟨_, _, h⟩ | ⟨_, _, _, _, h⟩ | ⟨_, _, _, _, h⟩ <;>
      simp [eventResultWith, h]
  | hostWr addr d =>
    rcases hostWriteWith_cases o addr d s with ⟨k, _, h⟩ | ⟨_, _, h⟩ | ⟨_, _, _, _, h⟩ | ⟨r, _, _, _, h⟩ <;>
      simp only [eventResultWith, h, refuseAccess_eq, answerAccess, emit_turns, writeStatus, writeCfg_turns]
    unfold ctrlWrite; split
    · rw [(start_eq _ _ s).1]
    · rfl
  | hostRd addr =>
    rcases hostRead_cases addr s with ⟨k, _, h⟩ | ⟨r, _, _, h⟩ <;>
      simp only [eventResultWith, h, refuseAccess_eq, answerAccess, emit_turns, readEffect_eq]
  | reset => rfl

theorem eventResult_params (i : Instr) (s : State) : (eventResult i s).params = s.params := eventResultWith_params _ i s

theorem eventResult_turns (i : Instr) (s : State) : (eventResult i s).turns = s.turns := eventResultWith_turns _ i s

/-! ## The modulation's clamps -/

theorem modTarget_ge (cfg : GlobalCfg) : 1000 ≤ modTarget cfg := le_max_right _ _

theorem modDutyOf_bounds (cfg : GlobalCfg) : 0 ≤ modDutyOf cfg ∧ modDutyOf cfg ≤ 1000000 :=
  clamp_bounds (by omega)

theorem modSymmetric_iff (cfg : GlobalCfg) : modSymmetric cfg = true ↔ cfg.modGeom = 0 := by
  simp [modSymmetric]

end Sys2Proof.Laws
end

