-- ==== Sys2Proof/Tests/Slice0.lean ====
section
/-! SUPPORT. Small checks of the model against the spec's own examples, and a witness for the hypotheses of every
obligation. An expected value names its source in spec/. -/

namespace Sys2Proof.Tests

open Sys2Proof.Machine

/-! ## Well-formed words: one ill-formed word for each check (30_encoding.md R97; 95_test_vectors.md section 2.1) -/

theorem test_wf_reserved_op_zero : EventWord.wellFormed 0x0000000000000000 = false := by decide
theorem test_wf_reserved_op_five : EventWord.wellFormed 0x5000000000000000 = false := by decide
theorem test_wf_reserved_op_fourteen : EventWord.wellFormed 0xE000000000000000 = false := by decide
theorem test_wf_tick_should_be_zero : EventWord.wellFormed 0x1000000000000001 = false := by decide
theorem test_wf_conv_sample_bit_12 : EventWord.wellFormed 0x2000000000001000 = false := by decide
theorem test_wf_hostWr_channel_bits : EventWord.wellFormed 0x3100000000000000 = false := by decide
theorem test_wf_hostWr_rsv_bits : EventWord.wellFormed 0x3010000000000000 = false := by decide
theorem test_wf_hostRd_data_bits : EventWord.wellFormed 0x4000000000000001 = false := by decide
theorem test_wf_reset_ignores_bits : EventWord.wellFormed 0xF123456789ABCDEF = true := by decide

/-! ## Decoding: words written out bit by bit from R95 to R100 -/

/-- R95: 0001, then 60 zeros. -/
theorem test_decode_tick :
    decode 0b0001_0000_0000_00000000000000000000_00000000000000000000000000000000#64 = .ok .tick := by decide

/-- R96: OP 0010, CH 0101, w[55:12] zero, SAMPLE 000000000111: CONV_DONE(5, 7) (95_test_vectors.md section 2.1). -/
theorem test_decode_convDone :
    decode 0b0010_0101_0000_00000000000000000000_00000000000000000000_000000000111#64 = .ok (.convDone 5 7) := by decide

/-- R98: OP 0011, zeros, ADDR 0x0040C, DATA 0xFFFFFF9C: wr SYN_OFFSET(0), -100 (95_test_vectors.md section 2.1). -/
theorem test_decode_hostWr :
    decode 0b0011_0000_0000_00000000010000001100_11111111111111111111111110011100#64 =
      .ok (.hostWr 0x0040C 0xFFFFFF9C) := by decide

/-- R99: OP 0100, zeros, ADDR 0x27FFC, zeros: rd BUF(1)[4095] (95_test_vectors.md section 2.1). -/
theorem test_decode_hostRd :
    decode 0b0100_0000_0000_00100111111111111100_00000000000000000000000000000000#64 = .ok (.hostRd 0x27FFC) := by decide

/-- R100: OP 1111, the other bits ignored. -/
theorem test_decode_reset : decode 0xF123456789ABCDEF#64 = .ok .reset := by decide

theorem test_decode_malformed :
    decode 0x0000000000000000 = .error .reservedOp ∧ decode 0x2000000000001000 = .error .shouldBeZero ∧
      decode 0x3100000000000000 = .error .shouldBeZero ∧ decode 0x4000000000000001 = .error .shouldBeZero := by decide

/-! ## States and helpers -/

/-- The state a step answers. -/
def ran : Host.Outcome State Fault Refusal → Option State
  | .next t => some t
  | .fault _ => none
  | .refused _ => none

/-- One event word presented to a state. -/
def present (w : Nat) (s : State) : Option State := ran (step (s.withFetchWord 64 w))

/-- RUNNING with P = 100000 ns and nothing else configured. -/
def live : State := { State.reset with run := .running, cfg := { GlobalCfg.reset with tickPNs := 100000 } }

/-- Synthesis channel 0 configured, its increment latched. -/
def withSyn (cfg : SynCfg) (s : State) : State :=
  setSyn 0 { SynChannel.reset with cfg := cfg, inc := incrementOf cfg s.cfg.tickPNs } s

/-- 2500 Hz, amplitude 4095 (95_test_vectors.md section 2.3). -/
def waveCfg (mode : BitVec 2) : SynCfg := { SynChannel.reset.cfg with mode := mode, freq := 2500000, amp := 4095, lutN := 1 }

/-- Acquisition channel 0 enabled with the given capacity. -/
def withAcq (cap : Word) (s : State) : State := setAcq 0 { AcqChannel.reset with cfg := { en := 1, cap := cap } } s

/-- Result `r` pending on acquisition channel 0. -/
def withResult (r : BitVec 12) (s : State) : State := setAcq 0 { s.acq[0] with pend := true, res := r } s

/-- A tick pending. -/
def withTick (s : State) : State := { s with tickPend := true }

/-! ## One step of each instruction -/

/-- R111's example: the first tick latches. -/
theorem test_tick_latches : (present 0x1000000000000000 live).map (fun t => (t.tickPend, t.trace)) = some (true, []) := by
  decide

/-- R111's example: a second tick is counted and reported as code 9, in STATUS[13]. -/
theorem test_tick_missed :
    (present 0x1000000000000000 (withTick live)).map
      (fun t => (t.dlmissCnt, t.err.lastErr, statusWord t, t.trace)) =
    some (1, 9, 0x00002003, [.error .tickMissed]) := by decide

/-- R181's example: conv 0, 99 over a pending 1234. -/
theorem test_convDone_overrun :
    (present 0x2000000000000063 (withResult 1234 (withAcq 3 live))).map
      (fun t => (t.acq[0].res, t.acq[0].ovr, t.err.lastErr, t.trace)) =
    some (99, 1, 10, [.error .acqOverrun]) := by decide

/-- R252: conv 5, 7 is code 7 even while CONFIGURING. -/
theorem test_convDone_bad_channel :
    (present 0x2500000000000007 State.reset).map (fun t => (statusWord t, t.trace)) =
      some (0x00000800, [.error .evChannel]) := by decide

/-- R214's example: start latches INC[0] = 3/500 at 60 Hz. -/
theorem test_hostWr_start_latches_increment :
    (present 0x3000000800000001 { setSyn 0 { SynChannel.reset with cfg := { (waveCfg 1) with freq := 60000 } } live with
        run := .configuring }).map (fun t => (t.run, t.syn[0].inc, t.trace)) =
      some (.running, 3 / 500, [.hostResp true 0]) := by decide +kernel

/-- R252: after START, wr TICK_P_NS, 1 is code 4. -/
theorem test_hostWr_locked :
    (present 0x3000001400000001 live).map (fun t => (t.cfg.tickPNs, t.trace)) =
      some (100000, [.error .cfgLocked, .hostResp false 0]) := by decide

/-- R204's example: rd ID after reset. -/
theorem test_hostRd_id :
    (present 0x4000000000000000 State.reset).map (·.trace) = some [.hostResp true 0x49434644] := by decide

/-- 95_test_vectors.md section 2.6: rd 0x00480, SYN_MODE(2), is unmapped with NSYN = 2. -/
theorem test_hostRd_absent_channel :
    (present 0x4000048000000000 State.reset).map (·.trace) = some [.error .busUnmapped, .hostResp false 0] := by decide

/-- R260's example: a RESET while RUNNING with a tick pending. -/
theorem test_reset_discards_pending :
    (present 0xF000000000000000 (withTick live)).map (fun t => (t.run, t.tickPend, t.cfg.tickPNs, t.trace)) =
      some (.configuring, false, 0, [.resetDone]) := by decide

/-- R97: a MALFORMED word reports code 6 and answers no response, even with OP 0x3. -/
theorem test_malformed_reports :
    (present 0x3100000000000000 State.reset).map (fun t => (statusWord t, t.err.lastErr, t.trace)) =
      some (0x00000800, 6, [.error .evMalformed]) := by decide

/-! ## The services -/

/-- R113's example, the reset TRIG_DIV = 1: SINK(0, 4095) then CONV_START, PHASE[0] = 1/4, ELAPSED = 100000. -/
theorem test_tick_service_direct :
    let t := tickService (withTick (withSyn (waveCfg 1) live))
    (t.syn[0].phase, t.tick.elapsed, t.tickPend, t.trace) = (1 / 4, 100000, false, [.sink 0 4095, .convStart]) := by
  decide +kernel

/-- R184's example: C = 3 with WIDX = 2, result 40. -/
theorem test_acq_service_wraps :
    let t := acqService 0 (setAcq 0 { AcqChannel.reset with cfg := ⟨1, 3⟩, pend := true, res := 40, widx := 2 } live)
    (readBuf t.mem 0 2, t.acq[0].widx, t.acq[0].pend) = (40, 0, false) := by decide

/-- R135's example: phase 3/4 gives 0, phase 1 gives 2048; 60 Hz at P = 100 µs gives 2125 (95_test_vectors.md 2.3). -/
theorem test_sample :
    sampleOutput realSine (waveCfg 1) (3 / 4) = 0 ∧ sampleOutput realSine (waveCfg 1) 1 = 2048 ∧
      sampleOutput realSine (waveCfg 1) (3 / 500) = 2125 := by decide +kernel

/-- R148: N = 12, AMP = 1000, GAIN 1.0: entry 2 is 866, entry 7 is -500. R149: AMP = 1: entry 7 is -1, a tie. -/
theorem test_lut_entries :
    lutRaw realSine { (waveCfg 3) with lutN := 12, amp := 1000 } 2 = 866 ∧ lutRaw realSine { (waveCfg 3) with lutN := 12, amp := 1000 } 7 = -500 ∧
      lutRaw realSine { (waveCfg 3) with lutN := 12, amp := 1 } 7 = -1 := by decide +kernel

/-- R163's example, and the last row of the table of 95_test_vectors.md section 2.4. -/
theorem test_modulation :
    let g : GlobalCfg := { GlobalCfg.reset with modClkbase := 100000000, modFreq := 1000000, modDuty := 250000, modPhase := 500000 }
    let h : GlobalCfg := { GlobalCfg.reset with modClkbase := 4294967295, modFreq := 1000, modPhase := 1000000, modGeom := 1 }
    (modPeriodOf g, modCompareOf g, modPhaseOf g) = (50000, 37500, 25000) ∧
      (modPeriodOf h, modCompareOf h, modPhaseOf h) = (4294967294, 4294967294, 4294967294) := by decide

/-- 95_test_vectors.md section 2.4: the asymmetric q of a duty of 1 is -1, stored as 0xFFFFFFFF. -/
theorem test_modulation_minus_one :
    let g : GlobalCfg := { GlobalCfg.reset with modClkbase := 100000000, modFreq := 1000000, modDuty := 1000000, modGeom := 1 }
    modCompareOf g = -1 ∧ wrap32 (modCompareOf g) = 0xFFFFFFFF := by decide

/-! ## Witnesses: states and operands that meet the hypotheses of each obligation, clause by clause -/

/-- A word of an operation other than RESET, with every operand bit set. -/
theorem witness_AcceptedWordIsItsEncoding :
    decode 0x2F00000000000FFF = .ok (.convDone 15 4095) ∧ Instr.convDone 15 4095 ≠ .reset := by decide

theorem witness_MalformedWordOnlyReports :
    ({ live with turns := [.word 0] } : State).turns = .word 0 :: [] ∧ decode 0 = .error .reservedOp := by decide

theorem witness_StepRunsTheDecodedWord :
    ({ live with turns := [.word 0x1000000000000000, .tickService] } : State).turns =
        .word 0x1000000000000000 :: [.tickService] ∧
      decode 0x1000000000000000 = .ok .tick ∧ decodeTableWord 64 0x4002029800000000 = some (.hostRd 0x20298) := by decide

/-- A tick and the highest channel's result are both pending, and both services are enabled. -/
theorem witness_StepsAreTheInterleavings :
    let s : State := setAcq 1 { AcqChannel.reset with cfg := ⟨1, 4096⟩, pend := true } (withTick live)
    tickEnabled s = true ∧ acqEnabled s 1 = true ∧ step s = .next (Laws.stepResult s) := by
  refine ⟨by decide, by decide, ?_⟩
  exact Laws.step_eq _

theorem witness_ServiceOrderIsRespected :
    (State.powerOn { nsynLess1 := 0, nacqLess1 := 15, svcOrder := .any, sin2pi := .realSine }).params.svcOrder = .any ∧
    (State.powerOn { nsynLess1 := 15, nacqLess1 := 0, svcOrder := .tickFirst, sin2pi := .realSine }).params.svcOrder = .tickFirst ∧
    (State.powerOn { nsynLess1 := 1, nacqLess1 := 1, svcOrder := .acqFirst, sin2pi := .realSine }).params.svcOrder = .acqFirst := by decide

theorem witness_PendingServicesAreTaken :
    (withTick (withResult 7 (withAcq 1 live))).run = .running ∧
      (withTick (withResult 7 (withAcq 1 live))).turns = [] ∧ (0 : Chan).val < live.params.nacq ∧
      (withTick (withResult 7 (withAcq 1 live))).acq[0].pend = true := by decide

theorem witness_TickLatchesOrIsMissed :
    State.reset.run = .configuring ∧ (live.run = .running ∧ live.tickPend = false) ∧
      ((withTick live).run = .running ∧ (withTick live).tickPend = true) := by decide

/-- The timer fires (R247), and a host access is made. -/
theorem witness_TickLatchesOrIsMissed_timer :
    let s : State := { live with turns := [timerTurn] }
    (step s = .next (withTick live) ∧ s.tickPend = false ∧ (withTick live).tickPend = true) ∧
      exec .tick live = .next (withTick live) ∧
      exec (.hostWr 0x00000 5) live = .next (hostWrite 0x00000 5 live) :=
  ⟨⟨rfl, rfl, rfl⟩, rfl, rfl⟩

/-- Zero ticks counted at START, and a word that leaves a RUNNING block RUNNING. -/
theorem witness_TickTallyIsKept :
    State.reset.tick = TickWork.reset ∧ TickTally 0 live ∧
      ∃ t, acceptWord 0x1000000000000000 live = .next t ∧ live.run = .running ∧ t.run = .running := by
  refine ⟨rfl, by unfold TickTally; decide, tickEvent live, rfl, rfl, by decide⟩

/-- The first and the last channel that exist, in each mode. -/
theorem witness_DirectChannelTick :
    (1 : Chan).val < live.params.nsyn ∧ (setSyn 1 { SynChannel.reset with cfg := waveCfg 1 } live).syn[(1 : Chan)].cfg.mode = 1 := by
  decide
theorem witness_ElapsedChannelTick :
    (0 : Chan).val < live.params.nsyn ∧ (withSyn (waveCfg 2) live).syn[(0 : Chan)].cfg.mode = 2 := by decide +kernel
theorem witness_LutChannelTick :
    (0 : Chan).val < live.params.nsyn ∧ (withSyn (waveCfg 3) live).syn[(0 : Chan)].cfg.mode = 3 := by decide +kernel
theorem witness_OffChannelKeepsItsState :
    live.params.nsyn ≤ (2 : Chan).val ∧ live.syn[(0 : Chan)].cfg.mode = 0 := by decide

/-- Two states that differ outside channel 0. -/
theorem witness_SynthesisChannelsAreIndependent :
    let s := withSyn (waveCfg 3) live
    let t := setSyn 1 { SynChannel.reset with cfg := waveCfg 1 } s
    s ≠ t ∧ s.params = t.params ∧ s.tick.elapsed = t.tick.elapsed ∧ s.syn[(0 : Chan)] = t.syn[(0 : Chan)] ∧
      ∀ k, readLut s.mem 0 k = readLut t.mem 0 k :=
  ⟨by decide +kernel, rfl, rfl, by decide +kernel, fun _ => rfl⟩

/-- d = 0, d = 1 (1/d an integer, the phase of exactly 1 is held), and d just above 1; t = 0 lies below the period. -/
theorem witness_PhaseSequencePeriod :
    (0 : ℚ) = 0 ∧ ((0 : ℚ) < 1 ∧ 1 / (1 : ℚ) = (1 : ℕ) ∧ 0 < ⌊1 / (1 : ℚ)⌋.toNat + 1) ∧
      ((0 : ℚ) < 101 / 100 ∧ (1 : ℚ) < 101 / 100) := by norm_num

/-- The real sine, which obeys the laws, and the reference configuration, which names it. -/
theorem witness_RoundSineAgreesWithTheRealSine :
    Sin2piLaws (fun x => Real.sin (2 * Real.pi * x)) ∧
      Encloses realSine.enclose (fun x => Real.sin (2 * Real.pi * x)) ∧ Params.reference.sin2pi = .realSine :=
  ⟨sin2piLaws_sin, sineEnclosure_encloses, rfl⟩

/-- A block with the configuration field's sine runs: TICK latches, and a step with nothing pending is idle. -/
theorem test_configured_sine :
    let s : State := { withSyn (waveCfg 1) live with params := { Params.reference with sin2pi := .configured } }
    exec .tick s = .next { s with tickPend := true } ∧ stepWith s.params.sine s = .next s :=
  ⟨rfl, rfl⟩

/-- A tie, sin2pi(1/12)·1 + 0 = 1/2 rounds to 1 (R149), and a rational sine for law (e). -/
theorem witness_SineLaws :
    ((1 / 12, 1 / 2) : ℚ × ℚ) ∈ exactSines ∧ roundSine realSine (1 / 12) 1 0 = 1 ∧
      Real.sin (2 * Real.pi * ((1 / 12 : ℚ) : ℝ)) = ((1 / 2 : ℚ) : ℝ) :=
  ⟨by decide +kernel, by decide +kernel, sin2piLaws_sin.exact (1 / 12, 1 / 2) (by simp [exactSines])⟩

/-- AMP = 4095 at phase 0: (0 + 1)·4095/2 is a tie and rounds to 2048; AMP = 0; OUTMAX = 0. -/
theorem witness_SampleCornerCases :
    IsRoundHA ((Real.sin (2 * Real.pi * ((0 : ℚ) : ℝ)) + 1) * (waveCfg 1).amp.toNat / 2) 2048 ∧
      SynChannel.reset.cfg.amp = 0 ∧ ({ SynChannel.reset.cfg with amp := 4095, outmax := 0 } : SynCfg).outmax = 0 := by
  refine ⟨?_, by decide⟩
  rw [show (waveCfg 1).amp.toNat = 4095 by decide]
  unfold IsRoundHA
  constructor <;> norm_num [abs_of_nonneg]

/-- A step whose new events hold a SINK. -/
theorem witness_SinkValuesAreBounded :
    let s := withTick (withSyn (waveCfg 1) live)
    step s = .next (tickService s) ∧ OutEvent.sink 0 4095 ∈ (tickService s).trace := by
  refine ⟨?_, by decide +kernel⟩
  rw [Laws.step_eq]
  rcases Laws.drainStep_cases (withTick (withSyn (waveCfg 1) live)) with ⟨_, h⟩ | ⟨h, _⟩ | ⟨h, _⟩
  · exact congrArg Host.Outcome.next h
  all_goals exact absurd h (by decide +kernel)

/-- The same step with the real sine given as an argument. -/
theorem witness_SinkValuesAreBounded_given :
    let s := withTick (withSyn (waveCfg 1) live)
    stepWith realSine s = .next (tickServiceWith realSine s) ∧ OutEvent.sink 0 4095 ∈ (tickServiceWith realSine s).trace := by
  refine ⟨?_, by decide +kernel⟩
  rw [Laws.stepWith_eq]
  rcases Laws.drainStepBy_cases (tickServiceWith realSine) (withTick (withSyn (waveCfg 1) live)) with
    ⟨_, h⟩ | ⟨h, _⟩ | ⟨h, _⟩
  · exact congrArg Host.Outcome.next h
  all_goals exact absurd h (by decide +kernel)

theorem witness_LutIndexCycles :
    (0 : Chan).val < live.params.nsyn ∧ (withSyn (waveCfg 3) live).syn[(0 : Chan)].cfg.mode = 3 ∧
      1 ≤ (withSyn (waveCfg 3) live).syn[(0 : Chan)].cfg.lutN.toNat ∧ (withSyn (waveCfg 3) live).syn[(0 : Chan)].index = 0 := by
  decide +kernel

theorem witness_ModulationResultsFit :
    GlobalCfg.reset.modGeom = 0 ∧ ({ GlobalCfg.reset with modGeom := 1 } : GlobalCfg).modGeom = 1 ∧
      modPeriodOf GlobalCfg.reset ∈ [modPeriodOf GlobalCfg.reset, modCompareOf GlobalCfg.reset,
        modCompareBOf GlobalCfg.reset, modPhaseOf GlobalCfg.reset] := by decide

theorem witness_ModulationFormulas :
    GlobalCfg.reset.modGeom = 0 ∧ ({ GlobalCfg.reset with modGeom := 1 } : GlobalCfg).modGeom = 1 := by decide

/-- A duty of -1, and of 1000001. -/
theorem witness_DutyIsClamped :
    sext32 { GlobalCfg.reset with modDuty := 0xFFFFFFFF }.modDuty < 0 ∧
      1000000 < sext32 { GlobalCfg.reset with modDuty := 1000001 }.modDuty := by decide

/-- The two ends of the range of LUT_XFORM, at both ends of the shift (R145). -/
theorem witness_LutXformIsOffsetBinaryShifted :
    65535 ≤ 65535 >>> (0#4).toNat ∧ 1 ≤ 65535 >>> (15#4).toNat ∧ 0 ≤ 65535 >>> (15#4).toNat := by decide

/-- CB = 0 in both forms, duty and phase at their bounds, and a target just above CB / 2 Hz. -/
theorem witness_ModulationCornerCases :
    let g : GlobalCfg := GlobalCfg.reset
    let a : GlobalCfg := { g with modGeom := 1, modPhase := 1000000, modDuty := 1000000 }
    (g.modGeom = 0 ∧ g.modClkbase = 0) ∧ (a.modGeom = 1 ∧ a.modClkbase.toNat * 1000 < modTarget a) ∧
      sext32 g.modDuty ≤ 0 ∧ 1000000 ≤ sext32 a.modDuty ∧ 1000000 ≤ sext32 a.modPhase ∧
      (g.modGeom = 0 ∧ (g.modClkbase.toNat : Int) * 1000 < 2 * modTarget g) := by decide

/-- R = 300000, E = 150000 (95_test_vectors.md section 2.4): ticks 3 and 4 lie in window 1. -/
theorem witness_ModOnceAppliesOncePerWindow :
    let s : State := { live with
      cfg := { live.cfg with modOnce := true, modRefreshLo := 300000, modEpsLo := 150000 }
      tick := { TickWork.reset with elapsed := 300000 }
      pwm := { ModWork.reset with lastWin := some 1 } }
    s.cfg.modOnce = true ∧ s.pwm.lastWin = some 1 ∧
      ∀ j, j ≤ 1 → (s.tick.elapsed + j * s.cfg.tickPNs.toNat) / modRefresh s.cfg = 1 := by decide

/-- The first absent channel; CONFIGURING and EN = 0; enabled and idle; enabled and pending. -/
theorem witness_ConvDoneLatchesOrReports :
    live.params.nacq ≤ (2#4).toNat ∧
    ((1#4).toNat < live.params.nacq ∧ State.reset.run = .configuring ∧ live.acq[(1#4).toFin].cfg.en = 0) ∧
    ((0#4).toNat < live.params.nacq ∧ (withAcq 1 live).run = .running ∧ (withAcq 1 live).acq[(0#4).toFin].cfg.en = 1 ∧
      (withAcq 1 live).acq[(0#4).toFin].pend = false) ∧
    ((withResult 5 (withAcq 1 live)).acq[(0#4).toFin].cfg.en = 1 ∧ (withResult 5 (withAcq 1 live)).run = .running ∧
      (withResult 5 (withAcq 1 live)).acq[(0#4).toFin].pend = true) := by decide

/-- The last slot, another channel's slot, another slot of the channel, and a byte outside both. -/
theorem witness_AcqServiceStoresThenAdvances :
    (setAcq 0 { AcqChannel.reset with widx := 4095 } live).acq[(0 : Chan)].widx < 4096 ∧
      ((1 : Chan) ≠ 0 ∨ 4095 ≠ 4095) ∧ ((0 : Chan) ≠ 0 ∨ 0 ≠ 4095) ∧
      0x24000 ≠ bufAddr 0 4095 ∧ 0x24000 ≠ bufAddr 0 4095 + 1 := by decide

theorem witness_BufferHoldsTheLastResults : ReadyToAcquire 0 (withAcq 1 live) ∧ ReadyToAcquire 0 (withAcq 4096 live) := by
  constructor
  · exact ⟨by decide, by decide, by decide, by decide, by decide, by decide, by decide,
      Laws.readBuf_nil 0⟩
  · exact ⟨by decide, by decide, by decide, by decide, by decide, by decide, by decide,
      Laws.readBuf_nil 0⟩

theorem witness_AcqServicesCommute : (0 : Chan) ≠ 1 ∧ live.mem.wf := by decide

/-- An address of each kind that a check refuses; START with TICK_P_NS = 0 (95_test_vectors.md section 2.6). -/
theorem witness_HostAccessRefusals :
    (0x00002#20).toNat % 4 ≠ 0 ∧
    ((0x0003C#20).toNat % 4 = 0 ∧ regAt live.params 0x0003C = none ∧ regAt live.params 0x60000 = none) ∧
    ((0x00000#20).toNat % 4 = 0 ∧ regAt live.params 0x00000 = some (.ro .id) ∧
      regAt live.params 0x27FFC = some (.ro (.buf 1 4095))) ∧
    (live.run = .running ∧ regAt live.params 0x00008 = some .ctrl ∧ regAt live.params 0x00014 = some (.cfg .tickPNs)) ∧
    ((0x00008#20).toNat % 4 = 0 ∧ State.reset.run = .configuring ∧ (1#32).getLsbD 0 = true ∧
      startValid State.reset = false) := by decide

theorem witness_HostReadAnswers :
    (0x00020#20).toNat % 4 = 0 ∧ regAt live.params 0x00020 = some (.ro .elapsedLo) ∧
      regAt live.params 0x11FFC = some (.ro (.lut 1 1023)) := by decide

/-- The two ends of the phase's range; `witness_StepKeepsSafe` gives the safe state. -/
theorem witness_ReadbackValues :
    let s : State := withSyn (waveCfg 1) live
    let t : State := setSyn 0 { s.syn[0] with phase := 1 } s
    0 ≤ s.syn[(0 : Chan)].phase ∧ s.syn[(0 : Chan)].phase ≤ 1 ∧ 0 ≤ t.syn[(0 : Chan)].phase ∧ t.syn[(0 : Chan)].phase ≤ 1 ∧
      readValue t (.ro (.synPhase 0)) = 0x80000000 := by decide +kernel

theorem witness_HostWritePerforms :
    State.reset.run = .configuring ∧ (2#32).getLsbD 0 = false ∧ (0x00820#20).toNat % 4 = 0 ∧
      regAt State.reset.params 0x00820 = some (.cfg (.acqCtrl 1)) := by decide

theorem witness_ConfigWritesStoreTheMask : CfgReg.synMode 0 ≠ .synMode 1 := by decide

/-- A register's own address, and an address whose channel does not exist. -/
theorem witness_RegisterMapIsTheTable :
    (0x00440#20).toNat % 4 = 0 ∧ regAt live.params 0x00440 = some (.cfg (.synMode 1)) ∧
      regAddr (.cfg (.synMode 2)) = 0x00480 ∧ regExists live.params (.cfg (.synMode 2)) = false := by decide

/-- A refused access, a performed one, and a MALFORMED word. -/
theorem witness_HostResponseIsLast :
    exec (.hostWr 0x00000 5) live = .next (hostWrite 0x00000 5 live) ∧ exec (.hostRd 0x00000) live = .next (hostRead 0x00000 live) ∧
      decode 0x3100000000000000 = .error .shouldBeZero ∧
      acceptWord 0x3100000000000000 live = .next (malformedWord .shouldBeZero live) :=
  ⟨rfl, rfl, by decide, rfl⟩

/-- A step of a word that reports. -/
theorem witness_ReportedCodesOfEachStep :
    acceptWord 0x1000000000000000 (withTick live) = .next (tickEvent (withTick live)) ∧
      OutEvent.error .tickMissed ∈ (tickEvent (withTick live)).trace := ⟨rfl, by decide⟩

/-- N = 1024 and C = 4096, the largest that START accepts; 1025 and 4097 are refused (R215). -/
theorem witness_StartValidationChecks :
    let s (n c : Word) : State := withAcq c (withSyn { (waveCfg 3) with lutN := n } live)
    startValid (s 1024 4096) = true ∧ startValid (s 1025 4096) = false ∧ startValid (s 1024 4097) = false := by
  decide +kernel

theorem witness_StartConfiguresAndRuns :
    let s : State := { withAcq 4096 (withSyn { (waveCfg 3) with lutN := 1024 } live) with run := .configuring }
    s.run = .configuring ∧ (3#32).getLsbD 0 = true ∧ startValid s = true ∧ s.syn[(0 : Chan)].cfg.mode = 3 ∧
      s.syn[(1 : Chan)].cfg.mode ≠ 3 := by decide +kernel

/-- A saturating table: AMP = 4095 at gain 16 gives 65520 at k = 1 of 4 (95_test_vectors.md section 2.3). -/
theorem witness_StartReportsSaturation :
    let s : State := { withSyn { (waveCfg 3) with lutN := 4, gain := 16000000 } live with run := .configuring }
    s.run = .configuring ∧ (1#32).getLsbD 0 = true ∧ startValid s = true ∧
      1 < s.syn[(0 : Chan)].cfg.lutN.toNat ∧
      roundSine realSine (((1 : ℕ) : ℚ) / s.syn[(0 : Chan)].cfg.lutN.toNat)
        ((s.syn[(0 : Chan)].cfg.amp.toNat : ℚ) * sext32 s.syn[(0 : Chan)].cfg.gain / 10 ^ 6) 0 = 65520 := by
  decide +kernel

/-- A refused write to a RUNNING block. -/
theorem witness_ConfigurationIsFrozenWhileRunning :
    let s : State := { live with turns := [.word 0x3000001400000001] }
    step s = .next (hostWrite 0x00014 1 live) ∧ s.run = .running ∧ (hostWrite 0x00014 1 live).run = .running :=
  ⟨rfl, rfl, by decide⟩

/-- START and RESET move RUNSTATE. -/
theorem witness_RunStateMovesOnlyByStartAndReset :
    let c : State := { live with run := .configuring }
    (step { c with turns := [.word 0x3000000800000001] } = .next (hostWrite 0x00008 1 c) ∧
      (hostWrite 0x00008 1 c).run = .running) ∧
    (step { live with turns := [.word 0xF000000000000000] } = .next (resetBlock live) ∧
      (resetBlock live).run = .configuring) :=
  ⟨⟨rfl, by decide +kernel⟩, rfl, rfl⟩

theorem witness_ErrorFlagsChangeNothing :
    Instr.hostRd 0x00014 ≠ .hostRd 0x0000C ∧ Instr.hostRd 0x00014 ≠ .hostRd 0x00010 := by decide

/-- A RUNNING state that is safe, and a step from it. -/
theorem witness_StepKeepsSafe : Safe live ∧ step live = .next live ∧ stepWith realSine live = .next live := by
  refine ⟨?_, rfl, rfl⟩
  exact {
    memory_canonical := by decide
    phase_in_turn := by decide +kernel
    inc_nonneg := by decide +kernel
    out_bounded := by decide
    index_in_table := by decide
    widx_in_buffer := by decide
    live_sub_in_range := by decide
    trig_sub_in_range := by decide
    pending_is_armed := by decide
    table_tail_zero := fun c k _ => Laws.readLut_nil c k
    buffer_tail_zero := fun a k _ => Laws.readBuf_nil a k
    running_is_valid := by decide
    running_inc_latched := by decide +kernel
    configuring_is_fresh := fun h => by cases h }

theorem witness_StepKeepsMemoryCanonical :
    let s := withResult 7 (withAcq 4096 live)
    s.mem.wf ∧ step s = .next (acqService 0 s) ∧ (acqService 0 s).mem ≠ s.mem := by
  refine ⟨by decide, rfl, by decide⟩

end Sys2Proof.Tests
end

section
/-! PROOFS. The statements of 00_scope.md: the step, the report of a code, and the sine with its rounding. The rounding rests
on one fact: the reals that round half-away to one integer form an interval, and the intervals of two integers do not meet.
So an enclosure whose ends round to one integer settles the rounding of the exact value, and each law of the exact value
is a law of the rounded one. -/

namespace Sys2Proof.Scope

open Sys2Proof.Machine Sys2Proof.Laws

/-! ## The step -/

theorem step_of_word {s : State} {w : EventWord} {rest : List Turn} (h : s.turns = .word w :: rest) :
    step s = acceptWord w { s with turns := rest } := by
  simp only [step, nextStep, nextStepBy, h, takeTurnBy, acceptWord]

theorem acceptWord_of_decode {w : EventWord} {i : Instr} (h : decode w = .ok i) (s : State) :
    acceptWord w s = exec i s := by
  simp only [acceptWord, acceptWordBy, h]

theorem decodeTableWord_eq_some {nbits w : Nat} {i : Instr} :
    decodeTableWord nbits w = some i ↔ decode (tableWord nbits w) = .ok i := by
  unfold decodeTableWord
  cases decode (tableWord nbits w) <;> simp [Except.toOption]

theorem exec_eq_execWith (i : Instr) (s : State) : exec i s = execWith s.params.sine i s := by
  rw [exec_eq, execWith_eq]; rfl

theorem drainStepBy_congr {tick tick' : State → State} {s : State} (ht : tick s = tick' s) :
    drainStepBy tick s = drainStepBy tick' s := by
  unfold drainStepBy
  rw [ht]

theorem wordResultBy_congr {event event' : Instr → State → State} {s : State} (he : ∀ i, event i s = event' i s)
    (w : EventWord) : wordResultBy event w s = wordResultBy event' w s := by
  unfold wordResultBy
  cases decode w with
  | ok i => exact he i
  | error why => rfl

theorem turnResultBy_congr {event event' : Instr → State → State} {tick tick' : State → State} {s : State}
    (he : ∀ i, event i s = event' i s) (ht : tick s = tick' s) (t : Turn) :
    turnResultBy event tick t s = turnResultBy event' tick' t s := by
  cases t with
  | word w => exact wordResultBy_congr he w
  | tickService => simp only [turnResultBy, ht]
  | acqService a => rfl

/-- A step runs its operation or its TICK_SERVICE on a state with the parameters it began with. -/
theorem stepResultBy_congr {event event' : Instr → State → State} {tick tick' : State → State} {s : State}
    (he : ∀ i t, t.params = s.params → event i t = event' i t) (ht : ∀ t, t.params = s.params → tick t = tick' t) :
    stepResultBy event tick s = stepResultBy event' tick' s := by
  unfold stepResultBy
  cases s.turns with
  | nil => exact drainStepBy_congr (ht s rfl)
  | cons t rest => exact turnResultBy_congr (s := { s with turns := rest }) (fun i => he i _ rfl) (ht _ rfl) t

theorem stepResult_eq_with (s : State) : stepResult s = stepResultWith s.params.sine s :=
  stepResultBy_congr (fun i t ht => by rw [eventResult, ht]) (fun t ht => by rw [tickService, ht])

theorem step_eq_stepWith (s : State) : step s = stepWith s.params.sine s := by
  rw [step_eq, stepWith_eq, stepResult_eq_with]

/-- Settles O6: the presented turn is taken off the list, and the block's own sine is the oracle of both machines. -/
theorem stepRunsTheDecodedWord : Obligations.StepRunsTheDecodedWord := by
  refine ⟨fun s w rest i ht hd => ?_, fun s w i hd => ?_, fun s i => exec_eq_execWith i s, step_eq_stepWith⟩
  · rw [step_of_word ht, acceptWord_of_decode hd]
  · have ht : (s.withFetchWord 64 w).turns = .word (tableWord 64 w) :: s.turns := rfl
    rw [step_of_word ht, acceptWord_of_decode (decodeTableWord_eq_some.1 hd)]
    rfl

/-! ## Reporting a code -/

theorem stickyMask_in_status (k : ErrCode) : (stickyMask k).setWidth 32 <<< 8 = BitVec.twoPow 32 (statusBit k) := by
  cases k <;> decide

theorem statusBit_lt (k : ErrCode) : statusBit k < 32 := by cases k <;> decide

theorem statusWord_report (k : ErrCode) (s : State) :
    statusWord (report k s) = statusWord s ||| BitVec.twoPow 32 (statusBit k) := by
  have hs : (report k s).err.sticky.setWidth 32 <<< 8 =
      s.err.sticky.setWidth 32 <<< 8 ||| BitVec.twoPow 32 (statusBit k) := by
    rw [report_err, setSticky, BitVec.setWidth_or, BitVec.shiftLeft_or_distrib, stickyMask_in_status]
  simp only [statusWord, hs, report_tickPend, acqAnyPend, isRunning, report_run, report_acq, report_params]
  ac_rfl

/-- Settles O47: the report's mask is one bit of STATUS, at the code's place. -/
theorem reportSetsTheStatusBit : Obligations.ReportSetsTheStatusBit := by
  intro s k
  refine ⟨by cases k <;> decide, fun i hi => ?_, rfl⟩
  rw [statusWord_report, BitVec.getLsbD_or, BitVec.getLsbD_twoPow]
  simp [statusBit_lt k, eq_comm]

/-! ## Half-away rounding of a real (00_scope.md R10) -/

theorem abs_sub_half_lt {z : ℤ} : |(z : ℝ) - 1 / 2| < |(z : ℝ)| ↔ 0 < z := by
  rw [← sq_lt_sq]
  constructor
  · intro h
    have hz : (0 : ℝ) < z := by nlinarith
    exact_mod_cast hz
  · intro h
    have hz : (1 : ℝ) ≤ z := by exact_mod_cast h
    nlinarith

theorem abs_add_half_lt {z : ℤ} : |(z : ℝ) + 1 / 2| < |(z : ℝ)| ↔ z < 0 := by
  have h := abs_sub_half_lt (z := -z)
  rw [Int.cast_neg, abs_neg, ← abs_neg, neg_sub, sub_neg_eq_add, add_comm, Int.neg_pos] at h
  exact h

/-- The reals that round to `z` form an interval of length 1 around it: with its end farther from 0 and without the
other, or without both where `z` is 0. -/
theorem isRoundHA_iff {x : ℝ} {z : ℤ} :
    IsRoundHA x z ↔ ((z : ℝ) - 1 / 2 ≤ x ∧ x ≤ z + 1 / 2) ∧ (x = z - 1 / 2 → 0 < z) ∧ (x = z + 1 / 2 → z < 0) := by
  have htie : |x - z| = 1 / 2 ↔ x = z - 1 / 2 ∨ x = z + 1 / 2 := by
    rw [abs_eq (by norm_num), or_comm]
    exact or_congr ⟨fun h => by linarith, fun h => by linarith⟩ ⟨fun h => by linarith, fun h => by linarith⟩
  have hnear : |x - z| ≤ 1 / 2 ↔ (z : ℝ) - 1 / 2 ≤ x ∧ x ≤ z + 1 / 2 := by
    rw [abs_le]
    exact and_congr ⟨fun h => by linarith, fun h => by linarith⟩ ⟨fun h => by linarith, fun h => by linarith⟩
  unfold IsRoundHA
  rw [hnear, htie, or_imp]
  refine and_congr_right fun _ => and_congr ?_ ?_
  · exact forall_congr' fun h => by rw [h, abs_sub_half_lt]
  · exact forall_congr' fun h => by rw [h, abs_add_half_lt]

theorem isRoundHA_le {x : ℝ} {y z : ℤ} (hy : IsRoundHA x y) (hz : IsRoundHA x z) : y ≤ z := by
  obtain ⟨⟨hyl, -⟩, hytie, -⟩ := isRoundHA_iff.1 hy
  obtain ⟨⟨-, hzu⟩, -, hztie⟩ := isRoundHA_iff.1 hz
  by_contra hlt
  have hstep : (z : ℝ) + 1 ≤ y := by exact_mod_cast (by omega : z + 1 ≤ y)
  have hy0 : 0 < y := hytie (by linarith)
  have hz0 : z < 0 := hztie (by linarith)
  have hyz : (y : ℝ) ≤ z + 1 := by linarith
  have : y ≤ z + 1 := by exact_mod_cast hyz
  omega

theorem isRoundHA_unique {x : ℝ} {y z : ℤ} (hy : IsRoundHA x y) (hz : IsRoundHA x z) : y = z :=
  le_antisymm (isRoundHA_le hy hz) (isRoundHA_le hz hy)

theorem isRoundHA_neg {x : ℝ} {z : ℤ} (h : IsRoundHA x z) : IsRoundHA (-x) (-z) := by
  have hd : |-x - ((-z : ℤ) : ℝ)| = |x - z| := by rw [← abs_neg]; congr 1; push_cast; ring
  unfold IsRoundHA at *
  rwa [hd, Int.cast_neg, abs_neg, abs_neg]

/-- The integer that both ends of an interval round to is the one that every real in it rounds to. -/
theorem ordConnected_isRoundHA (z : ℤ) : {x : ℝ | IsRoundHA x z}.OrdConnected := by
  refine ⟨fun a ha b hb x hx => ?_⟩
  obtain ⟨⟨hal, -⟩, hatie, -⟩ := isRoundHA_iff.1 ha
  obtain ⟨⟨-, hbu⟩, -, hbtie⟩ := isRoundHA_iff.1 hb
  obtain ⟨hax, hxb⟩ := hx
  exact isRoundHA_iff.2 ⟨⟨by linarith, by linarith⟩, fun h => hatie (by linarith), fun h => hbtie (by linarith)⟩

theorem isRoundHA_floor {q : ℚ} (h : 0 ≤ q) : IsRoundHA q (q + 1 / 2).floor := by
  have hl : (((q + 1 / 2).floor : ℚ) : ℝ) ≤ ((q + 1 / 2 : ℚ) : ℝ) := Rat.cast_le.2 (Rat.floor_le _)
  have hu : ((q + 1 / 2 : ℚ) : ℝ) < (((q + 1 / 2).floor + 1 : ℚ) : ℝ) :=
    Rat.cast_lt.2 (by exact_mod_cast Rat.lt_floor_add_one (q + 1 / 2))
  have h0 : (0 : ℝ) ≤ q := by exact_mod_cast h
  push_cast at hl hu
  refine isRoundHA_iff.2 ⟨⟨by linarith, by linarith⟩, fun hq => ?_, fun hq => absurd hq (by linarith)⟩
  have : (0 : ℝ) < (q + 1 / 2).floor := by linarith
  exact_mod_cast this

/-- The model's rounding of a rational is the half-away rounding of that number. -/
theorem isRoundHA_roundHA (q : ℚ) : IsRoundHA q (roundHA q) := by
  unfold roundHA
  split_ifs with h
  · exact isRoundHA_floor h
  · have := isRoundHA_neg (isRoundHA_floor (q := -q) (by linarith))
    rwa [Rat.cast_neg, neg_neg] at this

theorem roundHA_zero : roundHA 0 = 0 := isRoundHA_unique (isRoundHA_roundHA 0) (by norm_num [IsRoundHA])

/-! ## The rounded sine (00_scope.md R15) -/

section Lawful
variable {o : SineOracle} {v : ℚ → ℝ} (hv : Sin2piLaws v) (he : Encloses o.enclose v)

include he in
/-- The exact value lies between the two ends of the enclosure read, which round to one integer. -/
theorem isRoundHA_roundSine (x m b : ℚ) : IsRoundHA (v x * m + b) (roundSine o x m b) := by
  set n := settleLevel o x m b
  have hlo : IsRoundHA _ (roundSine o x m b) := isRoundHA_roundHA ((o.enclose n x).lo * m + b)
  have hhi : IsRoundHA _ (roundSine o x m b) := settles_settleLevel o x m b ▸ isRoundHA_roundHA ((o.enclose n x).hi * m + b)
  refine (ordConnected_isRoundHA _).uIcc_subset hlo hhi (Set.mem_uIcc.2 ?_)
  obtain ⟨hl, hu⟩ := he.contains n x
  push_cast
  rcases le_total 0 (m : ℝ) with hm | hm
  · exact .inl ⟨by gcongr, by gcongr⟩
  · exact .inr ⟨by linarith [mul_le_mul_of_nonpos_right hu hm], by linarith [mul_le_mul_of_nonpos_right hl hm]⟩

include hv he in
theorem enclose_exactSines {p : ℚ × ℚ} (hp : p ∈ exactSines) (n : ℕ) : o.enclose n p.1 = .point p.2 :=
  he.rational n p.1 p.2 (hv.exact p hp)

end Lawful

theorem roundSine_add_one (o : SineOracle) (x m b : ℚ) : roundSine o (x + 1) m b = roundSine o x m b := by
  obtain ⟨v, hv, he⟩ := o.lawful
  have h := isRoundHA_roundSine he (x + 1) m b
  rw [hv.period] at h
  exact isRoundHA_unique h (isRoundHA_roundSine he x m b)

theorem roundSine_neg (o : SineOracle) (x m : ℚ) : roundSine o (-x) m 0 = -roundSine o x m 0 := by
  obtain ⟨v, hv, he⟩ := o.lawful
  have h := isRoundHA_roundSine he (-x) m 0
  rw [hv.odd, Rat.cast_zero, add_zero, neg_mul] at h
  have h' := isRoundHA_roundSine he x m 0
  rw [Rat.cast_zero, add_zero] at h'
  exact isRoundHA_unique h (isRoundHA_neg h')

theorem roundSine_exactSines (o : SineOracle) {p : ℚ × ℚ} (hp : p ∈ exactSines) (m b : ℚ) :
    roundSine o p.1 m b = roundHA (p.2 * m + b) := by
  obtain ⟨v, hv, he⟩ := o.lawful
  rw [roundSine, enclose_exactSines hv he hp, Enclosure.point]

theorem roundSine_scale_zero (o : SineOracle) (x b : ℚ) : roundSine o x 0 b = roundHA b := by
  rw [roundSine, mul_zero, zero_add]

/-- Settles O23: every lawful oracle's rounding is that of its exact value, and the real sine is one such value. -/
theorem roundSineAgreesWithTheRealSine : Obligations.RoundSineAgreesWithTheRealSine := by
  refine ⟨fun o v _ he => isRoundHA_roundSine he, ?_, fun p hp => ?_⟩
  · exact isRoundHA_roundSine (o := realSine) sineEnclosure_encloses
  · rw [Params.sine, hp]

/-! ## The enclosures of the real sine -/

/-- Machin's formula and the Taylor series at the first level leave about 6·10^-24. -/
theorem firstLevel_width : Machine.sineTerm 2 (2 * firstLevel) + (piHi firstLevel - piLo firstLevel) ≤ 2 / 10 ^ 20 := by
  have hpi := piHi_sub_piLo_le firstLevel
  have hterms : Machine.sineTerm 2 (2 * firstLevel) +
      (16 * arctanTerm 5 (2 * firstLevel) + 4 * arctanTerm 239 (2 * firstLevel) + 2 / 10 ^ (3 * firstLevel)) ≤ 2 / 10 ^ 20 := by
    norm_num [Machine.sineTerm, arctanTerm, firstLevel, Nat.factorial]
  linarith

/-- Settles O21: the series enclose the sine at every level, and at the first one they are narrow. -/
theorem sineEnclosesTheRealSine : Obligations.SineEnclosesTheRealSine := fun x =>
  ⟨fun n => sineEnclosure_encloses.contains n x, (sineEnclosure_width firstLevel x).trans firstLevel_width⟩

theorem sineQuarter_range (n : ℕ) (q : ℚ) : 0 ≤ (sineQuarter n q).lo ∧ (sineQuarter n q).hi ≤ 1 := by
  unfold sineQuarter
  split_ifs
  iterate 3 norm_num [Enclosure.point]
  exact ⟨le_max_left _ _, min_le_left _ _⟩

/-- An enclosure on one side of 0 has its other end within the enclosed sine's range. -/
theorem sineEnclosure_range (n : ℕ) (x : ℚ) : -1 ≤ (sineEnclosure n x).lo ∧ (sineEnclosure n x).hi ≤ 1 := by
  obtain ⟨hlo, hhi⟩ := sineQuarter_range n (foldTurn x).2
  unfold sineEnclosure
  split_ifs
  · simp only [Enclosure.neg]
    constructor <;> linarith
  · exact ⟨by linarith, hhi⟩

theorem foldTurn_add_one (x : ℚ) : foldTurn (x + 1) = foldTurn x := by
  have hf : x + 1 - (x + 1).floor = x - x.floor := Int.fract_add_one x
  simp only [foldTurn, hf]

theorem sineEnclosure_add_one (n : ℕ) (x : ℚ) : sineEnclosure n (x + 1) = sineEnclosure n x := by
  simp only [sineEnclosure, foldTurn_add_one]

section Fold
variable {x : ℚ}

theorem foldTurn_of_le_quarter (h : Int.fract x ≤ 1 / 4) : foldTurn x = (false, Int.fract x) :=
  if_pos h

theorem foldTurn_of_le_half (h : 1 / 4 ≤ Int.fract x) (h' : Int.fract x ≤ 1 / 2) :
    foldTurn x = (false, 1 / 2 - Int.fract x) := by
  rcases h.eq_or_lt with hq | hq
  · rw [foldTurn_of_le_quarter hq.ge, ← hq]; norm_num
  · exact (if_neg hq.not_ge).trans (if_pos h')

theorem foldTurn_of_le_three_quarters (h : 1 / 2 < Int.fract x) (h' : Int.fract x ≤ 3 / 4) :
    foldTurn x = (true, Int.fract x - 1 / 2) :=
  (if_neg (by change ¬Int.fract x ≤ _; linarith)).trans ((if_neg h.not_ge).trans (if_pos h'))

theorem foldTurn_of_three_quarters_le (h : 3 / 4 ≤ Int.fract x) : foldTurn x = (true, 1 - Int.fract x) := by
  rcases h.eq_or_lt with hq | hq
  · rw [foldTurn_of_le_three_quarters (by linarith) hq.ge, ← hq]; norm_num
  · exact (if_neg (by change ¬Int.fract x ≤ _; linarith)).trans
      ((if_neg (by change ¬Int.fract x ≤ _; linarith)).trans (if_neg hq.not_ge))

end Fold

/-- The turn -x folds onto the same point of the first quarter with the other sign, but where the sine is 0. -/
theorem foldTurn_neg (x : ℚ) :
    foldTurn (-x) = (!(foldTurn x).1, (foldTurn x).2) ∨ (foldTurn (-x)).2 = 0 ∧ (foldTurn x).2 = 0 := by
  by_cases h0 : Int.fract x = 0
  · have hn0 : Int.fract (-x) = 0 := Int.fract_neg_eq_zero.2 h0
    right
    rw [foldTurn_of_le_quarter (by rw [hn0]; norm_num), foldTurn_of_le_quarter (by rw [h0]; norm_num)]
    exact ⟨hn0, h0⟩
  have hn : Int.fract (-x) = 1 - Int.fract x := Int.fract_neg h0
  rcases lt_trichotomy (Int.fract x) (1 / 2) with hlt | heq | hgt
  · left
    rcases le_total (Int.fract x) (1 / 4) with h | h
    · rw [foldTurn_of_le_quarter h, foldTurn_of_three_quarters_le (by linarith), hn, sub_sub_cancel]; rfl
    · rw [foldTurn_of_le_half h hlt.le, foldTurn_of_le_three_quarters (by linarith) (by linarith), hn]
      simp only [Bool.not_false, Prod.mk.injEq, true_and]
      ring
  · right
    rw [foldTurn_of_le_half (by linarith) (by linarith), foldTurn_of_le_half (x := x) (by linarith) heq.le, hn, heq]
    norm_num
  · left
    rcases le_total (Int.fract x) (3 / 4) with h | h
    · rw [foldTurn_of_le_three_quarters hgt h, foldTurn_of_le_half (by linarith) (by linarith), hn]
      simp only [Bool.not_true, Prod.mk.injEq, true_and]
      ring
    · rw [foldTurn_of_three_quarters_le h, foldTurn_of_le_quarter (by linarith), hn]; rfl

theorem enclosure_neg_neg (e : Enclosure) : e.neg.neg = e := by
  simp [Enclosure.neg]

theorem sineEnclosure_of_fold_zero {x : ℚ} (h : (foldTurn x).2 = 0) (n : ℕ) : sineEnclosure n x = ⟨0, 0⟩ := by
  simp [sineEnclosure, h, sineQuarter, Enclosure.neg, Enclosure.point]

theorem sineEnclosure_neg (n : ℕ) (x : ℚ) : sineEnclosure n (-x) = (sineEnclosure n x).neg := by
  rcases foldTurn_neg x with h | ⟨hn, h⟩
  · simp only [sineEnclosure, h]
    cases (foldTurn x).1 <;> simp [enclosure_neg_neg]
  · rw [sineEnclosure_of_fold_zero hn, sineEnclosure_of_fold_zero h, Enclosure.neg, neg_zero]

theorem sineEnclosure_exactSines {p : ℚ × ℚ} (hp : p ∈ exactSines) (n : ℕ) : sineEnclosure n p.1 = .point p.2 :=
  enclose_exactSines (o := realSine) sin2piLaws_sin sineEnclosure_encloses hp n

theorem exists_mem_exactSines_iff (x : ℚ) : (∃ p ∈ exactSines, ∃ k : ℤ, x = p.1 + k) ↔
    ∃ k : ℤ, x = k ∨ x = 1 / 12 + k ∨ x = 1 / 4 + k ∨ x = 5 / 12 + k ∨ x = 1 / 2 + k ∨ x = 7 / 12 + k ∨ x = 3 / 4 + k ∨
      x = 11 / 12 + k := by
  simp only [exactSines, List.exists_mem_cons_iff, List.not_mem_nil, false_and, exists_false, or_false, exists_or, zero_add]

/-- Settles O22: the laws of R15 pass from the folding and the exact value to the enclosures and the rounded results. -/
theorem sineLaws : Obligations.SineLaws := by
  refine ⟨fun n => ⟨sineEnclosure_range n, sineEnclosure_add_one n, sineEnclosure_neg n, ?_⟩, fun o x m b =>
    ⟨roundSine_add_one o x m b, roundSine_neg o x m, fun p hp => roundSine_exactSines o hp m b⟩, fun x q h =>
    (exists_mem_exactSines_iff x).1 (sine_rational h)⟩
  have hexact : ∀ p ∈ exactSines, realSine.enclose n p.1 = ⟨p.2, p.2⟩ := fun p hp => sineEnclosure_exactSines hp n
  simpa [exactSines] using hexact

/-! ## SAMPLE (41_synthesizer.md R134) -/

theorem sampleOutput_of_isRoundHA {o : SineOracle} {v : ℚ → ℝ} (he : Encloses o.enclose v) (cfg : SynCfg) {θ : ℚ} {z : ℤ}
    (hz : IsRoundHA ((v θ + 1) * cfg.amp.toNat / 2) z) : sampleOutput o cfg θ = toOutput cfg z := by
  have h := isRoundHA_roundSine he θ ((cfg.amp.toNat : ℚ) / 2) ((cfg.amp.toNat : ℚ) / 2)
  have hx : v θ * ((cfg.amp.toNat : ℚ) / 2 : ℚ) + ((cfg.amp.toNat : ℚ) / 2 : ℚ) = (v θ + 1) * cfg.amp.toNat / 2 := by
    push_cast; ring
  rw [hx] at h
  rw [sampleOutput, isRoundHA_unique h hz]

theorem sampleOutput_add_one (o : SineOracle) (cfg : SynCfg) (θ : ℚ) :
    sampleOutput o cfg (θ + 1) = sampleOutput o cfg θ := by
  rw [sampleOutput, roundSine_add_one, sampleOutput]

theorem sampleOutput_zero (o : SineOracle) (cfg : SynCfg) :
    sampleOutput o cfg 0 = toOutput cfg (roundHA ((cfg.amp.toNat : ℚ) / 2)) := by
  have h := roundSine_exactSines o (p := (0, 0)) (by simp [exactSines])
  rw [sampleOutput, h, zero_mul, zero_add]

theorem sampleOutput_amp_zero (o : SineOracle) {cfg : SynCfg} (h : cfg.amp = 0) (θ : ℚ) :
    sampleOutput o cfg θ = toOutput cfg 0 := by
  have h0 : (cfg.amp.toNat : ℚ) / 2 = 0 := by simp [h]
  rw [sampleOutput, h0, roundSine_scale_zero, roundHA_zero]

theorem toOutput_outmax_zero {cfg : SynCfg} (h : cfg.outmax = 0) (z : ℤ) : toOutput cfg z = 0 := by
  have h0 : (cfg.outmax.toNat : ℤ) = 0 := by simp [h]
  have := clamp_bounds (v := z + sext32 cfg.offset) (le_refl 0)
  rw [toOutput, h0]
  omega

/-- Settles O24: SAMPLE is `toOutput` of one rounding, which has period 1 and the exact value at phase 0. -/
theorem sampleCornerCases : Obligations.SampleCornerCases := by
  intro o cfg
  refine ⟨fun θ => rfl, fun v _ he θ z hz => sampleOutput_of_isRoundHA he cfg hz, fun θ z hz => ?_,
    sampleOutput_add_one o cfg, sampleOutput_zero o cfg, ?_, fun h θ => ?_, fun h θ => toOutput_outmax_zero h _⟩
  · exact sampleOutput_of_isRoundHA (o := realSine) sineEnclosure_encloses cfg hz
  · simpa using sampleOutput_add_one o cfg 0
  · rw [sampleOutput_amp_zero o h, toOutput, zero_add]

end Sys2Proof.Scope
end

section
/-! PROOFS. The statements of 10_state.md: what a step can do, what every step keeps, and what the registers read. One
inversion lemma says which few states an event word can lead to; each invariant is then a case per move. -/

namespace Sys2Proof.BlockState

open Sys2Proof.Machine Sys2Proof.Laws

/-! ## What a step can do -/

/-- The state a step's move begins from: one turn taken off the list. -/
def dropTurn (s : State) : State := { s with turns := s.turns.tail }

theorem dropTurn_of_nil {s : State} (h : s.turns = []) : dropTurn s = s := by
  cases s; cases h; rfl

theorem dropTurn_of_cons {s : State} {t : Turn} {rest : List Turn} (h : s.turns = t :: rest) :
    dropTurn s = { s with turns := rest } := by
  rw [dropTurn, h, List.tail_cons]

/-- R80: a step accepts the word presented, or is an enabled service, or moves nothing. -/
theorem stepResultBy_cases (event : Instr → State → State) (tick : State → State) (s : State) :
    (∃ w rest, s.turns = .word w :: rest ∧ stepResultBy event tick s = wordResultBy event w (dropTurn s)) ∨
    (tickEnabled s = true ∧ stepResultBy event tick s = tick (dropTurn s)) ∨
    (∃ a, acqEnabled s a = true ∧ stepResultBy event tick s = acqService a (dropTurn s)) ∨
    stepResultBy event tick s = dropTurn s := by
  unfold stepResultBy
  cases hturns : s.turns with
  | nil =>
    rw [dropTurn_of_nil hturns]
    rcases drainStepBy_cases tick s with ⟨ht, h⟩ | ⟨_, a, ha, h⟩ | ⟨_, _, h⟩
    · exact .inr (.inl ⟨ht, h⟩)
    · exact .inr (.inr (.inl ⟨a, ha, h⟩))
    · exact .inr (.inr (.inr h))
  | cons t rest =>
    rw [dropTurn_of_cons hturns]
    cases t with
    | word w => exact .inl ⟨w, rest, rfl, rfl⟩
    | tickService =>
      by_cases ht : tickEnabled s = true
      · exact .inr (.inl ⟨ht, if_pos ht⟩)
      · exact .inr (.inr (.inr (if_neg ht)))
    | acqService a =>
      by_cases ha : acqEnabled s a = true
      · exact .inr (.inr (.inl ⟨a, ha, if_pos ha⟩))
      · exact .inr (.inr (.inr (if_neg ha)))

/-- What accepting a word can do: its operation, or the report of a MALFORMED word. -/
theorem wordResultBy_cases (event : Instr → State → State) (w : EventWord) (s : State) :
    (∃ i, decode w = .ok i ∧ wordResultBy event w s = event i s) ∨
    (∃ why, decode w = .error why ∧ wordResultBy event w s = report .evMalformed s) := by
  unfold wordResultBy
  cases decode w with
  | ok i => exact .inl ⟨i, rfl, rfl⟩
  | error why => exact .inr ⟨why, rfl, rfl⟩

/-- `t` is `s` but for the error reporting, ELAPSED_SNAP and events appended to the trace: nothing that an invariant of the
block speaks of. -/
def Quiet (s t : State) : Prop :=
  ∃ err snap events, t = { s with err := err, snap := snap, trace := s.trace ++ events }

theorem Quiet.refl (s : State) : Quiet s s := ⟨s.err, s.snap, [], by rw [List.append_nil]⟩

theorem quiet_report (k : ErrCode) (s : State) : Quiet s (report k s) := ⟨_, s.snap, _, rfl⟩

theorem quiet_refuseAccess (k : ErrCode) (s : State) : Quiet s (refuseAccess k s) :=
  ⟨_, s.snap, _, refuseAccess_eq k s⟩

theorem quiet_answerAccess (v : Word) (s : State) : Quiet s (answerAccess v s) := ⟨s.err, s.snap, _, rfl⟩

theorem quiet_writeStatus (v d : Word) (s : State) : Quiet s (answerAccess v (writeStatus d s)) :=
  ⟨_, s.snap, _, rfl⟩

theorem quiet_hostRead (addr : HAddr) (s : State) : Quiet s (hostRead addr s) := by
  rcases hostRead_cases addr s with ⟨k, _, h⟩ | ⟨r, _, _, h⟩
  · exact h ▸ quiet_refuseAccess k s
  · rw [h, readEffect_eq]
    exact ⟨s.err, _, _, rfl⟩

/-! ### The addresses of the registers (10_state.md section 3) -/

theorem regAddr_of_globalRegAt {n : ℕ} {r : Reg} (h : globalRegAt n = some r) : regAddr r = n := by
  unfold globalRegAt at h
  split at h <;> cases h <;> rfl

theorem regAddr_of_modRegAt {n : ℕ} {r : Reg} (h : modRegAt n = some r) : regAddr r = 0x100 + n := by
  unfold modRegAt at h
  split at h <;> cases h <;> rfl

theorem regAddr_of_synRegAt {c : Chan} {n : ℕ} {r : Reg} (h : synRegAt c n = some r) : regAddr r = synAddr c n := by
  unfold synRegAt at h
  split at h <;> cases h <;> rfl

theorem regAddr_of_acqRegAt {a : Chan} {n : ℕ} {r : Reg} (h : acqRegAt a n = some r) : regAddr r = acqAddr a n := by
  unfold acqRegAt at h
  split at h <;> cases h <;> rfl

theorem of_ifChannel {count : ℕ} {c : Chan} {q : Option Reg} {r : Reg} (h : ifChannel count c q = some r) :
    c.val < count ∧ q = some r := by
  unfold ifChannel at h
  split at h
  · exact ⟨‹_›, h⟩
  · cases h

/-- R76: an aligned address is mapped to the register that has it. -/
theorem regAddr_of_regAt {p : Params} {addr : HAddr} {r : Reg} (h4 : addr.toNat % 4 = 0) (h : regAt p addr = some r) :
    regAddr r = addr.toNat := by
  unfold regAt at h
  generalize addr.toNat = n at *
  simp only [] at h
  split at h
  · exact regAddr_of_globalRegAt h
  split at h
  · rw [regAddr_of_modRegAt h]; omega
  split at h
  · rw [regAddr_of_synRegAt (of_ifChannel h).2, synAddr, Fin.val_ofNat]; omega
  split at h
  · rw [regAddr_of_acqRegAt (of_ifChannel h).2, acqAddr, Fin.val_ofNat]; omega
  split at h
  · cases h
  split at h
  · cases (of_ifChannel h).2
    simp only [regAddr, roRegAddr, Fin.val_ofNat]
    omega
  split at h
  · cases (of_ifChannel h).2
    simp only [regAddr, roRegAddr, Fin.val_ofNat]
    omega
  · cases h

/-- Only 0x00008 is CTRL. -/
theorem addr_of_ctrl {p : Params} {addr : HAddr} (h4 : addr.toNat % 4 = 0) (h : regAt p addr = some .ctrl) :
    addr = 0x00008 :=
  BitVec.eq_of_toNat_eq (regAddr_of_regAt h4 h).symm

/-! ### Event words -/

/-- What an operation can do to the state, its report and its response apart. -/
inductive Effect (o : SineOracle) (s : State) : Instr → State → Prop
  | nothing (i : Instr) : Effect o s i s
  | latchTick : s.run = .running → Effect o s .tick { s with tickPend := true }
  | countMiss : s.run = .running → Effect o s .tick { s with dlmissCnt := s.dlmissCnt + 1 }
  | latchResult (ch : BitVec 4) (x : BitVec 12) (ovr : Word) :
      (chanOf ch).val < s.params.nacq → s.run = .running → s.acq[chanOf ch].cfg.en = 1 →
      Effect o s (.convDone ch x) (setAcq (chanOf ch) { s.acq[chanOf ch] with res := x, pend := true, ovr := ovr } s)
  | setOnce (d : Word) : s.run = .configuring →
      Effect o s (.hostWr 0x00008 d) { s with cfg := { s.cfg with modOnce := d.getLsbD 1 } }
  | writeCfg (addr : HAddr) (r : CfgReg) (d : Word) : s.run = .configuring →
      Effect o s (.hostWr addr d) (writeCfg r d s)
  | start (d : Word) : s.run = .configuring → d.getLsbD 0 = true → startValid s = true →
      Effect o s (.hostWr 0x00008 d) (start o (d.getLsbD 1) s)
  | reset : Effect o s .reset { State.powerOn s.params with turns := s.turns, trace := s.trace }

theorem tickEvent_effect (o : SineOracle) (s : State) : ∃ u, Effect o s .tick u ∧ Quiet u (tickEvent s) := by
  rcases tickEvent_cases s with ⟨_, h⟩ | ⟨hr, _, h⟩ | ⟨hr, _, h⟩ <;> rw [h]
  · exact ⟨s, .nothing _, .refl s⟩
  · exact ⟨_, .latchTick hr, .refl _⟩
  · exact ⟨_, .countMiss hr, quiet_report _ _⟩

theorem convDoneEvent_effect (o : SineOracle) (ch : BitVec 4) (x : BitVec 12) (s : State) :
    ∃ u, Effect o s (.convDone ch x) u ∧ Quiet u (convDoneEvent (chanOf ch) x s) := by
  rcases convDoneEvent_cases (chanOf ch) x s with ⟨_, h⟩ | ⟨_, _, h⟩ | ⟨ha, hr, he, hp, h⟩ | ⟨ha, hr, he, _, h⟩ <;> rw [h]
  · exact ⟨s, .nothing _, quiet_report _ s⟩
  · exact ⟨s, .nothing _, .refl s⟩
  · refine ⟨_, .latchResult ch x (s.acq[chanOf ch].ovr + 1) ha hr he, ?_⟩
    rw [← hp]
    exact quiet_report _ _
  · exact ⟨_, .latchResult ch x s.acq[chanOf ch].ovr ha hr he, .refl _⟩

theorem hostWriteWith_effect (o : SineOracle) (addr : HAddr) (d : Word) (s : State) :
    ∃ u, Effect o s (.hostWr addr d) u ∧ Quiet u (hostWriteWith o addr d s) := by
  rcases hostWriteWith_cases o addr d s with ⟨k, _, h⟩ | ⟨_, _, h⟩ | ⟨h4, ha, hr, hv, h⟩ | ⟨r, _, _, hr, h⟩ <;> rw [h]
  · exact ⟨s, .nothing _, quiet_refuseAccess k s⟩
  · exact ⟨s, .nothing _, quiet_writeStatus 0 d s⟩
  · cases addr_of_ctrl h4 ha
    unfold ctrlWrite
    split
    · exact ⟨_, .start d hr ‹_› (hv ‹_›), quiet_answerAccess _ _⟩
    · exact ⟨_, .setOnce d hr, quiet_answerAccess _ _⟩
  · exact ⟨_, .writeCfg addr r d hr, quiet_answerAccess _ _⟩

/-- Every operation has one of the effects, and beyond it only reports, answers or takes the snapshot. -/
theorem eventResultWith_effect (o : SineOracle) (i : Instr) (s : State) :
    ∃ u, Effect o s i u ∧ Quiet u (eventResultWith o i s) := by
  cases i with
  | tick => exact tickEvent_effect o s
  | convDone ch x => exact convDoneEvent_effect o ch x s
  | hostWr addr d => exact hostWriteWith_effect o addr d s
  | hostRd addr => exact ⟨s, .nothing _, quiet_hostRead addr s⟩
  | reset => exact ⟨_, .reset, .reset, 0, [.resetDone], rfl⟩

/-- What a step can do: a quiet change, an operation's effect, or an enabled service, each after the turn is taken off. -/
inductive Move (o : SineOracle) (s : State) : State → Prop
  | quiet {t : State} : Quiet (dropTurn s) t → Move o s t
  | event {w : EventWord} {rest : List Turn} {i : Instr} {u t : State} : s.turns = .word w :: rest → decode w = .ok i →
      Effect o (dropTurn s) i u → Quiet u t → Move o s t
  | tick : tickEnabled s = true → Move o s (tickServiceWith o (dropTurn s))
  | acq (a : Chan) : acqEnabled s a = true → Move o s (acqService a (dropTurn s))

theorem stepWith_move {o : SineOracle} {s t : State} (h : stepWith o s = .next t) : Move o s t := by
  rw [stepWith_eq] at h
  cases h
  rcases stepResultBy_cases (eventResultWith o) (tickServiceWith o) s with ⟨w, rest, hw, h⟩ | ⟨ht, h⟩ | ⟨a, ha, h⟩ | h <;>
    rw [stepResultWith, h]
  · rcases wordResultBy_cases (eventResultWith o) w (dropTurn s) with ⟨i, hi, h⟩ | ⟨_, _, h⟩ <;> rw [h]
    · obtain ⟨u, hu, hq⟩ := eventResultWith_effect o i (dropTurn s)
      exact .event hw hi hu hq
    · exact .quiet (quiet_report _ _)
  · exact .tick ht
  · exact .acq a ha
  · exact .quiet (.refl _)

theorem step_move {s t : State} (h : step s = .next t) : Move s.params.sine s t :=
  stepWith_move (Scope.step_eq_stepWith s ▸ h)

/-! ## The invariants -/

theorem safe_of_quiet {s t : State} (hs : Safe s) (hq : Quiet s t) : Safe t := by
  obtain ⟨err, snap, events, rfl⟩ := hq
  exact { hs with }

/-- The working state at its reset values (44_host_access.md R214). -/
def Fresh (s : State) : Prop :=
  s.tick = .reset ∧ s.pwm = .reset ∧ s.mem = [] ∧ s.dlmissCnt = 0 ∧ s.tickPend = false ∧
  (∀ c : Chan, s.syn[c] = { SynChannel.reset with cfg := s.syn[c].cfg }) ∧
  (∀ a : Chan, s.acq[a] = { AcqChannel.reset with cfg := s.acq[a].cfg })

theorem fresh_powerOn (p : Params) : Fresh (State.powerOn p) :=
  ⟨rfl, rfl, rfl, rfl, rfl, fun c => by simp [State.powerOn], fun a => by simp [State.powerOn]⟩

/-- While CONFIGURING, the reset values of the working state are all that the invariants ask. -/
theorem safe_of_fresh {s : State} (hr : s.run = .configuring) (h : Fresh s) : Safe s := by
  have hnot : s.run ≠ .running := by rw [hr]; decide
  have hfresh := h
  obtain ⟨htick, _, hmem, _, _, hsyn, hacq⟩ := h
  exact {
    memory_canonical := by rw [hmem]; exact ⟨.nil, by simp⟩
    phase_in_turn := fun c => by rw [hsyn c]; exact ⟨le_rfl, zero_le_one⟩
    inc_nonneg := fun c => by rw [hsyn c]; exact le_rfl
    out_bounded := fun c => by rw [hsyn c]; exact Nat.zero_le _
    index_in_table := fun c => by rw [hsyn c]; exact lt_max_of_lt_right one_pos
    widx_in_buffer := fun a => by rw [hacq a]; exact lt_max_of_lt_right one_pos
    live_sub_in_range := by rw [htick]; exact lt_max_of_lt_right one_pos
    trig_sub_in_range := by rw [htick]; exact lt_max_of_lt_right one_pos
    pending_is_armed := fun a hp => by rw [hacq a] at hp; cases hp
    table_tail_zero := fun c k _ => by rw [hmem, readLut_nil]
    buffer_tail_zero := fun a k _ => by rw [hmem, readBuf_nil]
    running_is_valid := fun hc => absurd hc hnot
    running_inc_latched := fun hc => absurd hc hnot
    configuring_is_fresh := fun _ => hfresh }

/-- A configuration write changes only the `cfg` of each channel. -/
theorem fresh_writeCfg {s : State} (r : CfgReg) (d : Word) (h : Fresh s) : Fresh (writeCfg r d s) := by
  obtain ⟨htick, hpwm, hmem, hdl, hpend, hsyn, hacq⟩ := h
  refine ⟨by simpa, by simpa, by simpa, by simpa, by simpa, fun c => ?_, fun a => ?_⟩
  · have hsynCfg (d : Chan) (f : SynCfg → SynCfg) : (mapSynCfg d f s).syn[c] =
        { SynChannel.reset with cfg := (mapSynCfg d f s).syn[c].cfg } := by
      rw [mapSynCfg_syn]
      split
      · rw [hsyn c]
      · exact hsyn c
    cases r
    case synMode | synFreq | synAmp | synOffset | synOutmax | synLutN | synGain | synShift => exact hsynCfg _ _
    all_goals exact hsyn c
  · have hacqCfg (d : Chan) (f : AcqCfg → AcqCfg) : (mapAcqCfg d f s).acq[a] =
        { AcqChannel.reset with cfg := (mapAcqCfg d f s).acq[a].cfg } := by
      rw [mapAcqCfg_acq]
      split
      · rw [hacq a]
      · exact hacq a
    cases r
    case acqCtrl | acqCap => exact hacqCfg _ _
    all_goals exact hacq a

/-- START's validation of the tables and the buffers (R215). -/
theorem startValid_iff (s : State) : startValid s = true ↔
    s.cfg.tickPNs ≠ 0 ∧
    (∀ c : Chan, c.val < s.params.nsyn → s.syn[c].cfg.mode = 3 →
      1 ≤ s.syn[c].cfg.lutN.toNat ∧ s.syn[c].cfg.lutN.toNat ≤ lutMaxN) ∧
    (∀ a : Chan, a.val < s.params.nacq → s.acq[a].cfg.en = 1 →
      1 ≤ s.acq[a].cfg.cap.toNat ∧ s.acq[a].cfg.cap.toNat ≤ acqMaxC) := by
  simp only [startValid, Bool.and_eq_true, decide_eq_true_eq, List.all_eq_true, mem_channels, and_assoc]

/-- The validation reads the configuration alone. -/
theorem startValid_of_same_config {s t : State} (h : startValid s = true) (hp : t.params = s.params)
    (hcfg : t.cfg.tickPNs = s.cfg.tickPNs) (hsyn : ∀ c : Chan, t.syn[c].cfg = s.syn[c].cfg)
    (hacq : ∀ a : Chan, t.acq[a].cfg = s.acq[a].cfg) : startValid t = true := by
  rw [startValid_iff] at *
  simpa only [hp, hcfg, hsyn, hacq] using h

/-! ### Acquisition channels -/

theorem setAcq_acq_cfg {a : Chan} {ch : AcqChannel} {s : State} (h : ch.cfg = s.acq[a].cfg) (b : Chan) :
    (setAcq a ch s).acq[b].cfg = s.acq[b].cfg := by
  rw [setAcq_acq, chan_get_set]
  split
  · rename_i hab; rw [← hab, h]
  · rfl

theorem safe_setAcq {s : State} (hs : Safe s) (hr : s.run = .running) {a : Chan} {ch : AcqChannel}
    (hcfg : ch.cfg = s.acq[a].cfg) (hwidx : ch.widx < max ch.cfg.cap.toNat 1)
    (hpend : ch.pend = true → a.val < s.params.nacq ∧ ch.cfg.en = 1) : Safe (setAcq a ch s) := by
  have hget (b : Chan) : (setAcq a ch s).acq[b] = if a = b then ch else s.acq[b] := chan_get_set _ _ _ _
  have hcfgs := setAcq_acq_cfg (s := s) hcfg
  exact { hs with
    widx_in_buffer := fun b => by
      rw [hget]
      split
      · exact hwidx
      · exact hs.widx_in_buffer b
    pending_is_armed := fun b hb => by
      rw [hget] at hb ⊢
      split at hb
      · rename_i h
        subst h
        rw [if_pos rfl]
        exact hpend hb
      · rw [if_neg ‹_›]
        exact hs.pending_is_armed b hb
    buffer_tail_zero := fun b k hk => hs.buffer_tail_zero b k (hcfgs b ▸ hk)
    running_is_valid := fun _ => startValid_of_same_config (hs.running_is_valid hr) rfl rfl (fun _ => rfl) hcfgs
    configuring_is_fresh := fun hc => by cases hr.symm.trans hc }

/-- A slot below the capacity may be written. -/
theorem safe_writeBuf {s : State} (hs : Safe s) (hr : s.run = .running) {a : Chan} {k : ℕ} (v : BitVec 12)
    (hk : k < s.acq[a].cfg.cap.toNat) : Safe { s with mem := writeBuf a k v s.mem } :=
  { hs with
    memory_canonical := writeBuf_wf hs.memory_canonical
    table_tail_zero := fun c j hj => by rw [readLut_writeBuf]; exact hs.table_tail_zero c j hj
    buffer_tail_zero := fun b j (hj : s.acq[b].cfg.cap.toNat ≤ j) => by
      rw [readBuf_writeBuf_of_ne]
      · exact hs.buffer_tail_zero b j hj
      · by_cases hab : a = b
        · subst hab; exact .inr (by omega)
        · exact .inl hab
    configuring_is_fresh := fun hc => by cases hr.symm.trans hc }

theorem isRunning_iff (s : State) : isRunning s = true ↔ s.run = .running := by simp [isRunning]

theorem run_of_tickEnabled {s : State} (h : tickEnabled s = true) : s.run = .running := by
  simp only [tickEnabled, tickReady, Bool.and_eq_true, isRunning_iff] at h
  exact h.1.1

theorem acqReady_of_acqEnabled {s : State} {a : Chan} (h : acqEnabled s a = true) :
    s.run = .running ∧ a.val < s.params.nacq ∧ s.acq[a].pend = true := by
  simp only [acqEnabled, acqReady, Bool.and_eq_true, isRunning_iff, decide_eq_true_eq] at h
  exact ⟨h.1.1.1, h.1.1.2, h.1.2⟩

theorem nextWidx_lt {cap widx : ℕ} (hc : 1 ≤ cap) (h : widx < cap) : nextWidx cap widx < cap := by
  unfold nextWidx; split <;> omega

theorem safe_acqService {s : State} (hs : Safe s) {a : Chan} (ha : acqEnabled s a = true) : Safe (acqService a s) := by
  obtain ⟨hr, han, hp⟩ := acqReady_of_acqEnabled ha
  obtain ⟨_, hen⟩ := hs.pending_is_armed a hp
  obtain ⟨hcap, _⟩ := ((startValid_iff s).1 (hs.running_is_valid hr)).2.2 a han hen
  have hw : s.acq[a].widx < s.acq[a].cfg.cap.toNat := by have := hs.widx_in_buffer a; omega
  exact safe_setAcq (safe_writeBuf hs hr _ hw) hr rfl (lt_max_of_lt_left (nextWidx_lt hcap hw)) fun h => by cases h

/-! ### TICK_SERVICE -/

theorem subCounter_lt {div : Word} {n : ℕ} (h : n < max div.toNat 1) :
    (if div = 0 then n else if div.toNat ≤ n + 1 then 0 else n + 1) < max div.toNat 1 := by
  split_ifs <;> omega

theorem phaseStep_range {inc phase : ℚ} (hi : 0 ≤ inc) (hp : 0 ≤ phase) :
    0 ≤ phaseStep inc phase ∧ phaseStep inc phase ≤ 1 := by
  unfold phaseStep
  split
  · exact ⟨le_rfl, zero_le_one⟩
  · exact ⟨add_nonneg hp hi, le_of_not_gt ‹_›⟩

theorem nextIndex_lt {n index : ℕ} (hn : 1 ≤ n) (h : index < n) : nextIndex n index < n := by
  unfold nextIndex; split <;> omega

/-- The ranges of a channel's working state (R49 to R52). -/
def ChannelInRange (ch : SynChannel) : Prop :=
  (0 ≤ ch.phase ∧ ch.phase ≤ 1) ∧ ch.out ≤ ch.cfg.outmax.toNat ∧ ch.index < max ch.cfg.lutN.toNat 1

theorem channelInRange_tickedChannel {o : SineOracle} {m : Memory} {e : ℕ} {c : Chan} {ch : SynChannel}
    (h : ChannelInRange ch) (hinc : 0 ≤ ch.inc) (hn : ch.cfg.mode = 3 → 1 ≤ ch.cfg.lutN.toNat) :
    ChannelInRange (tickedChannel o m e c ch) := by
  unfold tickedChannel
  split
  · exact h
  obtain ⟨hphase, hout, hindex⟩ := h
  unfold synStep
  split
  · exact ⟨hphase, hout, hindex⟩
  · exact ⟨phaseStep_range hinc hphase.1, toOutput_le _ _, hindex⟩
  · exact ⟨hphase, toOutput_le _ _, hindex⟩
  · have := hn ‹_›
    exact ⟨hphase, toOutput_le _ _, lt_max_of_lt_left (nextIndex_lt this (by omega))⟩

theorem tickServiceWith_syn_cfg (o : SineOracle) (s : State) (c : Chan) :
    (tickServiceWith o s).syn[c].cfg = s.syn[c].cfg := by
  rw [tickServiceWith_syn, apply_ite SynChannel.cfg, tickedChannel_cfg, ite_self]

theorem tickServiceWith_syn_inc (o : SineOracle) (s : State) (c : Chan) :
    (tickServiceWith o s).syn[c].inc = s.syn[c].inc := by
  rw [tickServiceWith_syn, apply_ite SynChannel.inc, tickedChannel_inc, ite_self]

theorem channelInRange_tickServiceWith {s : State} (hs : Safe s) (hr : s.run = .running) (o : SineOracle) (c : Chan) :
    ChannelInRange (tickServiceWith o s).syn[c] := by
  have h : ChannelInRange s.syn[c] := ⟨hs.phase_in_turn c, hs.out_bounded c, hs.index_in_table c⟩
  obtain ⟨_, hlut, _⟩ := (startValid_iff s).1 (hs.running_is_valid hr)
  rw [tickServiceWith_syn]
  split
  · exact channelInRange_tickedChannel h (hs.inc_nonneg c) fun hm => (hlut c ‹_› hm).1
  · exact h

/-- The channels may move within their ranges, and the tick's own state within its dividers. -/
theorem safe_of_ticked {s t : State} (hs : Safe s) (hr : s.run = .running)
    (hframe : t = { s with tick := t.tick, tickPend := t.tickPend, pwm := t.pwm, syn := t.syn, trace := t.trace })
    (hrange : ∀ c : Chan, ChannelInRange t.syn[c]) (hcfg : ∀ c : Chan, t.syn[c].cfg = s.syn[c].cfg)
    (hinc : ∀ c : Chan, t.syn[c].inc = s.syn[c].inc) (hlive : t.tick.liveSub < max s.cfg.liveDiv.toNat 1)
    (htrig : t.tick.trigSub < max s.cfg.trigDiv.toNat 1) : Safe t := by
  rw [hframe]
  exact { hs with
    phase_in_turn := fun c => (hrange c).1
    inc_nonneg := fun c => (hinc c).symm ▸ hs.inc_nonneg c
    out_bounded := fun c => (hrange c).2.1
    index_in_table := fun c => (hrange c).2.2
    live_sub_in_range := hlive
    trig_sub_in_range := htrig
    table_tail_zero := fun c k hk => hs.table_tail_zero c k (hcfg c ▸ hk)
    running_is_valid := fun _ => startValid_of_same_config (hs.running_is_valid hr) rfl rfl hcfg fun _ => rfl
    running_inc_latched := fun _ c hc => by
      rw [hinc, hcfg]
      exact hs.running_inc_latched hr c hc
    configuring_is_fresh := fun hc => by cases hr.symm.trans hc }

theorem safe_tickServiceWith {s : State} (hs : Safe s) (hr : s.run = .running) (o : SineOracle) :
    Safe (tickServiceWith o s) := by
  refine safe_of_ticked hs hr (tickServiceWith_frame o s) (channelInRange_tickServiceWith hs hr o)
    (tickServiceWith_syn_cfg o s) (tickServiceWith_syn_inc o s) ?_ ?_ <;> rw [tickServiceWith_tick]
  · exact subCounter_lt hs.live_sub_in_range
  · exact subCounter_lt hs.trig_sub_in_range

/-! ### START -/

theorem incrementOf_nonneg (cfg : SynCfg) (p : Word) : 0 ≤ incrementOf cfg p := by
  unfold incrementOf; positivity

/-- The storage that START builds. -/
theorem start_mem (o : SineOracle) (once : Bool) (s : State) :
    (start o once s).mem = (channels s.params.nsyn).foldl (fun m c => builtMem o s.syn[c].cfg c m) s.mem := by
  rw [(start_eq o once s).1]

theorem start_mem_wf {s : State} (o : SineOracle) (once : Bool) (h : s.mem.wf) : (start o once s).mem.wf := by
  rw [start_mem]
  exact (builtMem_fold o s.syn _ (channels_nodup _) _).1 h

theorem readBuf_start (o : SineOracle) (once : Bool) (s : State) (a : Chan) (k : ℕ) :
    readBuf (start o once s).mem a k = readBuf s.mem a k := by
  rw [start_mem]
  exact (builtMem_fold o s.syn _ (channels_nodup _) _).2.1 a k

theorem readLut_start (o : SineOracle) (once : Bool) (s : State) (c : Chan) (k : ℕ) :
    readLut (start o once s).mem c k =
      if c.val < s.params.nsyn ∧ s.syn[c].cfg.mode = 3 then
        if k < min s.syn[c].cfg.lutN.toNat lutMaxN then clamp (lutRaw o s.syn[c].cfg k) (-32768) 32767 else 0
      else readLut s.mem c k := by
  simp only [start_mem, (builtMem_fold o s.syn _ (channels_nodup _) _).2.2, mem_channels]

/-- START latches the increment of every channel that exists. -/
theorem start_syn (o : SineOracle) (once : Bool) (s : State) (c : Chan) :
    (start o once s).syn[c] =
      if c.val < s.params.nsyn then { s.syn[c] with inc := incrementOf s.syn[c].cfg s.cfg.tickPNs } else s.syn[c] :=
  (start_eq o once s).2 c

theorem start_syn_cfg (o : SineOracle) (once : Bool) (s : State) (c : Chan) :
    (start o once s).syn[c].cfg = s.syn[c].cfg := by
  rw [start_syn, apply_ite SynChannel.cfg, ite_self]

/-- From reset values, START's tables hold 0 beyond N and on every channel that has none. -/
theorem readLut_start_tail {s : State} (hmem : s.mem = []) (o : SineOracle) (once : Bool) {c : Chan} {k : ℕ}
    (h : s.syn[c].cfg.mode ≠ 3 ∨ s.syn[c].cfg.lutN.toNat ≤ k) : readLut (start o once s).mem c k = 0 := by
  rw [readLut_start, hmem, readLut_nil]
  split_ifs with hm hk
  · exact h.elim (absurd hm.2) fun hN => absurd (lt_min_iff.1 hk).1 hN.not_gt
  · rfl
  · rfl

theorem safe_start {s : State} (hs : Safe s) (hr : s.run = .configuring) (hv : startValid s = true) (o : SineOracle)
    (once : Bool) : Safe (start o once s) := by
  obtain ⟨_, _, hmem, _, _, hsyn, _⟩ := hs.configuring_is_fresh hr
  have hget := start_syn o once s
  have hcfg := start_syn_cfg o once s
  have hwf := start_mem_wf o once hs.memory_canonical
  have hlut (c : Chan) (k : ℕ) := readLut_start_tail (c := c) (k := k) hmem o once
  have hbuf := readBuf_start o once s
  rw [start_mem] at hwf hlut hbuf
  rw [(start_eq o once s).1]
  generalize start o once s = t at *
  generalize List.foldl _ s.mem _ = m at *
  exact { hs with
    memory_canonical := hwf
    phase_in_turn := fun c => by
      rw [hget, apply_ite SynChannel.phase, ite_self]; exact hs.phase_in_turn c
    inc_nonneg := fun c => by
      rw [hget, apply_ite SynChannel.inc]
      split
      · exact incrementOf_nonneg _ _
      · exact hs.inc_nonneg c
    out_bounded := fun c => by
      rw [hcfg, hget, apply_ite SynChannel.out, ite_self]; exact hs.out_bounded c
    index_in_table := fun c => by
      rw [hcfg, hget, apply_ite SynChannel.index, ite_self]; exact hs.index_in_table c
    table_tail_zero := fun c k hk => hlut c k (hcfg c ▸ hk)
    buffer_tail_zero := fun a k hk => (hbuf a k).trans (hs.buffer_tail_zero a k hk)
    running_is_valid := fun _ => startValid_of_same_config hv rfl rfl hcfg fun _ => rfl
    running_inc_latched := fun _ c hc => by rw [hcfg, hget, if_pos hc]
    configuring_is_fresh := fun hc => by cases hc }

/-! ### Every step -/

theorem safe_effect {o : SineOracle} {s u : State} {i : Instr} (hs : Safe s) (h : Effect o s i u) : Safe u := by
  cases h with
  | nothing => exact hs
  | latchTick hr => exact { hs with configuring_is_fresh := fun hc => by cases hr.symm.trans hc }
  | countMiss hr => exact { hs with configuring_is_fresh := fun hc => by cases hr.symm.trans hc }
  | latchResult ch x ovr ha hr he => exact safe_setAcq hs hr rfl (hs.widx_in_buffer _) fun _ => ⟨ha, he⟩
  | setOnce d hr => exact safe_of_fresh hr (hs.configuring_is_fresh hr)
  | writeCfg addr r d hr =>
    exact safe_of_fresh ((writeCfg_run r d s).trans hr) (fresh_writeCfg r d (hs.configuring_is_fresh hr))
  | start d hr _ hv => exact safe_start hs hr hv o _
  | reset => exact safe_of_fresh rfl (fresh_powerOn s.params)

theorem safe_move {o : SineOracle} {s t : State} (hs : Safe s) (h : Move o s t) : Safe t := by
  have hd : Safe (dropTurn s) := { hs with }
  cases h with
  | quiet hq => exact safe_of_quiet hd hq
  | event _ _ hu hq => exact safe_of_quiet (safe_effect hd hu) hq
  | tick ht => exact safe_tickServiceWith hd (run_of_tickEnabled ht) o
  | acq a ha => exact safe_acqService hd ha

/-- Settles O59: each move keeps the invariants, a quiet one because they speak of nothing it changes. -/
theorem stepKeepsSafe : Obligations.StepKeepsSafe :=
  ⟨fun _ _ hs h => safe_move hs (step_move h), fun _ _ _ hs h => safe_move hs (stepWith_move h)⟩

/-- Settles O58: the reset values are all that the invariants ask while CONFIGURING. -/
theorem powerOnIsSafe : Obligations.PowerOnIsSafe := fun p => safe_of_fresh rfl (fresh_powerOn p)

/-! ## The moves and the trace -/

theorem step_of_turn {s : State} (t : Turn) : step { s with turns := t :: s.turns } = takeTurn t s := rfl

/-- Settles O7: a turn placed in front is taken next, and each case of the inversion is one of the moves. -/
theorem stepsAreTheInterleavings : Obligations.StepsAreTheInterleavings := by
  intro s
  refine ⟨fun w => step_of_turn (.word w), fun ht => ?_, fun a ha => ?_, fun t h => ?_⟩
  · rw [step_of_turn, takeTurn, takeTurnBy, if_pos ht]
  · rw [step_of_turn, takeTurn, takeTurnBy, if_pos ha]
  · rw [step_eq] at h
    cases h
    rcases stepResultBy_cases eventResult tickService s with ⟨w, rest, hw, h⟩ | ⟨ht, h⟩ | ⟨a, ha, h⟩ | h <;>
      rw [stepResult, h]
    · rw [dropTurn_of_cons hw]
      exact .inl ⟨w, rest, hw, acceptWord_eq w _⟩
    · exact .inr (.inl ⟨ht, rfl⟩)
    · exact .inr (.inr (.inl ⟨a, ha, rfl⟩))
    · exact .inr (.inr (.inr rfl))

/-- `t` has the turns and the parameters of `s`, and a trace that begins with that of `s`. -/
def Continues (s t : State) : Prop :=
  t.turns = s.turns ∧ t.params = s.params ∧ ∃ events, t.trace = s.trace ++ events

theorem Continues.refl (s : State) : Continues s s := ⟨rfl, rfl, [], (List.append_nil _).symm⟩

theorem Continues.trans {s t u : State} (h : Continues s t) (h' : Continues t u) : Continues s u := by
  obtain ⟨ht, hp, es, he⟩ := h
  obtain ⟨ht', hp', es', he'⟩ := h'
  exact ⟨ht'.trans ht, hp'.trans hp, es ++ es', by rw [he', he, List.append_assoc]⟩

theorem continues_of_quiet {s t : State} (h : Quiet s t) : Continues s t := by
  obtain ⟨_, _, events, rfl⟩ := h
  exact ⟨rfl, rfl, events, rfl⟩

theorem continues_of_effect {o : SineOracle} {s u : State} {i : Instr} (h : Effect o s i u) : Continues s u := by
  cases h with
  | writeCfg addr r d _ => exact ⟨writeCfg_turns r d s, writeCfg_params r d s, [], by rw [writeCfg_trace, List.append_nil]⟩
  | start d _ _ _ =>
    rw [(start_eq o _ s).1]
    exact ⟨rfl, rfl, _, rfl⟩
  | _ => exact ⟨rfl, rfl, [], (List.append_nil _).symm⟩

theorem continues_tickServiceWith (o : SineOracle) (s : State) : Continues s (tickServiceWith o s) := by
  refine ⟨tickServiceWith_turns o s, tickServiceWith_params o s, ?_⟩
  rw [tickServiceWith_trace]
  simp only [List.append_assoc]
  exact ⟨_, rfl⟩

theorem continues_move {o : SineOracle} {s t : State} (h : Move o s t) : Continues (dropTurn s) t := by
  cases h with
  | quiet hq => exact continues_of_quiet hq
  | event _ _ hu hq => exact (continues_of_effect hu).trans (continues_of_quiet hq)
  | tick _ => exact continues_tickServiceWith o _
  | acq a _ => exact .refl _

/-- Settles O8: `step` is total, and each move continues the state whose turn it took. -/
theorem everyStateSteps : Obligations.EveryStateSteps :=
  ⟨fun s => ⟨_, step_eq s, continues_move (step_move (step_eq s))⟩,
    fun o s => ⟨_, stepWith_eq o s, continues_move (stepWith_move (stepWith_eq o s))⟩⟩

/-! ## The storage -/

theorem wf_of_effect {o : SineOracle} {s u : State} {i : Instr} (hs : s.mem.wf) (h : Effect o s i u) : u.mem.wf := by
  cases h with
  | writeCfg addr r d _ => rw [writeCfg_mem]; exact hs
  | start d _ _ _ => exact start_mem_wf o _ hs
  | reset => exact ⟨.nil, by simp [State.powerOn]⟩
  | _ => exact hs

/-- Settles O60: only START, RESET and ACQ_SERVICE write the storage, and each keeps it canonical. -/
theorem stepKeepsMemoryCanonical : Obligations.StepKeepsMemoryCanonical := by
  intro s t hs h
  have hd : (dropTurn s).mem.wf := hs
  cases step_move h with
  | quiet hq => obtain ⟨_, _, _, rfl⟩ := hq; exact hd
  | event _ _ hu hq =>
    have hwf := wf_of_effect hd hu
    obtain ⟨_, _, _, rfl⟩ := hq
    exact hwf
  | tick _ => rw [tickServiceWith_mem]; exact hd
  | acq a _ => exact writeBuf_wf hd

/-! ## The run state and the frozen configuration -/

theorem configView_congr {s t : State} (hcfg : t.cfg = s.cfg) (hsyn : ∀ c : Chan, t.syn[c].cfg = s.syn[c].cfg)
    (hinc : ∀ c : Chan, t.syn[c].inc = s.syn[c].inc) (hacq : ∀ a : Chan, t.acq[a].cfg = s.acq[a].cfg) :
    configView t = configView s := by
  have hs : t.syn.map (fun ch => (ch.cfg, ch.inc)) = s.syn.map (fun ch => (ch.cfg, ch.inc)) := chan_ext fun c => by
    simpa using ⟨hsyn c, hinc c⟩
  have ha : t.acq.map (fun ch => ch.cfg) = s.acq.map (fun ch => ch.cfg) := chan_ext fun a => by simpa using hacq a
  rw [configView, configView, hcfg, hs, ha]

theorem configView_setAcq {a : Chan} {ch : AcqChannel} {s : State} (h : ch.cfg = s.acq[a].cfg) :
    configView (setAcq a ch s) = configView s :=
  configView_congr rfl (fun _ => rfl) (fun _ => rfl) (setAcq_acq_cfg h)

/-- Beyond RESET, no operation touches the configuration of a RUNNING block. -/
theorem configView_of_effect {o : SineOracle} {s u : State} {i : Instr} (hs : s.run = .running) (hu : u.run = .running)
    (h : Effect o s i u) : configView u = configView s := by
  have hconf : s.run ≠ .configuring := by rw [hs]; decide
  cases h with
  | latchResult ch x ovr _ _ _ => exact configView_setAcq rfl
  | setOnce _ hr | writeCfg _ _ _ hr | start _ hr _ _ => exact absurd hr hconf
  | reset => cases hu
  | _ => rfl

/-- Settles O53: a RUNNING block moves only its latches and its services, and those keep the configuration. -/
theorem configurationIsFrozenWhileRunning : Obligations.ConfigurationIsFrozenWhileRunning := by
  intro s t h hs ht
  cases step_move h with
  | quiet hq => obtain ⟨_, _, _, rfl⟩ := hq; rfl
  | event _ _ hu hq =>
    have hview := fun hrun => configView_of_effect (s := dropTurn s) hs hrun hu
    obtain ⟨_, _, _, rfl⟩ := hq
    exact hview ht
  | tick _ =>
    exact configView_congr (tickServiceWith_cfg _ _) (tickServiceWith_syn_cfg _ _) (tickServiceWith_syn_inc _ _)
      fun a => by rw [tickServiceWith_acq]; rfl
  | acq a _ => exact configView_setAcq (s := { dropTurn s with mem := _ }) rfl

/-- RUNSTATE changes by START and by RESET. -/
theorem run_of_effect {o : SineOracle} {s u : State} {i : Instr} (h : Effect o s i u) :
    u.run = s.run ∨ (i = .reset ∧ u.run = .configuring) ∨
    (s.run = .configuring ∧ ∃ d, i = .hostWr 0x00008 d ∧ d.getLsbD 0 = true ∧ startValid s = true) := by
  cases h with
  | writeCfg addr r d _ => exact .inl (writeCfg_run r d s)
  | start d hr hd hv => exact .inr (.inr ⟨hr, d, rfl, hd, hv⟩)
  | reset => exact .inr (.inl ⟨rfl, rfl⟩)
  | _ => exact .inl rfl

theorem run_of_move {o : SineOracle} {s t : State} (h : Move o s t) :
    t.run = s.run ∨ ∃ w rest i, s.turns = .word w :: rest ∧ decode w = .ok i ∧
      ((i = .reset ∧ t.run = .configuring) ∨
       (s.run = .configuring ∧ ∃ d, i = .hostWr 0x00008 d ∧ d.getLsbD 0 = true ∧ startValid s = true)) := by
  cases h with
  | quiet hq => obtain ⟨_, _, _, rfl⟩ := hq; exact .inl rfl
  | event hw hi hu hq =>
    obtain ⟨_, _, _, rfl⟩ := hq
    exact (run_of_effect hu).imp_right fun h => ⟨_, _, _, hw, hi, h⟩
  | tick _ => exact .inl (tickServiceWith_run o _)
  | acq a _ => exact .inl rfl

/-- A word is its four fields, from the most significant down (30_encoding.md R91, R92). -/
theorem word_eq_fields (w : EventWord) :
    w = opField w ++ w.extractLsb' 52 8 ++ addrField w ++ dataField w := by
  simp only [opField, addrField, dataField]
  rw [BitVec.extractLsb'_append_extractLsb'_eq_extractLsb' (by rfl),
    BitVec.extractLsb'_append_extractLsb'_eq_extractLsb' (by rfl),
    BitVec.extractLsb'_append_extractLsb'_eq_extractLsb' (by rfl), BitVec.extractLsb'_eq_self]

/-- HOST_WR has one spelling. -/
theorem encode_of_decode_hostWr {w : EventWord} {addr : HAddr} {d : Word} (h : decode w = .ok (.hostWr addr d)) :
    w = encode (.hostWr addr d) := by
  have hw := word_eq_fields w
  unfold decode at h
  split at h
  case h_4 hop =>
    split at h
    · cases h
      rename_i hzero
      rwa [hop, hzero] at hw
    · cases h
  case h_1 | h_6 => cases h
  case h_2 | h_3 | h_5 => split at h <;> cases h

/-- Settles O54: a move that changes RUNSTATE accepted START's word or a RESET. -/
theorem runStateMovesOnlyByStartAndReset : Obligations.RunStateMovesOnlyByStartAndReset := by
  intro s t h
  have hm := run_of_move (step_move h)
  refine ⟨fun hs ht => ?_, fun hs ht => ?_⟩
  · rcases hm with he | ⟨w, rest, i, hw, hi, ⟨_, hc⟩ | ⟨_, d, rfl, hd, hv⟩⟩
    · cases (ht.symm.trans he).trans hs
    · cases ht.symm.trans hc
    · exact ⟨d, rest, encode_of_decode_hostWr hi ▸ hw, hd, hv⟩
  · rcases hm with he | ⟨w, rest, i, hw, hi, ⟨rfl, _⟩ | ⟨hc, _⟩⟩
    · cases (ht.symm.trans he).trans hs
    · exact ⟨w, rest, hw, hi⟩
    · cases hs.symm.trans hc

/-! ## The services -/

/-- Settles O12: the frame of TICK_SERVICE, with the tick's own state written out. -/
theorem tickServiceCounts : Obligations.TickServiceCounts := by
  intro s
  have htick := tickServiceWith_tick s.params.sine s
  have hframe := tickService_frame s
  rw [tickService_tickPend] at hframe
  rw [← htick]
  exact hframe

/-- TICK_SERVICE reads the parameters, the configuration, the tick's own state, the modulation results, the channels and the
lookup tables; it appends to the trace and keeps the rest. -/
theorem tickServiceWith_congr {s t : State} (o : SineOracle) (hparams : t.params = s.params) (hcfg : t.cfg = s.cfg)
    (htick : t.tick = s.tick) (hpwm : t.pwm = s.pwm) (hsyn : t.syn = s.syn) (htrace : t.trace = s.trace)
    (hlut : ∀ c k, readLut t.mem c k = readLut s.mem c k) :
    tickServiceWith o t = { t with
      tick := (tickServiceWith o s).tick
      tickPend := false
      pwm := (tickServiceWith o s).pwm
      syn := (tickServiceWith o s).syn
      trace := (tickServiceWith o s).trace } := by
  have hticked (e : ℕ) (c : Chan) (ch : SynChannel) : tickedChannel o t.mem e c ch = tickedChannel o s.mem e c ch := by
    simp only [tickedChannel, synStep, lutStep, hlut]
  have hsinks (e : ℕ) (c : Chan) (ch : SynChannel) : sinkEvents o t.mem e c ch = sinkEvents o s.mem e c ch := by
    simp only [sinkEvents, hticked]
  have hadvance : (advanceTime t).tick = (advanceTime s).tick := by simp only [advanceTime, htick, hcfg]
  obtain ⟨hmod, hmodEvents⟩ := modCheck_congr (s := advanceTime t) (t := advanceTime s) hcfg hadvance hpwm
  have htick' : (tickServiceWith o t).tick = (tickServiceWith o s).tick := by
    simp only [tickServiceWith_tick, hcfg, htick]
  have hpwm' : (tickServiceWith o t).pwm = (tickServiceWith o s).pwm := by
    rw [tickServiceWith_pwm, tickServiceWith_pwm, hmod]
  have hsyn' : (tickServiceWith o t).syn = (tickServiceWith o s).syn := chan_ext fun c => by
    rw [tickServiceWith_syn, tickServiceWith_syn, hticked, hparams, htick, hsyn]
  have htrace' : (tickServiceWith o t).trace = (tickServiceWith o s).trace := by
    simp only [tickServiceWith_trace, hsinks, hmodEvents, liveEvents, trigEvents, hparams, hcfg, htick, hsyn, htrace]
  rw [tickServiceWith_frame, tickServiceWith_tickPend, htick', hpwm', hsyn', htrace']

/-- ACQ_SERVICE reads and writes nothing that TICK_SERVICE writes. -/
theorem acqService_of_ticked (a : Chan) (s : State) (tick : TickWork) (pend : Bool) (pwm : ModWork)
    (syn : Vector SynChannel 16) (trace : List OutEvent) :
    acqService a { s with tick := tick, tickPend := pend, pwm := pwm, syn := syn, trace := trace } =
      { acqService a s with tick := tick, tickPend := pend, pwm := pwm, syn := syn, trace := trace } := rfl

/-- Settles O37: TICK_SERVICE reads of the storage the lookup tables alone, and ACQ_SERVICE writes none of them. -/
theorem tickAndAcqServicesCommute : Obligations.TickAndAcqServicesCommute := by
  intro s a
  have hframe := tickServiceWith_frame s.params.sine s
  rw [tickServiceWith_tickPend] at hframe
  have htick : tickService (acqService a s) = _ := tickServiceWith_congr (s := s) s.params.sine rfl rfl rfl rfl rfl rfl
    fun c k => readLut_writeBuf a _ _ s.mem c k
  rw [htick, ← acqService_of_ticked, ← hframe, tickService]

/-! ## The error reporting is read by no one -/

/-- The state with other error reporting. -/
def withErr (e : ErrState) (s : State) : State := { s with err := e }

@[simp] theorem withErr_params (e : ErrState) (s : State) : (withErr e s).params = s.params := rfl

/-- Operation `f` gives the same next state whatever the error reporting, but for the error reporting. -/
def IgnoresErr (f : State → State) (s : State) : Prop := ∀ e, ∃ e', f (withErr e s) = withErr e' (f s)

theorem ignoresErr_tickEvent (s : State) : IgnoresErr tickEvent s := by
  intro e
  change ∃ e', (if isRunning s = false then withErr e s else if s.tickPend then _ else _) = withErr e' (tickEvent s)
  unfold tickEvent
  split_ifs <;> exact ⟨_, rfl⟩

theorem ignoresErr_convDoneEvent (a : Chan) (x : BitVec 12) (s : State) : IgnoresErr (convDoneEvent a x) s := by
  intro e
  change ∃ e', (if s.params.nacq ≤ a.val then _ else if isRunning s = false ∨ s.acq[a].cfg.en = 0 then _
    else if s.acq[a].pend then _ else _) = withErr e' (convDoneEvent a x s)
  unfold convDoneEvent
  dsimp only
  split_ifs <;> exact ⟨_, rfl⟩

theorem ignoresErr_start (o : SineOracle) (once : Bool) (s : State) : IgnoresErr (start o once) s := by
  intro e
  have hsyn : (start o once (withErr e s)).syn = (start o once s).syn := chan_ext fun c => by
    rw [start_syn, start_syn]; rfl
  have h := (start_eq o once (withErr e s)).1
  rw [hsyn] at h
  exact ⟨_, h.trans (congrArg (withErr _) (start_eq o once s).1.symm)⟩

/-- Only a read of STATUS or of LASTERR answers the error reporting. -/
theorem readValue_withErr {r : Reg} (h : r ≠ .status) (h' : r ≠ .ro .lastErr) (e : ErrState) (s : State) :
    readValue (withErr e s) r = readValue s r := by
  cases r with
  | ctrl => rfl
  | status => exact absurd rfl h
  | cfg r => cases r <;> rfl
  | ro r =>
    cases r
    case lastErr => exact absurd rfl h'
    all_goals rfl

theorem ignoresErr_hostRead {addr : HAddr} (h : addr ≠ 0x0000C) (h' : addr ≠ 0x00010) (s : State) :
    IgnoresErr (hostRead addr) s := by
  intro e
  unfold hostRead
  rw [withErr_params]
  rcases locate_cases s.params addr with ⟨_, hl⟩ | ⟨_, _, hl⟩ | ⟨r, h4, hr, hl⟩ <;> rw [hl]
  · exact ⟨_, rfl⟩
  · exact ⟨_, rfl⟩
  · have haddr := regAddr_of_regAt h4 hr
    have hstatus : r ≠ .status := by rintro rfl; exact h (BitVec.eq_of_toNat_eq haddr.symm)
    have hlast : r ≠ .ro .lastErr := by rintro rfl; exact h' (BitVec.eq_of_toNat_eq haddr.symm)
    refine ⟨e, ?_⟩
    dsimp only
    rw [readValue_withErr hstatus hlast, readEffect_eq, readEffect_eq]
    rfl

theorem ignoresErr_writeEffect (o : SineOracle) (r : Reg) (d : Word) (s : State) : IgnoresErr (writeEffect o r d) s := by
  intro e
  cases r with
  | ctrl =>
    change ∃ e', (if d.getLsbD 0 then start o (d.getLsbD 1) (withErr e s) else _) = withErr e' (ctrlWrite o d s)
    unfold ctrlWrite
    split_ifs
    · exact ignoresErr_start o _ s e
    · exact ⟨_, rfl⟩
  | status => exact ⟨_, rfl⟩
  | cfg r => exact ⟨e, by cases r <;> rfl⟩
  | ro r => exact ⟨_, rfl⟩

theorem ignoresErr_hostWriteWith (o : SineOracle) (addr : HAddr) (d : Word) (s : State) :
    IgnoresErr (hostWriteWith o addr d) s := by
  intro e
  have hcheck (r : Reg) : writeCheck (withErr e s) r d = writeCheck s r d := rfl
  unfold hostWriteWith
  simp only [hcheck, withErr_params]
  cases locate s.params addr with
  | error k => exact ⟨_, rfl⟩
  | ok r =>
    dsimp only
    cases writeCheck s r d with
    | some k => exact ⟨_, rfl⟩
    | none =>
      obtain ⟨e', he⟩ := ignoresErr_writeEffect o r d s e
      exact ⟨e', congrArg (answerAccess 0) he⟩

theorem ignoresErr_eventResultWith {i : Instr} (h : i ≠ .hostRd 0x0000C) (h' : i ≠ .hostRd 0x00010) (o : SineOracle)
    (s : State) : IgnoresErr (eventResultWith o i) s := by
  cases i with
  | tick => exact ignoresErr_tickEvent s
  | convDone ch x => exact ignoresErr_convDoneEvent _ x s
  | hostWr addr d => exact ignoresErr_hostWriteWith o addr d s
  | hostRd addr => exact ignoresErr_hostRead (fun ha => h (congrArg _ ha)) (fun ha => h' (congrArg _ ha)) s
  | reset => exact fun e => ⟨_, rfl⟩

theorem exec_withErr {i : Instr} (h : i ≠ .hostRd 0x0000C) (h' : i ≠ .hostRd 0x00010) (e : ErrState) (s : State) :
    ∃ e', exec i (withErr e s) = .next (withErr e' (eventResult i s)) := by
  obtain ⟨e', he⟩ := ignoresErr_eventResultWith h h' s.params.sine s e
  exact ⟨e', by rw [exec_eq, eventResult, withErr_params, he, eventResult]⟩

theorem withErr_of_ticked (e : ErrState) (s : State) (tick : TickWork) (pend : Bool) (pwm : ModWork)
    (syn : Vector SynChannel 16) (trace : List OutEvent) :
    withErr e { s with tick := tick, tickPend := pend, pwm := pwm, syn := syn, trace := trace } =
      { withErr e s with tick := tick, tickPend := pend, pwm := pwm, syn := syn, trace := trace } := rfl

/-- TICK_SERVICE neither reads nor writes the error reporting. -/
theorem tickService_withErr (e : ErrState) (s : State) : tickService (withErr e s) = withErr e (tickService s) := by
  have hframe := tickServiceWith_frame s.params.sine s
  rw [tickServiceWith_tickPend] at hframe
  have htick : tickService (withErr e s) = _ :=
    tickServiceWith_congr (s := s) s.params.sine rfl rfl rfl rfl rfl rfl fun _ _ => rfl
  rw [htick, ← withErr_of_ticked, ← hframe, tickService]

theorem withErr_withErr_self (e : ErrState) (s : State) : withErr s.err (withErr e s) = s := rfl

/-- Settles O57: each operation but the two reads ignores the error reporting, and the services neither read nor write it. -/
theorem errorFlagsChangeNothing : Obligations.ErrorFlagsChangeNothing := by
  intro s e
  refine ⟨fun i h h' => ?_, ?_, fun a => rfl⟩
  · obtain ⟨e', he⟩ := exec_withErr h h' e s
    exact ⟨_, _, exec_eq i s, he, withErr_withErr_self e' (eventResult i s)⟩
  · change withErr s.err (tickService (withErr e s)) = tickService s
    rw [tickService_withErr, ← tickService_err s, withErr_withErr_self]

/-! ## ELAPSED and its snapshot -/

theorem hostRead_of_regAt {s : State} {addr : HAddr} {r : Reg} (h4 : addr.toNat % 4 = 0)
    (hr : regAt s.params addr = some r) : hostRead addr s = answerAccess (readValue s r) (readEffect r s) := by
  rw [hostRead, locate_of_regAt h4 hr]

theorem iterate_tickService_snap (n : ℕ) (s : State) : (tickService^[n] s).snap = s.snap := by
  induction n with
  | zero => rfl
  | succ n ih => rw [Function.iterate_succ_apply', tickService_snap, ih]

/-- Settles O49: the read of ELAPSED_LO takes the high half along, and no TICK_SERVICE writes the snapshot. -/
theorem elapsedReadbackIsConsistent : Obligations.ElapsedReadbackIsConsistent := by
  intro s n
  set t := answerAccess (BitVec.ofNat 32 s.tick.elapsed) (snapElapsed s)
  have hlo : hostRead 0x00020 s = t := hostRead_of_regAt (r := .ro .elapsedLo) rfl rfl
  have hhi : hostRead 0x00024 (tickService^[n] t) = answerAccess (tickService^[n] t).snap (tickService^[n] t) :=
    hostRead_of_regAt (r := .ro .elapsedHi) rfl rfl
  refine ⟨t, _, congrArg Host.Outcome.next hlo, rfl, congrArg Host.Outcome.next hhi, ?_⟩
  rw [iterate_tickService_snap]
  rfl

/-! ## What the registers read -/

@[simp] theorem getLsbD_flagWord (b : Bool) (i : ℕ) : (flagWord b).getLsbD i = (b && decide (i = 0)) := by
  cases b <;> simp [flagWord]

@[simp] theorem toNat_flagWord (b : Bool) : (flagWord b).toNat = if b = true then 1 else 0 := by
  cases b <;> rfl

theorem isRunning_eq_decide (s : State) : isRunning s = decide (s.run = .running) := by
  rw [Bool.eq_iff_iff, isRunning_iff, decide_eq_true_iff]

theorem acqAnyPend_iff (s : State) : acqAnyPend s = true ↔ ∃ a : Chan, a.val < s.params.nacq ∧ s.acq[a].pend = true := by
  simp only [acqAnyPend, List.any_eq_true, mem_channels]

/-- CTRL, bit by bit (R25). -/
theorem getLsbD_ctrlWord (s : State) {i : ℕ} (hi : i < 32) :
    (ctrlWord s).getLsbD i = if i = 0 then decide (s.run = .running) else if i = 1 then s.cfg.modOnce else false := by
  simp only [ctrlWord, BitVec.getLsbD_or, BitVec.getLsbD_shiftLeft, getLsbD_flagWord, isRunning_eq_decide, hi]
  split_ifs with h0 h1
  · simp [h0]
  · simp [h1]
  · simp [h0]; omega

/-- STATUS, bit by bit (R26). -/
theorem getLsbD_statusWord (s : State) {i : ℕ} (hi : i < 32) :
    (statusWord s).getLsbD i =
      if i = 0 then decide (s.run = .running) else if i = 1 then s.tickPend
      else if i = 2 then acqAnyPend s
      else if 8 ≤ i ∧ i ≤ 14 then s.err.sticky.getLsbD (i - 8) else false := by
  simp only [statusWord, BitVec.getLsbD_or, BitVec.getLsbD_shiftLeft, BitVec.getLsbD_setWidth, getLsbD_flagWord,
    isRunning_eq_decide, hi, decide_true, Bool.true_and]
  by_cases hlow : i < 8
  · have hhigh : ¬(8 ≤ i ∧ i ≤ 14) := by omega
    simp only [hlow, hhigh, if_false]
    interval_cases i <;> simp
  · have hflags : i ≠ 0 ∧ i ≠ 1 ∧ i ≠ 2 ∧ i - 1 ≠ 0 ∧ i - 2 ≠ 0 ∧ i - 8 < 32 := by omega
    simp only [hlow, hflags, decide_true, decide_false, Bool.not_false, Bool.and_false, Bool.true_and, Bool.or_false,
      if_false]
    split_ifs
    · rfl
    · exact BitVec.getLsbD_of_ge _ _ (by omega)

theorem toNat_hwcfgWord (p : Params) :
    (hwcfgWord p).toNat = (p.nsyn - 1) + 2 ^ 4 * (p.nacq - 1) + 2 ^ 8 * 16 + 2 ^ 16 * 12 := by
  have hs := p.nsynLess1.isLt
  have ha := p.nacqLess1.isLt
  rw [hwcfgWord, BitVec.toNat_ofNat, Params.nsyn, Params.nacq, Nat.mod_eq_of_lt] <;> omega

/-- The readback of a phase in [0, 1] has 31 fraction bits (R46). -/
theorem toNat_phaseWord {phase : ℚ} (h0 : 0 ≤ phase) (h1 : phase ≤ 1) :
    ((phaseWord phase).toNat : ℤ) = ⌊phase * 2 ^ 31⌋ := by
  have hlo : 0 ≤ ⌊phase * 2 ^ 31⌋ := Int.floor_nonneg.2 (by positivity)
  have hhi : ⌊phase * 2 ^ 31⌋ ≤ 2 ^ 31 := by
    have h : (⌊phase * 2 ^ 31⌋ : ℚ) ≤ 2 ^ 31 := (Int.floor_le _).trans (by linarith)
    exact_mod_cast h
  have hfloor : (phase * 2 ^ 31).floor = ⌊phase * 2 ^ 31⌋ := rfl
  rw [phaseWord, wrap32, hfloor, BitVec.toNat_ofInt, Int.toNat_of_nonneg] <;> omega

theorem readLut_range (m : Memory) (c : Chan) (k : ℕ) : -2 ^ 15 ≤ readLut m c k ∧ readLut m c k < 2 ^ 15 := by
  unfold readLut
  split
  · exact ⟨BitVec.le_toInt _, BitVec.toInt_lt⟩
  · decide

/-- A table entry reads sign-extended (R212). -/
theorem toInt_wrap32_readLut (m : Memory) (c : Chan) (k : ℕ) : (wrap32 (readLut m c k)).toInt = readLut m c k := by
  have := readLut_range m c k
  rw [wrap32, BitVec.toInt_ofInt, Int.bmod_eq_of_le] <;> omega

theorem toNat_ofNat_of_lt_max {n : ℕ} {x : Word} (h : n < max x.toNat 1) : (BitVec.ofNat 32 n).toNat = n := by
  have := x.isLt
  rw [BitVec.toNat_ofNat, Nat.mod_eq_of_lt]
  omega

/-- In a safe state the counters and indices fit their registers, and read unwrapped. -/
theorem readValue_of_safe {s : State} (hs : Safe s) :
    (readValue s (.ro .liveCnt)).toNat = s.tick.liveSub ∧
    (∀ c : Chan, (readValue s (.ro (.synIndex c))).toNat = s.syn[c].index ∧
      (readValue s (.ro (.synOut c))).toNat = s.syn[c].out) ∧
    ∀ a : Chan, (readValue s (.ro (.acqWidx a))).toNat = s.acq[a].widx := by
  refine ⟨toNat_ofNat_of_lt_max hs.live_sub_in_range, fun c => ⟨toNat_ofNat_of_lt_max (hs.index_in_table c), ?_⟩,
    fun a => toNat_ofNat_of_lt_max (hs.widx_in_buffer a)⟩
  exact (BitVec.toNat_ofNat _ _).trans (Nat.mod_eq_of_lt ((hs.out_bounded c).trans_lt (BitVec.isLt _)))

/-- Settles O41: each register is the field it names, and each widening or packing loses nothing. -/
theorem readbackValues : Obligations.ReadbackValues := by
  intro s
  have hwiden {v w : ℕ} (x : BitVec v) (h : v ≤ w) : (x.setWidth w).toNat = x.toNat := BitVec.toNat_setWidth_of_le h
  have hstatus (i : ℕ) (hi : i < 32) := getLsbD_statusWord s hi
  simp only [Bool.eq_iff_iff.2 ((acqAnyPend_iff s).trans decide_eq_true_iff.symm)] at hstatus
  exact ⟨fun i hi => getLsbD_ctrlWord s hi, hstatus, toNat_hwcfgWord s.params, rfl, rfl,
    hwiden _ (by decide), BitVec.toNat_ofNat _ _, rfl, rfl, rfl, rfl, toNat_flagWord _, rfl, rfl, rfl, rfl, rfl,
    fun a => ⟨rfl, rfl, toNat_flagWord _, hwiden _ (by decide)⟩,
    ⟨rfl, rfl, rfl, rfl, rfl, rfl, hwiden _ (by decide), rfl, rfl, rfl, rfl, rfl⟩,
    ⟨rfl, rfl⟩,
    fun c => ⟨hwiden _ (by decide), rfl, rfl, rfl, rfl, rfl, rfl, hwiden _ (by decide)⟩,
    fun a => ⟨hwiden _ (by decide), rfl⟩,
    fun c h0 h1 => toNat_phaseWord h0 h1,
    fun c k => toInt_wrap32_readLut s.mem c k,
    fun a k => hwiden _ (by decide),
    readValue_of_safe⟩

end Sys2Proof.BlockState
end

section
/-! PROOFS. The statements of 20_memory.md: the register map, the host accesses that are refused, the reads that are
answered, and the order of two acquisition services. The map is read region by region: within one, an address determines the
register as the table of 10_state.md section 3 gives it. -/

namespace Sys2Proof.RegisterSpace

open Sys2Proof.Machine Sys2Proof.Laws Sys2Proof.BlockState

/-! ## Two acquisition services -/

theorem acqService_mem (a : Chan) (s : State) : (acqService a s).mem = writeBuf a s.acq[a].widx s.acq[a].res s.mem := rfl

/-- ACQ_SERVICE(a) keeps every other channel. -/
theorem acqService_acq_of_ne {a b : Chan} (h : a ≠ b) (s : State) : (acqService a s).acq[b] = s.acq[b] := by
  rw [acqService_acq, if_neg h]

/-- ACQ_SERVICE(a) reads its own channel alone. -/
theorem acqService_acq_self (a : Chan) {s t : State} (h : t.acq[a] = s.acq[a]) :
    (acqService a t).acq[a] = (acqService a s).acq[a] := by
  rw [acqService_acq, acqService_acq, if_pos rfl, if_pos rfl, h]

theorem acqService_acq_comm {a b : Chan} (h : a ≠ b) (s : State) :
    (acqService a (acqService b s)).acq = (acqService b (acqService a s)).acq := chan_ext fun d => by
  by_cases ha : a = d
  · subst ha
    rw [acqService_acq_of_ne h.symm (acqService a s), acqService_acq_self a (acqService_acq_of_ne h.symm s)]
  · rw [acqService_acq_of_ne ha]
    by_cases hb : b = d
    · subst hb
      rw [acqService_acq_self b (acqService_acq_of_ne h s)]
    · rw [acqService_acq_of_ne hb, acqService_acq_of_ne hb, acqService_acq_of_ne ha]

theorem acqService_mem_comm {a b : Chan} (h : a ≠ b) {s : State} (hm : s.mem.wf) :
    (acqService a (acqService b s)).mem = (acqService b (acqService a s)).mem := by
  simp only [acqService_mem, acqService_acq_of_ne h, acqService_acq_of_ne h.symm]
  exact writeBuf_comm _ _ hm h

/-- Settles O38: each service reads and writes its own channel and its own buffer. -/
theorem acqServicesCommute : Obligations.AcqServicesCommute := fun s _ _ h hm =>
  state_ext rfl rfl rfl rfl rfl rfl rfl rfl rfl rfl rfl rfl (acqService_acq_comm h s) (acqService_mem_comm h hm)

/-! ## Refused accesses (44_host_access.md R202, R203) -/

theorem exec_hostRd (addr : HAddr) (s : State) : exec (.hostRd addr) s = .next (hostRead addr s) := rfl

theorem exec_hostWr (addr : HAddr) (d : Word) (s : State) : exec (.hostWr addr d) s = .next (hostWrite addr d s) := rfl

/-- A refusal is the report of its code, at the code's own STATUS bit and number. -/
theorem refuseAccess_eq_refusedWith (k : ErrCode) (s : State) :
    refuseAccess k s = refusedWith k (stickyMask k) (codeNumber k) s := refuseAccess_eq k s

theorem locate_of_misaligned (p : Params) {addr : HAddr} (h : addr.toNat % 4 ≠ 0) :
    locate p addr = .error .busMisaligned := if_pos ((misaligned_iff addr).2 h)

theorem locate_of_unmapped {p : Params} {addr : HAddr} (h4 : addr.toNat % 4 = 0) (h : regAt p addr = none) :
    locate p addr = .error .busUnmapped := by
  rcases locate_cases p addr with ⟨hm, _⟩ | ⟨_, _, hl⟩ | ⟨r, _, hr, _⟩
  · exact absurd h4 hm
  · exact hl
  · cases h.symm.trans hr

/-- An access that fails check 1 or 2 is refused, read or write. -/
theorem exec_of_locate_error {s : State} {addr : HAddr} {k : ErrCode} (h : locate s.params addr = .error k) (d : Word) :
    exec (.hostRd addr) s = .next (refusedWith k (stickyMask k) (codeNumber k) s) ∧
    exec (.hostWr addr d) s = .next (refusedWith k (stickyMask k) (codeNumber k) s) := by
  rw [exec_hostRd, exec_hostWr, hostRead, hostWrite, hostWriteWith, h, ← refuseAccess_eq_refusedWith]
  exact ⟨rfl, rfl⟩

/-- A write that fails check 3, 4 or 5 is refused. -/
theorem exec_of_writeCheck {s : State} {addr : HAddr} {d : Word} {r : Reg} {k : ErrCode} (h4 : addr.toNat % 4 = 0)
    (hr : regAt s.params addr = some r) (hk : writeCheck s r d = some k) :
    exec (.hostWr addr d) s = .next (refusedWith k (stickyMask k) (codeNumber k) s) := by
  rw [exec_hostWr, hostWrite, hostWriteWith, locate_of_regAt h4 hr]
  dsimp only
  rw [hk, ← refuseAccess_eq_refusedWith]

theorem writeCheck_ro (s : State) (r : RoReg) (d : Word) : writeCheck s (.ro r) d = some .busReadonly := rfl

/-- While RUNNING, CTRL and the CFG registers are locked. -/
theorem writeCheck_of_running {s : State} (hs : s.run = .running) {r : Reg} (hr : r = .ctrl ∨ ∃ q, r = .cfg q) (d : Word) :
    writeCheck s r d = some .cfgLocked := by
  rcases hr with rfl | ⟨q, rfl⟩ <;> exact if_pos ((isRunning_iff s).2 hs)

theorem writeCheck_of_invalid_start {s : State} {d : Word} (hs : s.run = .configuring) (hd : d.getLsbD 0 = true)
    (hv : startValid s = false) : writeCheck s .ctrl d = some .startInvalid := by
  have hrun : isRunning s = false := by rw [isRunning, hs]; rfl
  rw [writeCheck, hrun, if_neg Bool.false_ne_true, if_pos ⟨hd, hv⟩]

/-- Settles O39: each hypothesis is the first check that fails, and the code of a check fixes its STATUS bit and number. -/
theorem hostAccessRefusals : Obligations.HostAccessRefusals := by
  intro s addr d
  refine ⟨fun h => exec_of_locate_error (locate_of_misaligned _ h) d,
    fun h4 h => exec_of_locate_error (locate_of_unmapped h4 h) d,
    fun h4 r hr => exec_of_writeCheck h4 hr (writeCheck_ro s r d),
    fun h4 hs h => ?_,
    fun hr h4 hs hd hv => exec_of_writeCheck h4 hr (writeCheck_of_invalid_start hs hd hv)⟩
  rcases h with hr | ⟨r, hr⟩
  · exact exec_of_writeCheck h4 hr (writeCheck_of_running hs (.inl rfl) d)
  · exact exec_of_writeCheck h4 hr (writeCheck_of_running hs (.inr ⟨r, rfl⟩) d)

/-! ## Answered reads (44_host_access.md R204, R211) -/

/-- Only 0x00020 is ELAPSED_LO. -/
theorem eq_elapsedLo_iff {p : Params} {addr : HAddr} {r : Reg} (h4 : addr.toNat % 4 = 0) (hr : regAt p addr = some r) :
    r = .ro .elapsedLo ↔ addr = 0x00020 := by
  constructor
  · rintro rfl
    exact BitVec.eq_of_toNat_eq (regAddr_of_regAt h4 hr).symm
  · rintro rfl
    exact Option.some.inj (hr.symm.trans rfl)

/-- Settles O40: the read effect is the snapshot of ELAPSED_LO, and ELAPSED_LO is the register at 0x00020. -/
theorem hostReadAnswers : Obligations.HostReadAnswers := by
  intro s addr r h4 hr
  rw [exec_hostRd, hostRead_of_regAt h4 hr, readEffect_eq, answerAccess, emit]
  simp only [eq_elapsedLo_iff h4 hr]

/-! ## The register map (20_memory.md R75, R76) -/

/-! ### From the address to the register's channel -/

theorem regExists_of_globalRegAt {p : Params} {n : ℕ} {r : Reg} (h : globalRegAt n = some r) : regExists p r = true := by
  unfold globalRegAt at h
  split at h <;> cases h <;> rfl

theorem regExists_of_modRegAt {p : Params} {n : ℕ} {r : Reg} (h : modRegAt n = some r) : regExists p r = true := by
  unfold modRegAt at h
  split at h <;> cases h <;> rfl

/-- A synthesis channel's registers exist with the channel. -/
theorem regExists_of_synRegAt {p : Params} {c : Chan} {n : ℕ} {r : Reg} (h : synRegAt c n = some r) :
    regExists p r = decide (c.val < p.nsyn) := by
  unfold synRegAt at h
  split at h <;> cases h <;> rfl

/-- An acquisition channel's registers exist with the channel. -/
theorem regExists_of_acqRegAt {p : Params} {a : Chan} {n : ℕ} {r : Reg} (h : acqRegAt a n = some r) :
    regExists p r = decide (a.val < p.nacq) := by
  unfold acqRegAt at h
  split at h <;> cases h <;> rfl

/-- R75: a mapped register's channel exists. -/
theorem regExists_of_regAt {p : Params} {addr : HAddr} {r : Reg} (h : regAt p addr = some r) : regExists p r = true := by
  unfold regAt at h
  simp only [] at h
  split at h
  · exact regExists_of_globalRegAt h
  split at h
  · exact regExists_of_modRegAt h
  split at h
  · obtain ⟨hc, hr⟩ := of_ifChannel h
    rw [regExists_of_synRegAt hr, decide_eq_true hc]
  split at h
  · obtain ⟨ha, hr⟩ := of_ifChannel h
    rw [regExists_of_acqRegAt hr, decide_eq_true ha]
  split at h
  · cases h
  split at h
  · obtain ⟨hc, hr⟩ := of_ifChannel h
    cases hr
    exact decide_eq_true hc
  split at h
  · obtain ⟨ha, hr⟩ := of_ifChannel h
    cases hr
    exact decide_eq_true ha
  · cases h

/-! ### From the register to its address, region by region -/

section Region
variable {p : Params} {addr : HAddr}

theorem regAt_global {n : ℕ} (h : n = addr.toNat) (hn : n < 0x100) : regAt p addr = globalRegAt n := by
  rw [regAt, ← h]
  exact if_pos hn

theorem regAt_mod {offset : ℕ} (h : offset + 0x100 = addr.toNat) (ho : offset < 0x300) :
    regAt p addr = modRegAt offset := by
  unfold regAt
  dsimp only
  rw [if_neg (by omega), if_pos (by omega), ← h, Nat.add_sub_cancel]

theorem ifChannel_of_decide {count : ℕ} {c : Chan} (h : decide (c.val < count) = true) (r : Option Reg) :
    ifChannel count c r = r := if_pos (of_decide_eq_true h)

/-- The quotient of an address by a channel's block, as the map computes it, is the channel. -/
theorem chan_ofNat_eq {n : ℕ} {c : Chan} (h : n = c.val) : Fin.ofNat 16 n = c :=
  Fin.ext (by rw [Fin.val_ofNat, h, Nat.mod_eq_of_lt c.isLt])

theorem regAt_syn {c : Chan} {offset : ℕ} (h : synAddr c offset = addr.toNat) (ho : offset < 0x40)
    (hc : decide (c.val < p.nsyn) = true) : regAt p addr = synRegAt c offset := by
  unfold synAddr at h
  have hchan : Fin.ofNat 16 ((addr.toNat - 0x400) / 0x40) = c := chan_ofNat_eq (by omega)
  have hoff : (addr.toNat - 0x400) % 0x40 = offset := by omega
  unfold regAt
  dsimp only
  rw [if_neg (by omega), if_neg (by omega), if_pos (by omega), hchan, hoff, ifChannel_of_decide hc]

theorem regAt_acq {a : Chan} {offset : ℕ} (h : acqAddr a offset = addr.toNat) (ho : offset < 0x20)
    (ha : decide (a.val < p.nacq) = true) : regAt p addr = acqRegAt a offset := by
  unfold acqAddr at h
  have hchan : Fin.ofNat 16 ((addr.toNat - 0x800) / 0x20) = a := chan_ofNat_eq (by omega)
  have hoff : (addr.toNat - 0x800) % 0x20 = offset := by omega
  unfold regAt
  dsimp only
  rw [if_neg (by omega), if_neg (by omega), if_neg (by omega), if_pos (by omega), hchan, hoff, ifChannel_of_decide ha]

theorem regAt_lut {c : Chan} {k : Fin 1024} (h : lutAddr c k = addr.toNat)
    (hc : decide (c.val < p.nsyn) = true) : regAt p addr = some (.ro (.lut c k)) := by
  unfold lutAddr at h
  have hchan : Fin.ofNat 16 ((addr.toNat - 0x10000) / 0x1000) = c := chan_ofNat_eq (by omega)
  have hentry : Fin.ofNat 1024 ((addr.toNat - 0x10000) % 0x1000 / 4) = k := Fin.ext (by rw [Fin.val_ofNat]; omega)
  unfold regAt
  dsimp only
  rw [if_neg (by omega), if_neg (by omega), if_neg (by omega), if_neg (by omega), if_neg (by omega), if_pos (by omega),
    hchan, hentry, ifChannel_of_decide hc]

theorem regAt_buf {a : Chan} {k : Fin 4096} (h : bufAddr a k = addr.toNat)
    (ha : decide (a.val < p.nacq) = true) : regAt p addr = some (.ro (.buf a k)) := by
  unfold bufAddr at h
  have hchan : Fin.ofNat 16 ((addr.toNat - 0x20000) / 0x4000) = a := chan_ofNat_eq (by omega)
  have hentry : Fin.ofNat 4096 ((addr.toNat - 0x20000) % 0x4000 / 4) = k := Fin.ext (by rw [Fin.val_ofNat]; omega)
  unfold regAt
  dsimp only
  rw [if_neg (by omega), if_neg (by omega), if_neg (by omega), if_neg (by omega), if_neg (by omega), if_neg (by omega),
    if_pos (by omega), hchan, hentry, ifChannel_of_decide ha]

theorem regAt_of_cfgRegAddr {r : CfgReg} (h : cfgRegAddr r = addr.toNat) (he : regExists p (.cfg r) = true) :
    regAt p addr = some (.cfg r) := by
  cases r
  case tickPNs | trigDiv | liveDiv => exact regAt_global h (by decide)
  case modFreq | modDuty | modPhase | modGeom | modClkbase | modRefreshLo | modRefreshHi | modEpsLo | modEpsHi =>
    exact regAt_mod h (by decide)
  case synMode | synFreq | synAmp | synOffset | synOutmax | synLutN | synGain | synShift =>
    exact regAt_syn h (by decide) he
  case acqCtrl | acqCap => exact regAt_acq h (by decide) he

theorem regAt_of_roRegAddr {r : RoReg} (h : roRegAddr r = addr.toNat) (he : regExists p (.ro r) = true) :
    regAt p addr = some (.ro r) := by
  cases r
  case id | hwcfg | lastErr | elapsedLo | elapsedHi | tickCnt | dlmissCnt | trigCnt | live | liveCnt =>
    exact regAt_global h (by decide)
  case modPeriod | modCmpA | modCmpB | modPhs | modApplyCnt | modPol => exact regAt_mod h (by decide)
  case synPhase | synIndex | synOut => exact regAt_syn h (by decide) he
  case acqWidx | acqCnt | acqOvr | acqStat | acqResult => exact regAt_acq h (by decide) he
  case lut => exact regAt_lut h he
  case buf => exact regAt_buf h he

/-- R76: a register of an existing channel is mapped at its address. -/
theorem regAt_of_regAddr {r : Reg} (h : regAddr r = addr.toNat) (he : regExists p r = true) : regAt p addr = some r := by
  cases r with
  | ctrl => exact regAt_global h (by decide)
  | status => exact regAt_global h (by decide)
  | cfg r => exact regAt_of_cfgRegAddr h he
  | ro r => exact regAt_of_roRegAddr h he

end Region

/-- Settles O44: the map inverts the address table within each region, and asks for the channel. -/
theorem registerMapIsTheTable : Obligations.RegisterMapIsTheTable := fun _ _ _ h4 =>
  ⟨fun h => ⟨regAddr_of_regAt h4 h, regExists_of_regAt h⟩, fun ⟨h, he⟩ => regAt_of_regAddr h he⟩

end Sys2Proof.RegisterSpace
end

section
/-! PROOFS. The statements of 30_encoding.md: the decoder, the encoder, and the event that ends a host access. A word is
its fields, so a row of the opcode table accepts it exactly when OP is the row's and the should-be-zero field is 0. Those
are the decoder's own tests: a word decodes to an operation exactly when the operation's row accepts it and the operands
are the word's fields. -/

namespace Sys2Proof.Encoding

open Sys2Proof.Machine Sys2Proof.Laws Sys2Proof.Scope Sys2Proof.BlockState Sys2Proof.RegisterSpace

/-! ## Rows of the opcode table as fields (30_encoding.md R91 to R100) -/

theorem append_eq_append_iff {m n : ℕ} {x x' : BitVec m} {y y' : BitVec n} :
    x ++ y = x' ++ y' ↔ x = x' ∧ y = y' := by
  refine ⟨fun h => ⟨?_, ?_⟩, fun ⟨hx, hy⟩ => hx ▸ hy ▸ rfl⟩
  · simpa only [BitVec.extractLsb'_append_eq_left] using congrArg (BitVec.extractLsb' n m) h
  · simpa only [BitVec.extractLsb'_append_eq_right] using congrArg (BitVec.extractLsb' 0 n) h

/-- A word is OP and the rest. -/
theorem word_eq_op_rest (w : EventWord) : w = opField w ++ w.extractLsb' 0 60 := by
  rw [opField, BitVec.extractLsb'_append_extractLsb'_eq_extractLsb' (by rfl), BitVec.extractLsb'_eq_self]

/-- A word in the layout of CONV_DONE (R93, R96). -/
theorem word_eq_convDone_fields (w : EventWord) :
    w = opField w ++ chField w ++ w.extractLsb' 12 44 ++ sampleField w := by
  simp only [opField, chField, sampleField]
  rw [BitVec.extractLsb'_append_extractLsb'_eq_extractLsb' (by rfl),
    BitVec.extractLsb'_append_extractLsb'_eq_extractLsb' (by rfl),
    BitVec.extractLsb'_append_extractLsb'_eq_extractLsb' (by rfl), BitVec.extractLsb'_eq_self]

theorem accepts_iff (r : OpcodeRow) (w : EventWord) : r.accepts w = true ↔ w &&& r.mask = r.pattern := beq_iff_eq

theorem accepts_tick (w : EventWord) :
    OpcodeRow.tick.accepts w = true ↔ opField w = 1#4 ∧ w.extractLsb' 0 60 = 0#60 := by
  have hmask : OpcodeRow.tick.mask = BitVec.allOnes 4 ++ BitVec.allOnes 60 := by decide
  have hpattern : OpcodeRow.tick.pattern = 1#4 ++ 0#60 := by decide
  rw [accepts_iff, hmask, hpattern]
  conv_lhs => rw [word_eq_op_rest w]
  rw [BitVec.and_append, append_eq_append_iff, BitVec.and_allOnes, BitVec.and_allOnes]

theorem accepts_convDone (w : EventWord) :
    OpcodeRow.convDone.accepts w = true ↔ opField w = 2#4 ∧ w.extractLsb' 12 44 = 0#44 := by
  have hpattern : OpcodeRow.convDone.pattern = 2#4 ++ 0#4 ++ 0#44 ++ 0#12 := by decide
  have hop : opField w &&& 0xF#4 = opField w := BitVec.and_allOnes
  rw [accepts_iff, mask_convDone, hpattern]
  conv_lhs => rw [word_eq_convDone_fields w]
  rw [BitVec.and_append, append_eq_append_iff]
  simp only [BitVec.and_append, hop, BitVec.and_allOnes, BitVec.and_zero, append_eq_append_iff, and_true]

theorem accepts_hostWr (w : EventWord) :
    OpcodeRow.hostWr.accepts w = true ↔ opField w = 3#4 ∧ w.extractLsb' 52 8 = 0#8 := by
  have hpattern : OpcodeRow.hostWr.pattern = 3#4 ++ 0#8 ++ 0#20 ++ 0#32 := by decide
  rw [accepts_iff, mask_hostWr, hpattern]
  conv_lhs => rw [word_eq_fields w]
  rw [BitVec.and_append, append_eq_append_iff]
  simp only [BitVec.and_append, BitVec.and_allOnes, BitVec.and_zero, append_eq_append_iff, and_true]

theorem accepts_hostRd (w : EventWord) :
    OpcodeRow.hostRd.accepts w = true ↔ opField w = 4#4 ∧ w.extractLsb' 52 8 = 0#8 ∧ dataField w = 0#32 := by
  have hpattern : OpcodeRow.hostRd.pattern = 4#4 ++ 0#8 ++ 0#20 ++ 0#32 := by decide
  rw [accepts_iff, mask_hostRd, hpattern]
  conv_lhs => rw [word_eq_fields w]
  rw [BitVec.and_append, append_eq_append_iff]
  simp only [BitVec.and_append, BitVec.and_allOnes, BitVec.and_zero, append_eq_append_iff, and_true, and_assoc]

theorem accepts_reset (w : EventWord) : OpcodeRow.reset.accepts w = true ↔ opField w = 15#4 := by
  have hmask : OpcodeRow.reset.mask = BitVec.allOnes 4 ++ 0#60 := by decide
  have hpattern : OpcodeRow.reset.pattern = 15#4 ++ 0#60 := by decide
  rw [accepts_iff, hmask, hpattern]
  conv_lhs => rw [word_eq_op_rest w]
  rw [BitVec.and_append, append_eq_append_iff]
  simp only [BitVec.and_allOnes, BitVec.and_zero, and_true]

theorem rowOf_mem (i : Instr) : rowOf i ∈ opcodeRows := by cases i <;> simp [rowOf, opcodeRows]

/-- Every row is some operation's. -/
theorem exists_rowOf {r : OpcodeRow} (hr : r ∈ opcodeRows) : ∃ i, rowOf i = r := by
  simp only [opcodeRows, List.mem_cons, List.not_mem_nil, or_false] at hr
  rcases hr with rfl | rfl | rfl | rfl | rfl
  · exact ⟨.tick, rfl⟩
  · exact ⟨.convDone 0 0, rfl⟩
  · exact ⟨.hostWr 0 0, rfl⟩
  · exact ⟨.hostRd 0, rfl⟩
  · exact ⟨.reset, rfl⟩

/-- No word has two rows: the rows' OPs differ. -/
theorem opcodeRows_disjoint (w : EventWord) :
    opcodeRows.Pairwise (fun r q => ¬(r.accepts w = true ∧ q.accepts w = true)) := by
  have hops : opcodeRows.Pairwise (fun r q => opField r.pattern ≠ opField q.pattern) := by decide
  refine hops.imp_of_mem fun hr hq hne h => hne ?_
  rw [← opField_of_accepts hr h.1, opField_of_accepts hq h.2]

/-! ## The decoder (R104) -/

/-- The operation with its operands cut from the word. -/
def withFieldsOf (w : EventWord) : Instr → Instr
  | .tick => .tick
  | .convDone _ _ => .convDone (chField w) (sampleField w)
  | .hostWr _ _ => .hostWr (addrField w) (dataField w)
  | .hostRd _ => .hostRd (addrField w)
  | .reset => .reset

theorem accepts_of_decode {w : EventWord} {i : Instr} (h : decode w = .ok i) :
    (rowOf i).accepts w = true ∧ withFieldsOf w i = i := by
  unfold decode at h
  split at h
  case h_1 hop =>
    cases h
    exact ⟨(accepts_reset w).2 hop, rfl⟩
  case h_2 hop =>
    split at h
    · cases h
      exact ⟨(accepts_tick w).2 ⟨hop, ‹_›⟩, rfl⟩
    · cases h
  case h_3 hop =>
    split at h
    · cases h
      exact ⟨(accepts_convDone w).2 ⟨hop, ‹_›⟩, rfl⟩
    · cases h
  case h_4 hop =>
    split at h
    · cases h
      exact ⟨(accepts_hostWr w).2 ⟨hop, ‹_›⟩, rfl⟩
    · cases h
  case h_5 hop =>
    split at h
    · cases h
      exact ⟨(accepts_hostRd w).2 ⟨hop, ‹_›⟩, rfl⟩
    · cases h
  case h_6 => cases h

theorem decode_of_accepts {w : EventWord} {i : Instr} (h : (rowOf i).accepts w = true) :
    decode w = .ok (withFieldsOf w i) := by
  unfold decode
  cases i with
  | tick =>
    obtain ⟨hop, hzero⟩ := (accepts_tick w).1 h
    simp only [hop]
    exact if_pos hzero
  | convDone ch x =>
    obtain ⟨hop, hzero⟩ := (accepts_convDone w).1 h
    simp only [hop]
    exact if_pos hzero
  | hostWr addr d =>
    obtain ⟨hop, hzero⟩ := (accepts_hostWr w).1 h
    simp only [hop]
    exact if_pos hzero
  | hostRd addr =>
    obtain ⟨hop, hzero⟩ := (accepts_hostRd w).1 h
    simp only [hop]
    exact if_pos hzero
  | reset =>
    simp only [(accepts_reset w).1 h]
    rfl

/-- R104: a word is an operation exactly when the operation's row accepts it and the operands are the word's fields. -/
theorem decode_eq_ok_iff {w : EventWord} {i : Instr} :
    decode w = .ok i ↔ (rowOf i).accepts w = true ∧ withFieldsOf w i = i :=
  ⟨accepts_of_decode, fun ⟨h, hi⟩ => (decode_of_accepts h).trans (congrArg _ hi)⟩

theorem wellFormed_iff (w : EventWord) : EventWord.wellFormed w = true ↔ ∃ i, decode w = .ok i := by
  rw [EventWord.wellFormed, List.any_eq_true]
  constructor
  · rintro ⟨r, hr, h⟩
    obtain ⟨i, rfl⟩ := exists_rowOf hr
    exact ⟨_, decode_of_accepts h⟩
  · rintro ⟨i, h⟩
    exact ⟨rowOf i, rowOf_mem i, (accepts_of_decode h).1⟩

/-- R97: a word is MALFORMED when no row accepts it. -/
theorem malformed_iff (w : EventWord) : (∃ why, decode w = .error why) ↔ EventWord.wellFormed w = false := by
  rw [← Bool.not_eq_true, wellFormed_iff]
  cases decode w with
  | ok i => simp
  | error why => simp

/-- Settles O2: each clause is the row's, with the word's fields for operands. -/
theorem decodeAcceptsExactlyTheTable : Obligations.DecodeAcceptsExactlyTheTable := by
  refine fun w => ⟨?_, fun ch x => ?_, fun addr d => ?_, fun addr => ?_, ?_, malformed_iff w, opcodeRows_disjoint w⟩ <;>
    rw [decode_eq_ok_iff]
  · exact and_iff_left rfl
  · rw [withFieldsOf, Instr.convDone.injEq]
    exact and_congr_right' (and_congr eq_comm eq_comm)
  · rw [withFieldsOf, Instr.hostWr.injEq]
    exact and_congr_right' (and_congr eq_comm eq_comm)
  · rw [withFieldsOf, Instr.hostRd.injEq]
    exact and_congr_right' eq_comm
  · exact and_iff_left rfl

/-! ## The encoder (R108) -/

theorem withFieldsOf_encode (i : Instr) : withFieldsOf (encode i) i = i := by
  cases i with
  | tick | reset => rfl
  | convDone ch x =>
    have hch : chField (encode (.convDone ch x)) = ch := by
      simp only [chField, encode]
      rw [BitVec.extractLsb'_append_eq_of_le (by decide), BitVec.extractLsb'_append_eq_of_le (by decide)]
      exact BitVec.extractLsb'_append_eq_right
    have hx : sampleField (encode (.convDone ch x)) = x := BitVec.extractLsb'_append_eq_right
    rw [withFieldsOf, hch, hx]
  | hostWr addr d =>
    have haddr : addrField (encode (.hostWr addr d)) = addr := by
      simp only [addrField, encode]
      rw [BitVec.extractLsb'_append_eq_of_le (by decide)]
      exact BitVec.extractLsb'_append_eq_right
    have hd : dataField (encode (.hostWr addr d)) = d := BitVec.extractLsb'_append_eq_right
    rw [withFieldsOf, haddr, hd]
  | hostRd addr =>
    have haddr : addrField (encode (.hostRd addr)) = addr := by
      simp only [addrField, encode]
      rw [BitVec.extractLsb'_append_eq_of_le (by decide)]
      exact BitVec.extractLsb'_append_eq_right
    rw [withFieldsOf, haddr]

theorem encode_fits (i : Instr) : EncodeFits.Statement i := by
  cases i with
  | tick => exact EncodeFits.tick
  | convDone ch x => exact EncodeFits.convDone ch x
  | hostWr addr d => exact EncodeFits.hostWr addr d
  | hostRd addr => exact EncodeFits.hostRd addr
  | reset => exact EncodeFits.reset

theorem decode_encode (i : Instr) : decode (encode i) = .ok i := by
  have hrow : (rowOf i).accepts (encode i) = true := by
    rw [encode_fits i _ (rowOf_mem i), decide_eq_true rfl]
  exact decode_eq_ok_iff.2 ⟨hrow, withFieldsOf_encode i⟩

/-- Four fields side by side, as shifts and an OR. -/
theorem append_eq_shifts {k l m n : ℕ} (op : BitVec k) (x : BitVec l) (y : BitVec m) (z : BitVec n) :
    op ++ x ++ y ++ z = op.setWidth (k + l + m + n) <<< (l + m + n) ||| x.setWidth (k + l + m + n) <<< (m + n) |||
      y.setWidth (k + l + m + n) <<< n ||| z.setWidth (k + l + m + n) := by
  rw [← BitVec.setWidth_append_append_append_eq_shiftLeft_setWidth_or, BitVec.setWidth_eq]

theorem encode_convDone (ch : BitVec 4) (x : BitVec 12) :
    encode (.convDone ch x) = (0x2#64 <<< 60) ||| (ch.setWidth 64 <<< 56) ||| x.setWidth 64 := by
  rw [encode, append_eq_shifts]
  simp

theorem encode_hostWr (addr : HAddr) (d : Word) :
    encode (.hostWr addr d) = (0x3#64 <<< 60) ||| (addr.setWidth 64 <<< 32) ||| d.setWidth 64 := by
  rw [encode, append_eq_shifts]
  simp

theorem encode_hostRd (addr : HAddr) : encode (.hostRd addr) = (0x4#64 <<< 60) ||| (addr.setWidth 64 <<< 32) := by
  rw [encode, append_eq_shifts]
  simp

/-- Settles O1: an operation's word is accepted by its row and has the operands for fields. -/
theorem decodeInvertsEncode : Obligations.DecodeInvertsEncode :=
  ⟨rfl, encode_convDone, encode_hostWr, encode_hostRd, rfl, decode_encode⟩

/-- The operation of an accepted word, RESET apart, encodes to the word: its row leaves no bit free. -/
theorem encode_withFieldsOf {w : EventWord} {i : Instr} (h : (rowOf i).accepts w = true) (hi : i ≠ .reset) :
    encode (withFieldsOf w i) = w := by
  cases i with
  | tick =>
    obtain ⟨hop, hzero⟩ := (accepts_tick w).1 h
    rw [word_eq_op_rest w, hop, hzero]
    decide
  | convDone ch x =>
    obtain ⟨hop, hzero⟩ := (accepts_convDone w).1 h
    have hw := word_eq_convDone_fields w
    rw [hop, hzero] at hw
    exact hw.symm
  | hostWr addr d => exact (encode_of_decode_hostWr (decode_of_accepts h)).symm
  | hostRd addr =>
    obtain ⟨hop, hzero, hdata⟩ := (accepts_hostRd w).1 h
    have hw := word_eq_fields w
    rw [hop, hzero, hdata] at hw
    exact hw.symm
  | reset => exact absurd rfl hi

/-- Settles O3: the fields of an accepted word are all of it. -/
theorem acceptedWordIsItsEncoding : Obligations.AcceptedWordIsItsEncoding := by
  intro w i h hi
  obtain ⟨hrow, hfields⟩ := accepts_of_decode h
  rw [← hfields, encode_withFieldsOf hrow hi]

/-! ## The worked encodings (R109) -/

theorem encode_and_decode {i : Instr} {w : EventWord} (h : encode i = w) : encode i = w ∧ decode w = .ok i :=
  ⟨h, h ▸ decode_encode i⟩

/-- The registers that the worked addresses name exist for every parameter choice: channel 0 always does. -/
theorem regAt_worked (p : Params) : regAt p 0x00014 = some (.cfg .tickPNs) ∧
    regAt p 0x00404 = some (.cfg (.synFreq 0)) ∧ regAt p 0x20298 = some (.ro (.buf 0 166)) :=
  ⟨regAt_of_regAddr rfl rfl, regAt_of_regAddr rfl (decide_eq_true p.nsynLess1.val.succ_pos),
    regAt_of_regAddr rfl (decide_eq_true p.nacqLess1.val.succ_pos)⟩

/-- Settles O4: each word is the encoder's, so the decoder gives the operation back. -/
theorem workedEncodingsDecode : Obligations.WorkedEncodingsDecode := by
  obtain ⟨htick, htick'⟩ := encode_and_decode (i := .hostWr 0x00014 100000) (w := 0x30000014000186A0) (by decide)
  obtain ⟨hfreq, hfreq'⟩ := encode_and_decode (i := .hostWr 0x00404 60000) (w := 0x300004040000EA60) (by decide)
  obtain ⟨hbuf, hbuf'⟩ := encode_and_decode (i := .hostRd 0x20298) (w := 0x4002029800000000) (by decide)
  obtain ⟨hconv, hconv'⟩ := encode_and_decode (i := .convDone 1 4095) (w := 0x2100000000000FFF) (by decide)
  exact ⟨htick, htick', hfreq, hfreq', hbuf, hbuf', regAt_worked, hconv, hconv', rfl, decode_encode .tick, by decide⟩

/-! ## MALFORMED words (R97) -/

/-- A should-be-zero test of the decoder. -/
theorem exists_ite_error (c : Prop) [Decidable c] (i : Instr) (e : Malformed) :
    (∃ why, (if c then .ok i else .error e : Except Malformed Instr) = .error why) ↔ ¬c := by
  split <;> simp [*]

theorem reserved_op {op : BitVec 4} (h15 : op ≠ 15#4) (h1 : op ≠ 1#4) (h2 : op ≠ 2#4) (h3 : op ≠ 3#4) (h4 : op ≠ 4#4) :
    op = 0 ∨ (5 ≤ op.toNat ∧ op.toNat ≤ 14) := by
  bv_omega

/-- The words that fail a test of the decoder. -/
theorem malformed_iff_fields (w : EventWord) : (∃ why, decode w = .error why) ↔
    ((opField w = 0 ∨ (5 ≤ (opField w).toNat ∧ (opField w).toNat ≤ 14)) ∨
     (opField w = 1 ∧ w.extractLsb' 0 60 ≠ 0) ∨
     (opField w = 2 ∧ w.extractLsb' 12 44 ≠ 0) ∨
     (opField w = 3 ∧ w.extractLsb' 52 8 ≠ 0) ∨
     (opField w = 4 ∧ (w.extractLsb' 52 8 ≠ 0 ∨ w.extractLsb' 0 32 ≠ 0))) := by
  unfold decode
  split
  case h_1 hop => simp [hop]
  case h_2 hop => simp [hop, exists_ite_error]
  case h_3 hop => simp [hop, exists_ite_error]
  case h_4 hop => simp [hop, exists_ite_error]
  case h_5 hop =>
    rw [exists_ite_error, not_and_or]
    simp [hop, dataField]
  case h_6 h15 h1 h2 h3 h4 => exact iff_of_true ⟨_, rfl⟩ (.inl (reserved_op h15 h1 h2 h3 h4))

theorem acceptWord_of_malformed {w : EventWord} {why : Malformed} (h : decode w = .error why) (s : State) :
    acceptWord w s = .next (report .evMalformed s) := by
  simp only [acceptWord, acceptWordBy, h, malformedWord, raise_eq]

/-- Settles O5: the decoder's tests, and the report of code 6. -/
theorem malformedWordOnlyReports : Obligations.MalformedWordOnlyReports := by
  refine ⟨malformed_iff_fields, fun s w rest why ht hd => ?_⟩
  rw [step_of_word ht, acceptWord_of_malformed hd]
  rfl

/-! ## The response of a host access (R200, R203) -/

/-- `t` extends the trace of `s` by a response, last and alone: a refusal with its report before it, or an answer with at
most saturation reports before it. -/
def Responds (s t : State) : Prop :=
  ∃ events ok data, t.trace = s.trace ++ events ++ [.hostResp ok data] ∧
    (∀ ok' data', OutEvent.hostResp ok' data' ∉ events) ∧
    (ok = false → data = 0 ∧ ∃ k, events = [.error k] ∧ k ≠ .lutSat) ∧
    (ok = true → ∀ e ∈ events, e = .error .lutSat)

theorem responds_refuseAccess {k : ErrCode} (hk : k ≠ .lutSat) (s : State) : Responds s (refuseAccess k s) :=
  ⟨[.error k], false, 0, rfl, fun _ _ => by simp, fun _ => ⟨rfl, k, rfl, hk⟩, nofun⟩

/-- An access that is performed with saturation reports alone answers. -/
theorem responds_answerAccess {s u : State} {events : List OutEvent} (h : u.trace = s.trace ++ events)
    (he : ∀ e ∈ events, e = .error .lutSat) (v : Word) : Responds s (answerAccess v u) := by
  refine ⟨events, true, v, by rw [answerAccess, emit_trace, h], fun ok data hmem => ?_, nofun, fun _ => he⟩
  cases he _ hmem

/-- An access that is performed without an event answers. -/
theorem responds_answerAccess_of_trace {s u : State} (h : u.trace = s.trace) (v : Word) :
    Responds s (answerAccess v u) :=
  responds_answerAccess (h.trans (List.append_nil _).symm) (List.forall_mem_nil _) v

theorem responds_hostRead (addr : HAddr) (s : State) : Responds s (hostRead addr s) := by
  rcases hostRead_cases addr s with ⟨k, hk, h⟩ | ⟨r, _, _, h⟩ <;> rw [h]
  · exact responds_refuseAccess (by rcases hk with rfl | rfl <;> decide) s
  · exact responds_answerAccess_of_trace (by rw [readEffect_eq]) _

/-- A CTRL write reports saturation at most, from the tables that START builds. -/
theorem responds_ctrlWrite (o : SineOracle) (d : Word) (s : State) : Responds s (answerAccess 0 (ctrlWrite o d s)) := by
  unfold ctrlWrite
  split
  · exact responds_answerAccess (congrArg State.trace (start_eq o _ s).1) (by simp) 0
  · exact responds_answerAccess_of_trace rfl 0

theorem responds_hostWrite (addr : HAddr) (d : Word) (s : State) : Responds s (hostWrite addr d s) := by
  rcases hostWrite_cases addr d s with ⟨k, hk, h⟩ | ⟨_, _, h⟩ | ⟨_, _, _, _, h⟩ | ⟨r, _, _, _, h⟩ <;> rw [h]
  · exact responds_refuseAccess (by rcases hk with rfl | rfl | rfl | ⟨rfl, _⟩ | ⟨rfl, _⟩ <;> decide) s
  · exact responds_answerAccess_of_trace rfl 0
  · exact responds_ctrlWrite _ d s
  · exact responds_answerAccess_of_trace (writeCfg_trace r d s) 0

/-- Settles O45: an access is a refusal or an answer, and each emits its response last. -/
theorem hostResponseIsLast : Obligations.HostResponseIsLast := by
  refine ⟨fun s t i hi h => ?_, fun s t w why hd h => ?_⟩
  · rcases hi with ⟨addr, d, rfl⟩ | ⟨addr, rfl⟩ <;> cases h
    · exact responds_hostWrite addr d s
    · exact responds_hostRead addr s
  · rw [acceptWord_of_malformed hd] at h
    cases h
    exact report_trace _ s

end Sys2Proof.Encoding
end

section
/-! PROOFS. The statements of 40_tick_dispatcher.md: the TICK word, the two services and their order, and what a tick does to
the channels, the counters and the trace. What is pending is counted, and each step with no turn left serves one of it; the
counters of R120 follow from how a quotient and a remainder move when one is added. -/

namespace Sys2Proof.TickDispatcher

open Sys2Proof.Machine Sys2Proof.Laws Sys2Proof.BlockState Sys2Proof.Encoding

/-! ## Which services are enabled (60_exceptions.md R237) -/

theorem tickReady_iff (s : State) : tickReady s = true ↔ s.run = .running ∧ s.tickPend = true := by
  rw [tickReady, Bool.and_eq_true, isRunning_iff]

theorem acqReady_iff (s : State) (a : Chan) :
    acqReady s a = true ↔ s.run = .running ∧ a.val < s.params.nacq ∧ s.acq[a].pend = true := by
  rw [acqReady, Bool.and_eq_true, Bool.and_eq_true, isRunning_iff, decide_eq_true_iff, and_assoc]

theorem anyAcqReady_iff (s : State) : anyAcqReady s = true ↔ ∃ a : Chan, acqReady s a = true := by
  simp only [anyAcqReady, List.any_eq_true, mem_channels]
  exact ⟨fun ⟨a, _, h⟩ => ⟨a, h⟩, fun ⟨a, h⟩ => ⟨a, ((acqReady_iff s a).1 h).2.1, h⟩⟩

theorem tickEnabled_eq_tickReady {s : State} (h : s.params.svcOrder ≠ .acqFirst) : tickEnabled s = tickReady s := by
  simp [tickEnabled, h]

theorem acqEnabled_eq_acqReady {s : State} (h : s.params.svcOrder ≠ .tickFirst) (a : Chan) :
    acqEnabled s a = acqReady s a := by
  simp [acqEnabled, h]

theorem tickEnabled_of_acqFirst {s : State} (h : s.params.svcOrder = .acqFirst) :
    tickEnabled s = (tickReady s && !anyAcqReady s) := by
  simp [tickEnabled, h]

theorem acqEnabled_of_tickFirst {s : State} (h : s.params.svcOrder = .tickFirst) (a : Chan) :
    acqEnabled s a = (acqReady s a && !tickReady s) := by
  simp [acqEnabled, h]

/-- Settles O9: only under ACQ_FIRST can a result hold TICK_SERVICE back, and only under TICK_FIRST a tick the results. -/
theorem serviceOrderIsRespected : Obligations.ServiceOrderIsRespected := by
  refine fun s => ⟨fun h => ?_, fun h => ?_, fun h => ?_⟩
  · have hacq : s.params.svcOrder ≠ .acqFirst := by rw [h]; decide
    have htick : s.params.svcOrder ≠ .tickFirst := by rw [h]; decide
    refine ⟨?_, fun a => ?_⟩
    · rw [tickEnabled_eq_tickReady hacq, tickReady_iff]
    · rw [acqEnabled_eq_acqReady htick, acqReady_iff]
  · have hacq : s.params.svcOrder ≠ .acqFirst := by rw [h]; decide
    refine ⟨?_, fun a => ?_⟩ <;> rw [tickEnabled_eq_tickReady hacq]
    · exact tickReady_iff s
    · rw [acqEnabled_of_tickFirst h, Bool.and_eq_true, Bool.not_eq_true', acqReady_iff]
  · have htick : s.params.svcOrder ≠ .tickFirst := by rw [h]; decide
    simp only [acqEnabled_eq_acqReady htick]
    refine ⟨?_, acqReady_iff s⟩
    rw [tickEnabled_of_acqFirst h, Bool.and_eq_true, tickReady_iff, Bool.not_eq_true', ← Bool.not_eq_true, anyAcqReady_iff,
      not_exists]
    simp only [Bool.not_eq_true]

/-! ## The services are taken (40_tick_dispatcher.md R122, 43_acquisition.md R191) -/

/-- The existing channels whose result is pending. -/
def pendingResults (s : State) : Finset Chan := {a | a.val < s.params.nacq ∧ s.acq[a].pend = true}

/-- How many services are pending. -/
def pendingServices (s : State) : ℕ := s.tickPend.toNat + (pendingResults s).card

theorem mem_pendingResults {s : State} {a : Chan} :
    a ∈ pendingResults s ↔ a.val < s.params.nacq ∧ s.acq[a].pend = true := Finset.mem_filter_univ a

/-- One tick and 16 results are the most that can be pending. -/
theorem pendingServices_le (s : State) : pendingServices s ≤ 17 := by
  have htick := Bool.toNat_le s.tickPend
  have hacq : (pendingResults s).card ≤ 16 := Finset.card_le_univ _
  unfold pendingServices
  omega

theorem pendingServices_eq_zero {s : State} :
    pendingServices s = 0 ↔ s.tickPend = false ∧ ∀ a : Chan, a.val < s.params.nacq → s.acq[a].pend = false := by
  simp [pendingServices, Finset.eq_empty_iff_forall_notMem, mem_pendingResults]

theorem pendingServices_tickService {s : State} (h : s.tickPend = true) :
    pendingServices (tickService s) = pendingServices s - 1 := by
  have hacq : pendingResults (tickService s) = pendingResults s := by
    unfold pendingResults
    rw [tickService_params, tickService_acq]
  simp [pendingServices, hacq, h]

theorem pendingResults_acqService (a : Chan) (s : State) :
    pendingResults (acqService a s) = (pendingResults s).erase a := by
  ext d
  have hparams : (acqService a s).params = s.params := rfl
  rw [Finset.mem_erase, mem_pendingResults, mem_pendingResults, acqService_acq, hparams]
  by_cases had : a = d
  · simp [had]
  · simp [had, Ne.symm had]

theorem pendingServices_acqService {s : State} {a : Chan} (ha : a.val < s.params.nacq) (hp : s.acq[a].pend = true) :
    pendingServices (acqService a s) = pendingServices s - 1 := by
  have hmem : a ∈ pendingResults s := mem_pendingResults.2 ⟨ha, hp⟩
  have hpos := Finset.card_pos.2 ⟨a, hmem⟩
  have htick : (acqService a s).tickPend = s.tickPend := rfl
  rw [pendingServices, pendingServices, pendingResults_acqService, Finset.card_erase_of_mem hmem, htick]
  omega

/-- A pending result is held back only by a tick that is itself serviced. -/
theorem enabled_of_acqReady {s : State} {a : Chan} (h : acqReady s a = true) :
    tickEnabled s = true ∨ acqEnabled s a = true := by
  by_cases horder : s.params.svcOrder = .tickFirst
  · rw [tickEnabled_eq_tickReady (by rw [horder]; decide), acqEnabled_of_tickFirst horder, h]
    cases tickReady s <;> simp
  · exact .inr ((acqEnabled_eq_acqReady horder a).trans h)

/-- A pending tick is held back only by a result that is itself serviced. -/
theorem enabled_of_tickReady {s : State} (h : tickReady s = true) :
    tickEnabled s = true ∨ ∃ a, acqEnabled s a = true := by
  by_cases horder : s.params.svcOrder = .acqFirst
  · by_cases hany : anyAcqReady s = true
    · obtain ⟨a, ha⟩ := (anyAcqReady_iff s).1 hany
      exact .inr ⟨a, (acqEnabled_eq_acqReady (by rw [horder]; decide) a).trans ha⟩
    · exact .inl (by simp [tickEnabled_of_acqFirst horder, h, hany])
  · exact .inl ((tickEnabled_eq_tickReady horder).trans h)

/-- No SVC_ORDER holds back every pending service. -/
theorem pendingServices_eq_zero_of_none_enabled {s : State} (hr : s.run = .running) (ht : tickEnabled s = false)
    (ha : ∀ a, a.val < s.params.nacq → acqEnabled s a = false) : pendingServices s = 0 := by
  have hnone : ∀ a, acqEnabled s a ≠ true := fun a h =>
    Bool.false_ne_true ((ha a (acqReady_of_acqEnabled h).2.1).symm.trans h)
  rw [← Bool.not_eq_true] at ht
  simp only [pendingServices_eq_zero, ← Bool.not_eq_true]
  refine ⟨fun hpend => ?_, fun a hexists hpend => ?_⟩
  · obtain ⟨a, h⟩ := (enabled_of_tickReady ((tickReady_iff s).2 ⟨hr, hpend⟩)).resolve_left ht
    exact hnone a h
  · exact hnone a ((enabled_of_acqReady ((acqReady_iff s a).2 ⟨hr, hexists, hpend⟩)).resolve_left ht)

/-- With no turn left, a step of a RUNNING block serves one pending service, if there is one. -/
theorem pendingServices_drainStep {s : State} (hr : s.run = .running) :
    pendingServices (drainStep s) = pendingServices s - 1 := by
  rcases drainStep_cases s with ⟨ht, h⟩ | ⟨_, a, ha, h⟩ | ⟨ht, ha, h⟩ <;> rw [h]
  · simp only [tickEnabled, Bool.and_eq_true, tickReady_iff] at ht
    exact pendingServices_tickService ht.1.2
  · obtain ⟨_, hexists, hpend⟩ := acqReady_of_acqEnabled ha
    exact pendingServices_acqService hexists hpend
  · rw [pendingServices_eq_zero_of_none_enabled hr ht ha]

/-- A RUNNING block of parameters `p` with no turn left. -/
def Draining (p : Params) (s : State) : Prop := s.params = p ∧ s.run = .running ∧ s.turns = []

theorem draining_drainStep {p : Params} {s : State} (hs : Draining p s) : Draining p (drainStep s) := by
  rcases drainStep_cases s with ⟨_, h⟩ | ⟨_, a, _, h⟩ | ⟨_, _, h⟩ <;> rw [h]
  · rwa [Draining, tickService_params, tickService_run, tickService_turns]
  · exact hs
  · exact hs

theorem step_of_turns_nil {s : State} (h : s.turns = []) : step s = .next (drainStep s) := by
  simp only [step, nextStep, nextStepBy, h, drainStep]

/-- `n` steps with no turn left serve up to `n` pending services. -/
theorem run_of_draining (n : ℕ) {p : Params} {s : State} (h : Draining p s) :
    ∃ t, Host.Core.run core n s = .next t ∧ Draining p t ∧ pendingServices t = pendingServices s - n := by
  induction n generalizing s with
  | zero => exact ⟨s, rfl, h, rfl⟩
  | succ n ih =>
    obtain ⟨hparams, hr, hturns⟩ := h
    obtain ⟨t, hrun, ht, hcount⟩ := ih (draining_drainStep ⟨hparams, hr, hturns⟩)
    refine ⟨t, ?_, ht, ?_⟩
    · have hstep : core.step s = .next (drainStep s) := step_of_turns_nil hturns
      simpa only [Host.Core.run, hstep] using hrun
    · rw [hcount, pendingServices_drainStep hr]
      omega

/-- Settles O10: at most 17 services are pending, and each step serves one. -/
theorem pendingServicesAreTaken : Obligations.PendingServicesAreTaken := by
  intro s hr hturns
  obtain ⟨t, hrun, ⟨hparams, htr, _⟩, hcount⟩ := run_of_draining 17 (s := s) ⟨rfl, hr, hturns⟩
  have hzero : pendingServices t = 0 := by rw [hcount, Nat.sub_eq_zero_of_le (pendingServices_le s)]
  exact ⟨t, hrun, htr, hparams ▸ pendingServices_eq_zero.1 hzero⟩

/-! ## The TICK word (R111, 60_exceptions.md R247) -/

/-- Only TICK sets TICK_PEND and only RESET clears it, among the operations. -/
theorem tickPend_of_effect {o : SineOracle} {s u : State} {i : Instr} (h : Effect o s i u) :
    u.tickPend = s.tickPend ∨ (i = .tick ∧ s.run = .running) ∨ (i = .reset ∧ u.tickPend = false) := by
  cases h with
  | latchTick hr => exact .inr (.inl ⟨rfl, hr⟩)
  | writeCfg addr r d _ => exact .inl (writeCfg_tickPend r d s)
  | start d _ _ _ => rw [(start_eq o _ s).1]; exact .inl rfl
  | reset => exact .inr (.inr ⟨rfl, rfl⟩)
  | _ => exact .inl rfl

theorem tickPend_of_quiet {s t : State} (h : Quiet s t) : t.tickPend = s.tickPend := by
  obtain ⟨_, _, _, rfl⟩ := h; rfl

theorem eq_timerTurn_of_decode {w : EventWord} (h : decode w = .ok .tick) : Turn.word w = timerTurn := by
  rw [timerTurn, acceptedWordIsItsEncoding w .tick h (by decide)]

/-- R247: the tick that becomes pending is the timer's. -/
theorem tick_of_step {s t : State} (h : step s = .next t) (hs : s.tickPend = false) (ht : t.tickPend = true) :
    s.run = .running ∧ ∃ rest, s.turns = timerTurn :: rest := by
  have hkeep : t.tickPend ≠ s.tickPend := by rw [hs, ht]; decide
  cases step_move h with
  | quiet hq => exact absurd (tickPend_of_quiet hq) hkeep
  | event hw hi hu hq =>
    have hut := tickPend_of_quiet hq
    rcases tickPend_of_effect hu with hpend | ⟨rfl, hr⟩ | ⟨_, hpend⟩
    · exact absurd (hut.trans hpend) hkeep
    · exact ⟨hr, _, eq_timerTurn_of_decode hi ▸ hw⟩
    · exact absurd ((ht.symm.trans hut).trans hpend) (by decide)
  | tick _ => exact absurd ((tickServiceWith_tickPend _ _).symm.trans ht) (by decide)
  | acq a _ => exact absurd rfl hkeep

/-- No host access touches the tick's latch or what is presented next. -/
theorem hostAccess_keeps_tick {s t : State} {i : Instr} (hi : (∃ addr d, i = .hostWr addr d) ∨ ∃ addr, i = .hostRd addr)
    (h : exec i s = .next t) : t.tickPend = s.tickPend ∧ t.turns = s.turns := by
  rw [exec_eq] at h
  cases h
  refine ⟨?_, eventResult_turns i s⟩
  obtain ⟨u, hu, hq⟩ := eventResultWith_effect s.params.sine i s
  have hut : (eventResult i s).tickPend = u.tickPend := tickPend_of_quiet hq
  rcases tickPend_of_effect hu with hpend | ⟨rfl, _⟩ | ⟨rfl, _⟩
  · exact hut.trans hpend
  · simp at hi
  · simp at hi

/-- The state with another TICK_P_NS. -/
def withTickPNs (p : Word) (s : State) : State := { s with cfg := { s.cfg with tickPNs := p } }

theorem tickEvent_withTickPNs (p : Word) (s : State) : tickEvent (withTickPNs p s) = withTickPNs p (tickEvent s) := by
  change (if isRunning s = false then _ else if s.tickPend then _ else _) = withTickPNs p (tickEvent s)
  unfold tickEvent
  split_ifs <;> rfl

theorem exec_tick (s : State) : exec .tick s = .next (tickEvent s) := rfl

theorem report_tickMissed (s : State) :
    report .tickMissed s = { s with err := { sticky := s.err.sticky ||| 0x20, lastErr := 9 }
                                    trace := s.trace ++ [.error .tickMissed] } := rfl

/-- The effect of TICK in each of its three cases (R111). -/
theorem exec_tick_effect (s : State) :
    (s.run = .configuring → exec .tick s = .next s) ∧
    (s.run = .running → s.tickPend = false → exec .tick s = .next { s with tickPend := true }) ∧
    (s.run = .running → s.tickPend = true →
      exec .tick s = .next { s with dlmissCnt := s.dlmissCnt + 1
                                    err := { sticky := s.err.sticky ||| 0x20, lastErr := 9 }
                                    trace := s.trace ++ [.error .tickMissed] }) := by
  rw [exec_tick]
  rcases tickEvent_cases s with ⟨hr, h⟩ | ⟨hr, hp, h⟩ | ⟨hr, hp, h⟩ <;> rw [h] <;> simp [*, report_tickMissed]

/-- Settles O11: of all moves only TICK's latches a tick, and TICK reads RUNSTATE and TICK_PEND alone. -/
theorem tickLatchesOrIsMissed : Obligations.TickLatchesOrIsMissed := by
  refine ⟨fun _ _ => tick_of_step, fun s t addr d h => ?_, fun s t p h => ⟨?_, rfl⟩, exec_tick_effect⟩
  · exact h.elim (hostAccess_keeps_tick (.inl ⟨addr, d, rfl⟩)) (hostAccess_keeps_tick (.inr ⟨addr, rfl⟩))
  · rw [exec_tick] at h
    cases h
    exact congrArg Host.Outcome.next (tickEvent_withTickPNs p s)

/-! ## The events of a tick (R113, R114, R117, R118) -/

theorem flatMap_ite_singleton {α β : Type} (p : α → Bool) (f : α → β) (l : List α) :
    l.flatMap (fun x => if p x = true then [] else [f x]) = (l.filter (fun x => !p x)).map f := by
  induction l with
  | nil => rfl
  | cons x l ih => by_cases hx : p x = true <;> simp [hx, ih]

/-- The SINK events of a tick: one for each existing channel that is not OFF, with the channel's new OUT. -/
theorem sinkEvents_tickService (s : State) :
    (channels s.params.nsyn).flatMap (fun c => sinkEvents s.params.sine s.mem s.tick.elapsed c s.syn[c]) =
      ((channels s.params.nsyn).filter (fun c => s.syn[c].cfg.mode != 0)).map
        (fun c => OutEvent.sink c (tickService s).syn[c].out) := by
  have hsink : ∀ c ∈ channels s.params.nsyn, sinkEvents s.params.sine s.mem s.tick.elapsed c s.syn[c] =
      if (s.syn[c].cfg.mode == 0) = true then [] else [OutEvent.sink c (tickService s).syn[c].out] := fun c hc => by
    rw [sinkEvents, tickService_syn, if_pos (mem_channels.1 hc)]
    simp only [beq_iff_eq]
  rw [List.flatMap_congr hsink, flatMap_ite_singleton]
  rfl

/-- MOD_CHECK sees ELAPSED after its advance. -/
theorem modApplies_advanceTime (s : State) :
    modApplies (advanceTime s) = true ↔
      modRefresh s.cfg ≠ 0 ∧ (s.tick.elapsed + s.cfg.tickPNs.toNat) % modRefresh s.cfg < modEps s.cfg ∧
        (s.cfg.modOnce = false ∨ s.pwm.lastWin ≠ some ((s.tick.elapsed + s.cfg.tickPNs.toNat) / modRefresh s.cfg)) := by
  rw [modApplies, inWindow, Bool.and_eq_true, decide_eq_true_iff, decide_eq_true_iff, and_assoc]
  rfl

/-- PWM_APPLY comes exactly when the scheduler applies at the advanced ELAPSED (42_modulation.md R160, R162). -/
theorem modEvents_advanceTime (s : State) :
    modEvents (advanceTime s) =
      if modRefresh s.cfg ≠ 0 ∧ (s.tick.elapsed + s.cfg.tickPNs.toNat) % modRefresh s.cfg < modEps s.cfg ∧
          (s.cfg.modOnce = false ∨
            s.pwm.lastWin ≠ some ((s.tick.elapsed + s.cfg.tickPNs.toNat) / modRefresh s.cfg)) then
        [OutEvent.pwmApply s.cfg.modGeom (modPeriodOf s.cfg) (modCompareOf s.cfg) (modCompareOf s.cfg)
          (modPhaseOf s.cfg)] else [] :=
  if_congr (modApplies_advanceTime s) rfl rfl

/-- Settles O13: the parts of the tick append their events one after the other. -/
theorem tickServiceEventOrder : Obligations.TickServiceEventOrder := by
  intro s
  rw [tickService_trace, sinkEvents_tickService, modEvents_advanceTime, liveEvents, trigEvents]

/-! ## The counters (R120) -/

/-- A sub-counter that goes back to 0 at `d` holds the remainder, and each time it does the quotient grows. -/
theorem succ_mod_div {d : ℕ} (hd : 0 < d) (n : ℕ) :
    (n + 1) % d = (if d ≤ n % d + 1 then 0 else n % d + 1) ∧
    (n + 1) / d = n / d + (if d ≤ n % d + 1 then 1 else 0) := by
  have hn := Nat.div_add_mod n d
  have hlt := Nat.mod_lt n hd
  refine And.symm ((Nat.div_mod_unique hd).2 ?_)
  split_ifs with h
  · exact ⟨by rw [Nat.mul_add_one]; omega, hd⟩
  · exact ⟨by rw [Nat.add_zero (n / d)]; omega, by omega⟩

theorem toNat_pos_of_ne_zero {w : Word} (h : w ≠ 0) : 0 < w.toNat :=
  Nat.pos_of_ne_zero fun h0 => h (BitVec.eq_of_toNat_eq h0)

theorem tickTally_start (o : SineOracle) (once : Bool) {s : State} (h : s.tick = .reset) : TickTally 0 (start o once s) := by
  rw [(start_eq o once s).1]
  simp [TickTally, h, TickWork.reset]

theorem tickTally_congr {n : ℕ} {s t : State} (htick : t.tick = s.tick) (hcfg : t.cfg = s.cfg) (h : TickTally n s) :
    TickTally n t := by
  unfold TickTally at *
  rwa [htick, hcfg]

theorem tickTally_tickService {n : ℕ} {s : State} (h : TickTally n s) : TickTally (n + 1) (tickService s) := by
  obtain ⟨helapsed, hcnt, hlive, htrig⟩ := h
  unfold TickTally
  rw [tickService_tick s.params.sine, tickServiceWith_tick, tickService_cfg]
  refine ⟨?_, ?_, fun hd => ?_, fun hd => ?_⟩
  · rw [helapsed, Nat.add_one_mul]
  · rw [hcnt, BitVec.ofNat_add]; rfl
  · obtain ⟨hsub, hlevel⟩ := hlive hd
    obtain ⟨hmod, hdiv⟩ := succ_mod_div (toNat_pos_of_ne_zero hd) n
    simp only [hd, ne_eq, not_false_eq_true, true_and, if_false, hsub, hlevel, hmod, hdiv]
    split_ifs
    · rw [← decide_not, decide_eq_decide]; omega
    · rfl
  · obtain ⟨hcount, hsub⟩ := htrig hd
    obtain ⟨hmod, hdiv⟩ := succ_mod_div (toNat_pos_of_ne_zero hd) n
    simp only [hd, ne_eq, not_false_eq_true, true_and, if_false, hsub, hcount, hmod, hdiv, and_true]
    split_ifs
    · rw [BitVec.ofNat_add]; rfl
    · rfl

/-- An operation that leaves a RUNNING block RUNNING keeps the counters. -/
theorem tick_of_effect {o : SineOracle} {s u : State} {i : Instr} (hs : s.run = .running) (hu : u.run = .running)
    (h : Effect o s i u) : u.tick = s.tick := by
  cases h with
  | writeCfg addr r d _ => exact writeCfg_tick r d s
  | start d hr _ _ => cases hr.symm.trans hs
  | reset => cases hu
  | _ => rfl

/-- A word that leaves a RUNNING block RUNNING keeps the counters and the configuration they depend on. -/
theorem tick_cfg_of_acceptWord {s t : State} {w : EventWord} (hs : s.run = .running) (ht : t.run = .running)
    (h : acceptWord w s = .next t) : t.tick = s.tick ∧ t.cfg = s.cfg := by
  rw [acceptWord_eq] at h
  cases h
  rcases wordResultBy_cases eventResult w s with ⟨i, _, h⟩ | ⟨_, _, h⟩ <;> rw [wordResult, h] at ht ⊢
  · obtain ⟨u, hu, _, _, _, hq⟩ := eventResultWith_effect s.params.sine i s
    rw [eventResult, hq] at ht ⊢
    have htick : u.tick = s.tick := tick_of_effect hs ht hu
    have hview : configView u = configView s := configView_of_effect hs ht hu
    exact ⟨htick, congrArg ConfigView.cfg hview⟩
  · exact ⟨rfl, rfl⟩

/-- Settles O14: TICK_SERVICE counts one tick more, and no other step of a RUNNING block touches the counters. -/
theorem tickTallyIsKept : Obligations.TickTallyIsKept := by
  refine ⟨fun o once _ => tickTally_start o once, fun _ _ => tickTally_tickService, fun _ _ _ h => h, ?_⟩
  intro n s t w hs ht h
  obtain ⟨htick, hcfg⟩ := tick_cfg_of_acceptWord hs ht h
  exact tickTally_congr htick hcfg

/-! ## The channels of a tick (41_synthesizer.md) -/

theorem tickedChannel_of_off {ch : SynChannel} (h : ch.cfg.mode = 0) (o : SineOracle) (m : Memory) (e : ℕ) (c : Chan) :
    tickedChannel o m e c ch = ch := if_pos h

/-- R137: an ELAPSED channel changes its output alone. -/
theorem tickedChannel_of_elapsed {ch : SynChannel} (h : ch.cfg.mode = 2) (o : SineOracle) (m : Memory) (e : ℕ) (c : Chan) :
    tickedChannel o m e c ch = { ch with out := sampleOutput o ch.cfg (elapsedPhase ch.cfg e) } := by
  have hstep : synStep o m e c ch = elapsedStep o e ch := by rw [synStep, h]; rfl
  rw [tickedChannel, if_neg (by rw [h]; decide), hstep, elapsedStep]

/-- R152: a channel's tick reads the storage through the channel's own table alone. -/
theorem tickedChannel_of_same_table {m m' : Memory} {c : Chan} (h : ∀ k, readLut m c k = readLut m' c k) (o : SineOracle)
    (e : ℕ) (ch : SynChannel) : tickedChannel o m e c ch = tickedChannel o m' e c ch := by
  simp only [tickedChannel, synStep, lutStep, h]

/-- Settles O16: the channels are stepped before ELAPSED advances. -/
theorem elapsedChannelTick : Obligations.ElapsedChannelTick := by
  intro s c hc hm
  have hwith (o : SineOracle) : (tickServiceWith o s).syn[c] = { s.syn[c] with
      out := sampleOutput o s.syn[c].cfg ((s.syn[c].cfg.freq.toNat : ℚ) * s.tick.elapsed / 10 ^ 12) } := by
    have hphase : elapsedPhase s.syn[c].cfg s.tick.elapsed =
        (s.syn[c].cfg.freq.toNat : ℚ) * s.tick.elapsed / 10 ^ 12 := by
      rw [elapsedPhase]; norm_num
    rw [tickServiceWith_syn, if_pos hc, tickedChannel_of_elapsed hm, hphase]
  exact ⟨hwith s.params.sine, hwith⟩

/-- Settles O19: each channel is stepped from its own state, whatever the others do. -/
theorem synthesisChannelsAreIndependent : Obligations.SynthesisChannelsAreIndependent := by
  intro s t c hparams helapsed hsyn hlut
  rw [tickService_syn, tickService_syn, hparams, helapsed, hsyn, tickedChannel_of_same_table hlut]

/-- Settles O18: the loop leaves an OFF channel out, and does not reach a channel at or above NSYN. -/
theorem offChannelKeepsItsState : Obligations.OffChannelKeepsItsState := by
  intro s c h
  rw [tickService_syn]
  split
  · exact tickedChannel_of_off (h.resolve_left (by omega)) _ _ _ _
  · rfl

end Sys2Proof.TickDispatcher
end

section
/-! PROOFS. The statements of 41_synthesizer.md: the phase of a DIRECT channel, the read index of a LUT channel, the output
mapping, and the tables that START builds. A tick steps each channel from its own state, so the sequences are iterations of
one channel's update; the SINK events come from the tick alone, since no event word appends one. -/

namespace Sys2Proof.Synthesizer

open Sys2Proof.Machine Sys2Proof.Laws Sys2Proof.BlockState Sys2Proof.TickDispatcher

/-! ## One tick of a channel (R131, R141) -/

theorem tickedChannel_of_direct {ch : SynChannel} (h : ch.cfg.mode = 1) (o : SineOracle) (m : Memory) (e : ℕ) (c : Chan) :
    tickedChannel o m e c ch =
      { ch with phase := phaseStep ch.inc ch.phase, out := sampleOutput o ch.cfg (phaseStep ch.inc ch.phase) } := by
  have hstep : synStep o m e c ch = directStep o ch := by rw [synStep, h]; rfl
  rw [tickedChannel, if_neg (by rw [h]; decide), hstep, directStep]

theorem tickedChannel_of_lut {ch : SynChannel} (h : ch.cfg.mode = 3) (o : SineOracle) (m : Memory) (e : ℕ) (c : Chan) :
    tickedChannel o m e c ch =
      { ch with index := nextIndex ch.cfg.lutN.toNat ch.index
                out := toOutput ch.cfg (lutXform (readLut m c ch.index) ch.cfg.shift) } := by
  have hstep : synStep o m e c ch = lutStep m c ch := by rw [synStep, h]; rfl
  rw [tickedChannel, if_neg (by rw [h]; decide), hstep, lutStep]

/-- Settles O15: the phase written is `phaseStep`, and the sample takes it. -/
theorem directChannelTick : Obligations.DirectChannelTick := by
  intro s c hc hm
  have hwith (o : SineOracle) := (tickServiceWith_syn o s c).trans (if_pos hc)
  simp only [tickedChannel_of_direct hm] at hwith
  exact ⟨hwith s.params.sine, hwith⟩

/-- Settles O17: the entry is read at the index before its advance. -/
theorem lutChannelTick : Obligations.LutChannelTick := by
  intro s c hc hm
  rw [tickService_syn, if_pos hc, tickedChannel_of_lut hm]
  rfl

/-! ## The phase sequence (R131 to R133) -/

/-- As long as the turn is not exceeded, the phase is the sum of the increments. -/
theorem iterate_phaseStep_of_le {d : ℚ} (hd : 0 ≤ d) {t : ℕ} (h : t * d ≤ 1) : (phaseStep d)^[t] 0 = t * d := by
  induction t with
  | zero => simp
  | succ t ih =>
    have hsucc : ((t + 1 : ℕ) : ℚ) * d = t * d + d := by push_cast; ring
    rw [hsucc] at h ⊢
    rw [Function.iterate_succ_apply', ih (by linarith), phaseStep, if_neg h.not_gt]

theorem phaseStep_of_gt {d phase : ℚ} (h : 1 < phase + d) : phaseStep d phase = 0 := if_pos h

theorem iterate_phaseStep_zero_inc (t : ℕ) : (phaseStep 0)^[t] 0 = 0 :=
  Function.iterate_fixed (by norm_num [phaseStep]) t

/-- An increment above one turn holds the phase at 0. -/
theorem iterate_phaseStep_of_one_lt {d : ℚ} (h : 1 < d) (t : ℕ) : (phaseStep d)^[t] 0 = 0 :=
  Function.iterate_fixed (phaseStep_of_gt (by rwa [zero_add])) t

/-- The first t updates stay within the turn exactly when t ≤ floor(1/d). -/
theorem le_toNat_floor_inv_iff {d : ℚ} (hd : 0 < d) (t : ℕ) : t ≤ ⌊1 / d⌋.toNat ↔ t * d ≤ 1 := by
  rw [Int.floor_toNat, Nat.le_floor_iff (one_div_nonneg.2 hd.le), le_div_iff₀ hd]

/-- After floor(1/d) + 1 updates the phase is 0 again. -/
theorem iterate_phaseStep_period {d : ℚ} (hd : 0 < d) : (phaseStep d)^[⌊1 / d⌋.toNat + 1] 0 = 0 := by
  have hle := (le_toNat_floor_inv_iff hd _).1 le_rfl
  have hgt := mt (le_toNat_floor_inv_iff hd (⌊1 / d⌋.toNat + 1)).2 (by omega)
  rw [Function.iterate_succ_apply', iterate_phaseStep_of_le hd.le hle, phaseStep_of_gt]
  push_cast at hgt
  linarith

/-- Settles O20: the phase climbs by d within the turn and then begins again at 0. -/
theorem phaseSequencePeriod : Obligations.PhaseSequencePeriod := by
  refine fun d => ⟨fun hd t => hd ▸ iterate_phaseStep_zero_inc t, fun hd => ⟨fun t ht => ?_, iterate_phaseStep_period hd,
    fun t => ?_, fun n hn => ?_, iterate_phaseStep_of_one_lt⟩⟩
  · exact iterate_phaseStep_of_le hd.le ((le_toNat_floor_inv_iff hd t).1 (Nat.le_of_lt_succ ht))
  · rw [Function.iterate_add_apply, iterate_phaseStep_period hd]
  · have hfloor : ⌊1 / d⌋.toNat = n := by rw [hn, Int.floor_natCast, Int.toNat_natCast]
    have hturn : n * d = 1 := by rw [← hn, one_div_mul_cancel hd.ne']
    rw [hfloor, iterate_phaseStep_of_le hd.le hturn.le, hturn]

/-! ## SINK events (R139, R151) -/

/-- `t` extends the trace of `s` by SINK events alone that are bounded and show the channel's new output. -/
def SinksShowOutputs (s t : State) : Prop :=
  ∃ events, t.trace = s.trace ++ events ∧
    ∀ c v, OutEvent.sink c v ∈ events → v ≤ s.syn[c].cfg.outmax.toNat ∧ t.syn[c].out = v

/-- `t` extends the trace of `s` by events that are no SINK. -/
def Sinkless (s t : State) : Prop := ∃ events, t.trace = s.trace ++ events ∧ ∀ c v, OutEvent.sink c v ∉ events

theorem sinkless_of_trace_eq {s t : State} (h : t.trace = s.trace) : Sinkless s t :=
  ⟨[], h.trans (List.append_nil _).symm, fun _ _ => List.not_mem_nil⟩

theorem Sinkless.trans {s t u : State} (h : Sinkless s t) (h' : Sinkless t u) : Sinkless s u := by
  obtain ⟨es, ht, hes⟩ := h
  obtain ⟨es', hu, hes'⟩ := h'
  exact ⟨es ++ es', by rw [hu, ht, List.append_assoc], fun c v hm => (List.mem_append.1 hm).elim (hes c v) (hes' c v)⟩

theorem sinkless_report (k : ErrCode) (s : State) : Sinkless s (report k s) := ⟨_, report_trace k s, by simp⟩

theorem sinkless_answerAccess (v : Word) (s : State) : Sinkless s (answerAccess v s) := ⟨_, emit_trace _ s, by simp⟩

theorem sinkless_refuseAccess (k : ErrCode) (s : State) : Sinkless s (refuseAccess k s) :=
  ⟨_, congrArg State.trace (refuseAccess_eq k s), by simp⟩

theorem sinkless_start (o : SineOracle) (once : Bool) (s : State) : Sinkless s (start o once s) :=
  ⟨_, congrArg State.trace (start_eq o once s).1, by simp⟩

theorem sinkless_ctrlWrite (o : SineOracle) (d : Word) (s : State) : Sinkless s (ctrlWrite o d s) := by
  unfold ctrlWrite
  split
  · exact sinkless_start o _ s
  · exact sinkless_of_trace_eq rfl

theorem sinkless_tickEvent (s : State) : Sinkless s (tickEvent s) := by
  rcases tickEvent_cases s with ⟨_, h⟩ | ⟨_, _, h⟩ | ⟨_, _, h⟩ <;> rw [h]
  · exact sinkless_of_trace_eq rfl
  · exact sinkless_of_trace_eq rfl
  · exact (sinkless_of_trace_eq rfl).trans (sinkless_report _ _)

theorem sinkless_convDoneEvent (a : Chan) (x : BitVec 12) (s : State) : Sinkless s (convDoneEvent a x s) := by
  rcases convDoneEvent_cases a x s with ⟨_, h⟩ | ⟨_, _, h⟩ | ⟨_, _, _, _, h⟩ | ⟨_, _, _, _, h⟩ <;> rw [h]
  · exact sinkless_report _ s
  · exact sinkless_of_trace_eq rfl
  · exact (sinkless_of_trace_eq (setAcq_trace _ _ s)).trans (sinkless_report _ _)
  · exact sinkless_of_trace_eq (setAcq_trace _ _ s)

theorem sinkless_hostRead (addr : HAddr) (s : State) : Sinkless s (hostRead addr s) := by
  rcases hostRead_cases addr s with ⟨k, _, h⟩ | ⟨r, _, _, h⟩ <;> rw [h]
  · exact sinkless_refuseAccess k s
  · exact (sinkless_of_trace_eq (by rw [readEffect_eq])).trans (sinkless_answerAccess _ _)

theorem sinkless_hostWriteWith (o : SineOracle) (addr : HAddr) (d : Word) (s : State) :
    Sinkless s (hostWriteWith o addr d s) := by
  rcases hostWriteWith_cases o addr d s with ⟨k, _, h⟩ | ⟨_, _, h⟩ | ⟨_, _, _, _, h⟩ | ⟨r, _, _, _, h⟩ <;> rw [h]
  · exact sinkless_refuseAccess k s
  · exact (sinkless_of_trace_eq rfl).trans (sinkless_answerAccess 0 (writeStatus d s))
  · exact (sinkless_ctrlWrite o d s).trans (sinkless_answerAccess 0 _)
  · exact (sinkless_of_trace_eq (writeCfg_trace r d s)).trans (sinkless_answerAccess 0 _)

/-- No operation appends a SINK. -/
theorem sinkless_eventResultWith (o : SineOracle) (i : Instr) (s : State) : Sinkless s (eventResultWith o i s) := by
  cases i with
  | tick => exact sinkless_tickEvent s
  | convDone ch x => exact sinkless_convDoneEvent (chanOf ch) x s
  | hostWr addr d => exact sinkless_hostWriteWith o addr d s
  | hostRd addr => exact sinkless_hostRead addr s
  | reset => exact ⟨[.resetDone], rfl, by simp⟩

theorem sinkless_wordResultBy (o : SineOracle) (w : EventWord) (s : State) :
    Sinkless s (wordResultBy (eventResultWith o) w s) := by
  rcases wordResultBy_cases (eventResultWith o) w s with ⟨i, _, h⟩ | ⟨_, _, h⟩ <;> rw [h]
  · exact sinkless_eventResultWith o i s
  · exact sinkless_report _ s

theorem sinksShowOutputs_of_sinkless {s t : State} (h : Sinkless s t) : SinksShowOutputs s t := by
  obtain ⟨events, ht, hnone⟩ := h
  exact ⟨events, ht, fun c v hm => absurd hm (hnone c v)⟩

/-- R139: every mode but OFF maps its value through `toOutput`. -/
theorem tickedChannel_out_le {ch : SynChannel} (h : ch.cfg.mode ≠ 0) (o : SineOracle) (m : Memory) (e : ℕ) (c : Chan) :
    (tickedChannel o m e c ch).out ≤ ch.cfg.outmax.toNat := by
  rw [tickedChannel, if_neg h, synStep]
  split
  · exact absurd ‹_› h
  · exact toOutput_le _ _
  · exact toOutput_le _ _
  · exact toOutput_le _ _

theorem sink_mem_sinkEvents {o : SineOracle} {m : Memory} {e : ℕ} {c d : Chan} {ch : SynChannel} {v : ℕ}
    (h : OutEvent.sink c v ∈ sinkEvents o m e d ch) :
    c = d ∧ ch.cfg.mode ≠ 0 ∧ v = (tickedChannel o m e d ch).out := by
  unfold sinkEvents at h
  split at h
  · cases h
  · cases List.mem_singleton.1 h
    exact ⟨rfl, ‹_›, rfl⟩

/-- R113: the SINK events of a tick are those of the channels it steps. -/
theorem sinksShowOutputs_tickServiceWith (o : SineOracle) (s : State) : SinksShowOutputs s (tickServiceWith o s) := by
  refine ⟨_, (tickServiceWith_trace o s).trans (by simp only [List.append_assoc]; rfl), fun c v hm => ?_⟩
  have hmod : OutEvent.sink c v ∉ modEvents (advanceTime s) := by unfold modEvents; split <;> simp
  have hlive : OutEvent.sink c v ∉ liveEvents s := by unfold liveEvents; split <;> simp
  have htrig : OutEvent.sink c v ∉ trigEvents s := by unfold trigEvents; split <;> simp
  simp only [List.mem_append, hmod, hlive, htrig, or_false] at hm
  obtain ⟨d, hd, hsink⟩ := List.mem_flatMap.1 hm
  obtain ⟨rfl, hmode, rfl⟩ := sink_mem_sinkEvents hsink
  exact ⟨tickedChannel_out_le hmode _ _ _ _, by rw [tickServiceWith_syn, if_pos (mem_channels.1 hd)]⟩

theorem sinksShowOutputs_stepWith {o : SineOracle} {s t : State} (h : stepWith o s = .next t) : SinksShowOutputs s t := by
  rw [stepWith_eq] at h
  cases h
  rcases stepResultBy_cases (eventResultWith o) (tickServiceWith o) s with ⟨w, _, _, h⟩ | ⟨_, h⟩ | ⟨a, _, h⟩ | h <;>
    rw [stepResultWith, h]
  · exact sinksShowOutputs_of_sinkless (sinkless_wordResultBy o w (dropTurn s))
  · exact sinksShowOutputs_tickServiceWith o (dropTurn s)
  · exact sinksShowOutputs_of_sinkless (sinkless_of_trace_eq rfl)
  · exact sinksShowOutputs_of_sinkless (sinkless_of_trace_eq rfl)

/-- Settles O25: of all moves only TICK_SERVICE appends SINK events, and each is the output of a channel it stepped. -/
theorem sinkValuesAreBounded : Obligations.SinkValuesAreBounded := by
  rintro s t (h | ⟨o, h⟩)
  · exact sinksShowOutputs_stepWith (Scope.step_eq_stepWith s ▸ h)
  · exact sinksShowOutputs_stepWith h

/-! ## LUT_XFORM (R145) -/

/-- Inverting bit 15 of a 16-bit number adds 2^15 modulo 2^16. -/
theorem nat_xor_bit15 {n : ℕ} (h : n < 2 ^ 16) : n ^^^ 2 ^ 15 = if n < 2 ^ 15 then n + 2 ^ 15 else n - 2 ^ 15 := by
  have hmod : (n ^^^ 2 ^ 15) % 2 ^ 15 = n % 2 ^ 15 := by rw [Nat.xor_mod_two_pow, Nat.mod_self, Nat.xor_zero]
  have hdiv : (n ^^^ 2 ^ 15) / 2 ^ 15 = n / 2 ^ 15 ^^^ 1 := by rw [Nat.xor_div_two_pow, Nat.div_self (by decide)]
  split
  · rw [show n / 2 ^ 15 = 0 by omega, Nat.zero_xor] at hdiv
    omega
  · rw [show n / 2 ^ 15 = 1 by omega, Nat.xor_self] at hdiv
    omega

/-- Offset binary: two's complement plus 2^15 is the pattern with bit 15 inverted. -/
theorem toInt_add_eq_toNat_xor (x : BitVec 16) : x.toInt + 32768 = ((x ^^^ 0x8000#16).toNat : ℤ) := by
  have hx := x.isLt
  have hxor : (x ^^^ 0x8000#16).toNat = x.toNat ^^^ 2 ^ 15 := BitVec.toNat_xor x _
  rw [hxor, nat_xor_bit15 hx, BitVec.toInt_eq_toNat_cond]
  split_ifs <;> omega

theorem lutXform_eq_floor (z : ℤ) (shift : BitVec 4) :
    lutXform z shift = ⌊((z : ℚ) + 32768) / 2 ^ shift.toNat⌋ := by
  have h := Rat.floor_intCast_div_natCast (z + 32768) (2 ^ shift.toNat)
  push_cast at h
  exact h.symm

theorem lutXform_eq_shiftRight (x : BitVec 16) (shift : BitVec 4) :
    lutXform x.toInt shift = (((x ^^^ 0x8000#16).toNat >>> shift.toNat : ℕ) : ℤ) := by
  rw [lutXform, toInt_add_eq_toNat_xor, Nat.shiftRight_eq_div_pow]
  push_cast
  rfl

theorem shiftRight_le_shiftRight {m n : ℕ} (h : m ≤ n) (k : ℕ) : m >>> k ≤ n >>> k := by
  rw [Nat.shiftRight_eq_div_pow, Nat.shiftRight_eq_div_pow]
  exact Nat.div_le_div_right h

/-- A value of the range is reached from its left shift, bit 15 inverted. -/
theorem exists_lutXform_eq {shift : BitVec 4} {v : ℕ} (h : v ≤ 65535 >>> shift.toNat) :
    ∃ x : BitVec 16, lutXform x.toInt shift = v := by
  have hle : v <<< shift.toNat ≤ 65535 := by
    rw [Nat.shiftRight_eq_div_pow, Nat.le_div_iff_mul_le (Nat.two_pow_pos _)] at h
    rwa [Nat.shiftLeft_eq]
  refine ⟨BitVec.ofNat 16 (v <<< shift.toNat) ^^^ 0x8000#16, ?_⟩
  rw [lutXform_eq_shiftRight, BitVec.xor_assoc, BitVec.xor_self, BitVec.xor_zero, BitVec.toNat_ofNat,
    Nat.mod_eq_of_lt (by omega), Nat.shiftLeft_shiftRight]

/-- Settles O26: in offset binary the floor of the quotient is a right shift of a 16-bit number. -/
theorem lutXformIsOffsetBinaryShifted : Obligations.LutXformIsOffsetBinaryShifted := by
  refine ⟨fun x shift => ⟨lutXform_eq_floor _ _, lutXform_eq_shiftRight x shift, ?_⟩,
    fun shift v => exists_lutXform_eq, by decide, by decide⟩
  have hx := (x ^^^ 0x8000#16).isLt
  have hle := shiftRight_le_shiftRight (Nat.le_of_lt_succ hx) shift.toNat
  rw [lutXform_eq_shiftRight]
  exact ⟨Int.natCast_nonneg _, Int.ofNat_le.2 hle⟩

/-! ## The index sequence of a LUT channel (R140, R141, R146) -/

/-- What TICK_SERVICE keeps, n of them keep. -/
theorem iterate_tickService_keeps {α : Type} {f : State → α} (h : ∀ s, f (tickService s) = f s) (n : ℕ) (s : State) :
    f (tickService^[n] s) = f s := by
  induction n with
  | zero => rfl
  | succ n ih => rw [Function.iterate_succ_apply', h, ih]

theorem iterate_tickService_syn_cfg (n : ℕ) (s : State) (c : Chan) : (tickService^[n] s).syn[c].cfg = s.syn[c].cfg :=
  iterate_tickService_keeps (f := fun s => s.syn[c].cfg) (fun _ => tickServiceWith_syn_cfg _ _ c) n s

theorem nextIndex_mod {N : ℕ} (hN : 1 ≤ N) (n : ℕ) : nextIndex N (n % N) = (n + 1) % N := by
  have hlt := Nat.mod_lt n hN
  rw [(succ_mod_div hN n).1, nextIndex]
  exact if_congr (by omega) rfl rfl

section Lut
variable {s : State} {c : Chan} (hc : c.val < s.params.nsyn) (hm : s.syn[c].cfg.mode = 3)
include hc hm

/-- Each tick of a LUT channel reads the unchanged table at the index the last one left. -/
theorem iterate_succ_tickService_syn_of_lut (n : ℕ) :
    (tickService^[n + 1] s).syn[c] = { (tickService^[n] s).syn[c] with
      index := nextIndex s.syn[c].cfg.lutN.toNat (tickService^[n] s).syn[c].index
      out := toOutput s.syn[c].cfg (lutXform (readLut s.mem c (tickService^[n] s).syn[c].index) s.syn[c].cfg.shift) } := by
  have hcfg := iterate_tickService_syn_cfg n s c
  rw [Function.iterate_succ_apply', tickService_syn, iterate_tickService_keeps tickService_params,
    iterate_tickService_keeps tickService_mem, if_pos hc, tickedChannel_of_lut (hcfg ▸ hm)]
  simp only [hcfg]

theorem iterate_tickService_index (hN : 1 ≤ s.syn[c].cfg.lutN.toNat) (h0 : s.syn[c].index = 0) (n : ℕ) :
    (tickService^[n] s).syn[c].index = n % s.syn[c].cfg.lutN.toNat := by
  induction n with
  | zero => rw [Nat.zero_mod]; exact h0
  | succ n ih => rw [iterate_succ_tickService_syn_of_lut hc hm, ih, nextIndex_mod hN]

end Lut

/-- Settles O27: the output of tick n + 1 depends on n mod N alone. -/
theorem lutIndexCycles : Obligations.LutIndexCycles := by
  intro s c hc hm hN h0 n
  have hindex := iterate_tickService_index hc hm hN h0
  have hout (n : ℕ) : (tickService^[n + 1] s).syn[c].out =
      toOutput s.syn[c].cfg (lutXform (readLut s.mem c (n % s.syn[c].cfg.lutN.toNat)) s.syn[c].cfg.shift) := by
    rw [iterate_succ_tickService_syn_of_lut hc hm, hindex]
  refine ⟨hindex n, hout n, ?_⟩
  rw [Nat.add_right_comm, hout, hout, Nat.add_mod_right]

/-! ## START (R143, R214, R216, R239) -/

/-- A START that passes validation builds with the sine given, and answers. -/
theorem execWith_start {s : State} {d : Word} (hr : s.run = .configuring) (hd : d.getLsbD 0 = true)
    (hv : startValid s = true) (o : SineOracle) :
    execWith o (.hostWr 0x00008 d) s = .next (answerAccess 0 (start o (d.getLsbD 1) s)) := by
  have hloc : locate s.params 0x00008 = .ok .ctrl := rfl
  have hrun : isRunning s = false := by rw [isRunning, hr]; rfl
  have hcheck : writeCheck s .ctrl d = none := by simp [writeCheck, hrun, hv]
  have hctrl : writeEffect o .ctrl d s = start o (d.getLsbD 1) s := if_pos hd
  simp only [execWith, hostWriteWith, hloc, hcheck, hctrl]

theorem exec_start {s : State} {d : Word} (hr : s.run = .configuring) (hd : d.getLsbD 0 = true)
    (hv : startValid s = true) :
    exec (.hostWr 0x00008 d) s = .next (answerAccess 0 (start s.params.sine (d.getLsbD 1) s)) := by
  rw [Scope.exec_eq_execWith, execWith_start hr hd hv]

theorem lutRaw_eq (o : SineOracle) (cfg : SynCfg) (k : ℕ) :
    lutRaw o cfg k = roundSine o ((k : ℚ) / cfg.lutN.toNat) ((cfg.amp.toNat : ℚ) * sext32 cfg.gain / 10 ^ 6) 0 := by
  rw [lutRaw]; norm_num

theorem incrementOf_eq (cfg : SynCfg) (p : Word) : incrementOf cfg p = (cfg.freq.toNat : ℚ) * p.toNat / 10 ^ 12 := by
  rw [incrementOf]; norm_num

/-- The table of a LUT channel after START. -/
theorem readLut_start_of_lut {s : State} {c : Chan} {k : ℕ} (hc : c.val < s.params.nsyn) (hm : s.syn[c].cfg.mode = 3)
    (hk : k < 1024) (o : SineOracle) (once : Bool) :
    readLut (start o once s).mem c k = if k < s.syn[c].cfg.lutN.toNat then
      clamp (roundSine o ((k : ℚ) / s.syn[c].cfg.lutN.toNat)
        ((s.syn[c].cfg.amp.toNat : ℚ) * sext32 s.syn[c].cfg.gain / 10 ^ 6) 0) (-32768) 32767 else 0 := by
  rw [readLut_start, if_pos ⟨hc, hm⟩, lutRaw_eq]
  exact if_congr (lt_min_iff.trans (and_iff_left hk)) rfl rfl

/-- The builds write within the windows of the LUT channels among those listed. -/
theorem readByte_builtMem_fold {o : SineOracle} {syn : Vector SynChannel 16} {cs : List Chan} {x : ℕ}
    (h : ∀ c ∈ cs, syn[c].cfg.mode = 3 → x < lutAddr c 0 ∨ lutAddr c lutMaxN ≤ x) (m : Memory) :
    readByte (cs.foldl (fun m c => builtMem o syn[c].cfg c m) m) x = readByte m x := by
  induction cs generalizing m with
  | nil => rfl
  | cons c cs ih =>
    obtain ⟨hhead, htail⟩ := List.forall_mem_cons.1 h
    rw [List.foldl_cons, ih htail, readByte_builtMem_of_outside hhead]

theorem readByte_start {s : State} {x : ℕ} (o : SineOracle) (once : Bool)
    (h : ∀ c : Chan, c.val < s.params.nsyn → s.syn[c].cfg.mode = 3 → x < lutAddr c 0 ∨ lutAddr c lutMaxN ≤ x) :
    readByte (start o once s).mem x = readByte s.mem x := by
  rw [start_mem, readByte_builtMem_fold fun c hc => h c (mem_channels.1 hc)]

/-- START writes RUNSTATE, MOD_ONCE, the channels, the storage and the reports. -/
theorem start_frame (o : SineOracle) (once : Bool) (s : State) :
    start o once s = { s with
      run := .running
      cfg := { s.cfg with modOnce := once }
      syn := (start o once s).syn
      mem := (start o once s).mem
      err := (start o once s).err
      trace := (start o once s).trace } := by
  rw [(start_eq o once s).1]

/-- Settles O51: START is one update of the state, and its response writes the trace alone. -/
theorem startConfiguresAndRuns : Obligations.StartConfiguresAndRuns := by
  intro s d hr hd hv
  set once := d.getLsbD 1
  refine ⟨_, exec_start hr hd hv, ?_, ?_⟩
  · exact congrArg (emit (.hostResp true 0)) (start_frame _ once s)
  simp only [answerAccess, emit_syn, emit_mem, ← incrementOf_eq]
  refine ⟨start_syn _ once s, fun c k hc hm hk => readLut_start_of_lut hc hm hk _ once, fun c k h => ?_,
    readBuf_start _ once s, fun x => readByte_start _ once, fun o => ⟨_, execWith_start hr hd hv o, ?_⟩⟩
  · exact (readLut_start _ once s c k).trans (if_neg fun hc => h.elim (by omega) (absurd hc.2))
  · simp only [answerAccess, emit_mem]
    exact fun c k hc hm hk => readLut_start_of_lut hc hm hk o once

/-- A valid START builds whole tables, so a table saturates exactly when one of its N entries does. -/
theorem mem_saturating_iff {s : State} (hv : startValid s = true) (o : SineOracle) (c : Chan) :
    c ∈ saturating o s.syn (channels s.params.nsyn) ↔ c.val < s.params.nsyn ∧ s.syn[c].cfg.mode = 3 ∧
      ∃ k, k < s.syn[c].cfg.lutN.toNat ∧ (lutRaw o s.syn[c].cfg k < -32768 ∨ 32767 < lutRaw o s.syn[c].cfg k) := by
  obtain ⟨_, hlut, _⟩ := (startValid_iff s).1 hv
  rw [saturating, List.mem_filter, mem_channels, buildSaturates_iff]
  refine and_congr_right fun hc => and_congr_right fun hm => ?_
  rw [min_eq_left (hlut c hc hm).2]

/-- Settles O52: the reports are those of the saturating channels, in the order in which START builds their tables. -/
theorem startReportsSaturation : Obligations.StartReportsSaturation := by
  intro s d hr hd hv
  have hstart := (start_eq s.params.sine (d.getLsbD 1) s).1
  refine ⟨_, saturating s.params.sine s.syn (channels s.params.nsyn), exec_start hr hd hv,
    (channels_sorted _).filter _, fun c => ?_, ?_, ?_⟩
  · simp only [mem_saturating_iff hv, lutRaw_eq, exists_and_left, exists_eq_left]
  · rw [answerAccess, emit_trace, hstart]
  · rw [answerAccess, emit_err, hstart]
    rfl

end Sys2Proof.Synthesizer
end

section
/-! PROOFS. The statements of 42_modulation.md. The comparator threshold and the phase count are truncated means of two
integers, weighted in ppm: of the period and the threshold at full duty, and of 0 and the period. Their bounds and corner
cases are those of such a mean. -/

namespace Sys2Proof.Modulation

open Sys2Proof.Machine Sys2Proof.Laws Sys2Proof.BlockState Sys2Proof.TickDispatcher Sys2Proof.Synthesizer

/-! ## Truncation, floor and clamp (00_scope.md R10) -/

theorem clamp_of_le {v lo hi : ℤ} (h : v ≤ lo) (h' : lo ≤ hi) : clamp v lo hi = lo := by
  unfold clamp; omega

theorem clamp_of_ge {v lo hi : ℤ} (h : hi ≤ v) : clamp v lo hi = hi := by
  unfold clamp; omega

theorem truncDiv_mono {a b n : ℤ} (hn : 0 < n) (h : a ≤ b) : truncDiv a n ≤ truncDiv b n :=
  Int.tdiv_le_tdiv hn h

theorem truncDiv_mul_cancel (a : ℤ) {n : ℤ} (hn : n ≠ 0) : truncDiv (a * n) n = a :=
  Int.mul_tdiv_cancel a hn

theorem truncQ_intCast_div (a : ℤ) {n : ℕ} (hn : 0 < n) : truncQ ((a : ℚ) / n) = truncDiv a n := by
  have hn' : (0 : ℚ) < n := Nat.cast_pos.2 hn
  have hsign : 0 ≤ (a : ℚ) / n ↔ 0 ≤ a := by rw [le_div_iff₀ hn', zero_mul, Int.cast_nonneg_iff]
  unfold truncQ truncDiv
  split_ifs with h <;> rw [hsign] at h
  · rw [Rat.floor_intCast_div_natCast, Int.tdiv_eq_ediv_of_nonneg h]
  · rw [Rat.ceil_intCast_div_natCast, ← Int.tdiv_eq_ediv_of_nonneg (by omega), Int.neg_tdiv, neg_neg]

theorem floor_intCast_div (a : ℤ) {b : ℤ} (hb : 0 ≤ b) : ⌊(a : ℚ) / b⌋ = floorDiv a b := by
  obtain ⟨n, rfl⟩ := Int.eq_ofNat_of_zero_le hb
  exact Rat.floor_intCast_div_natCast a n

theorem toNat_wrap32 {z : ℤ} (hlo : -1 ≤ z) (hhi : z ≤ 2 ^ 32 - 2) :
    ((wrap32 z).toNat : ℤ) = if z = -1 then 2 ^ 32 - 1 else z := by
  rw [wrap32, BitVec.toNat_ofInt]
  split_ifs with h <;> omega

/-! ## The truncated mean -/

/-- The mean of `a` and `b` truncated, `w` ppm of it from `b`. -/
def ppmMean (a b w : ℤ) : ℤ := truncDiv (a * (1000000 - w) + b * w) 1000000

theorem ppmMean_zero (a b : ℤ) : ppmMean a b 0 = a := by
  rw [ppmMean, mul_zero, add_zero, sub_zero, truncDiv_mul_cancel _ (by decide)]

theorem ppmMean_million (a b : ℤ) : ppmMean a b 1000000 = b := by
  rw [ppmMean, sub_self, mul_zero, zero_add, truncDiv_mul_cancel _ (by decide)]

theorem ppmMean_self (a w : ℤ) : ppmMean a a w = a := by
  rw [ppmMean, ← mul_add, sub_add_cancel, truncDiv_mul_cancel _ (by decide)]

/-- A mean lies between any bounds of the two integers. -/
theorem ppmMean_bounds {a b w lo hi : ℤ} (hw : 0 ≤ w ∧ w ≤ 1000000) (ha : lo ≤ a ∧ a ≤ hi) (hb : lo ≤ b ∧ b ≤ hi) :
    lo ≤ ppmMean a b w ∧ ppmMean a b w ≤ hi := by
  have hw' : 0 ≤ 1000000 - w := sub_nonneg.2 hw.2
  constructor
  · rw [← ppmMean_self lo w]
    exact truncDiv_mono (by decide) (add_le_add (mul_le_mul_of_nonneg_right ha.1 hw') (mul_le_mul_of_nonneg_right hb.1 hw.1))
  · rw [← ppmMean_self hi w]
    exact truncDiv_mono (by decide) (add_le_add (mul_le_mul_of_nonneg_right ha.2 hw') (mul_le_mul_of_nonneg_right hb.2 hw.1))

/-- A value in (-1, 0) truncates to 0 (R167, R175). -/
theorem ppmMean_zero_neg_one {w : ℤ} (h0 : 0 ≤ w) (h : w < 1000000) : ppmMean 0 (-1) w = 0 := by
  rw [ppmMean, zero_mul, zero_add, neg_one_mul, truncDiv, Int.neg_tdiv, Int.tdiv_eq_zero_of_lt h0 h, neg_zero]

theorem truncQ_ppmMean (a b w : ℤ) : truncQ ((a : ℚ) * (1 - w / 10 ^ 6) + b * (w / 10 ^ 6)) = ppmMean a b w := by
  have h := truncQ_intCast_div (a * (1000000 - w) + b * w) (n := 1000000) (by decide)
  push_cast at h
  rw [ppmMean, ← h]
  congr 1
  ring

/-! ## What MOD_APPLY computes (R163) -/

/-- The phase fraction used, in ppm (R168). -/
def modPhasePpmOf (cfg : GlobalCfg) : ℤ := clamp (sext32 cfg.modPhase) 0 1000000

theorem modPhasePpmOf_bounds (cfg : GlobalCfg) : 0 ≤ modPhasePpmOf cfg ∧ modPhasePpmOf cfg ≤ 1000000 :=
  clamp_bounds (by decide)

/-- The comparator threshold of a duty of 1 (R175). -/
def fullDutyCompare (cfg : GlobalCfg) : ℤ := if cfg.modGeom = 0 then 0 else -1

theorem geom_cases (g : BitVec 1) : g = 0 ∨ g = 1 := by
  revert g; decide

theorem modPeriodOf_symmetric {cfg : GlobalCfg} (h : cfg.modGeom = 0) :
    modPeriodOf cfg = floorDiv (cfg.modClkbase.toNat * 1000) (2 * modTarget cfg) := by
  rw [modPeriodOf, if_pos ((modSymmetric_iff cfg).2 h)]

theorem modPeriodOf_asymmetric {cfg : GlobalCfg} (h : cfg.modGeom = 1) :
    modPeriodOf cfg = floorDiv (cfg.modClkbase.toNat * 1000) (modTarget cfg) - 1 := by
  rw [modPeriodOf, if_neg (by simp [modSymmetric, h])]

theorem fullDutyCompare_symmetric {cfg : GlobalCfg} (h : cfg.modGeom = 0) : fullDutyCompare cfg = 0 := if_pos h

theorem fullDutyCompare_asymmetric {cfg : GlobalCfg} (h : cfg.modGeom = 1) : fullDutyCompare cfg = -1 :=
  if_neg (by simp [h])

/-- The threshold goes from the period at duty 0 to the one of duty 1, in both geometries (R167). -/
theorem modCompareOf_eq (cfg : GlobalCfg) :
    modCompareOf cfg = ppmMean (modPeriodOf cfg) (fullDutyCompare cfg) (modDutyOf cfg) := by
  unfold modCompareOf fullDutyCompare ppmMean
  simp only [modSymmetric_iff]
  split_ifs <;> congr 1 <;> ring

/-- The phase count goes from 0 to the period (R168). -/
theorem modPhaseOf_eq (cfg : GlobalCfg) : modPhaseOf cfg = ppmMean 0 (modPeriodOf cfg) (modPhasePpmOf cfg) := by
  rw [ppmMean, zero_mul, zero_add, modPhaseOf, modPhasePpmOf]

/-! ## The range of the results (R173) -/

theorem floorDiv_clkbase_bounds (w : Word) {k F : ℤ} (hk : 0 < k) (hF : 1000 ≤ F) :
    0 ≤ floorDiv (w.toNat * 1000) (k * F) ∧ k * floorDiv (w.toNat * 1000) (k * F) ≤ w.toNat := by
  have hpos : 0 < k * F := mul_pos hk (by omega)
  have h0 : 0 ≤ floorDiv (w.toNat * 1000) (k * F) := Int.ediv_nonneg (by omega) hpos.le
  have hmul : floorDiv (w.toNat * 1000) (k * F) * (k * F) ≤ w.toNat * 1000 := Int.ediv_mul_le _ hpos.ne'
  have hF' : k * floorDiv (w.toNat * 1000) (k * F) * 1000 ≤ k * floorDiv (w.toNat * 1000) (k * F) * F :=
    mul_le_mul_of_nonneg_left hF (mul_nonneg hk.le h0)
  exact ⟨h0, by linarith⟩

theorem modPeriodOf_bounds_symmetric {cfg : GlobalCfg} (h : cfg.modGeom = 0) :
    0 ≤ modPeriodOf cfg ∧ 2 * modPeriodOf cfg ≤ cfg.modClkbase.toNat := by
  rw [modPeriodOf_symmetric h]
  exact floorDiv_clkbase_bounds _ (by decide) (modTarget_ge cfg)

theorem modPeriodOf_bounds_asymmetric {cfg : GlobalCfg} (h : cfg.modGeom = 1) :
    -1 ≤ modPeriodOf cfg ∧ modPeriodOf cfg ≤ cfg.modClkbase.toNat - 1 := by
  have := floorDiv_clkbase_bounds cfg.modClkbase one_pos (modTarget_ge cfg)
  rw [one_mul] at this
  rw [modPeriodOf_asymmetric h]
  omega

/-- In both geometries the threshold at full duty is at most the period. -/
theorem modPeriodOf_bounds (cfg : GlobalCfg) :
    fullDutyCompare cfg ≤ modPeriodOf cfg ∧ -1 ≤ modPeriodOf cfg ∧ modPeriodOf cfg ≤ 2 ^ 32 - 2 := by
  have hCB := cfg.modClkbase.isLt
  rcases geom_cases cfg.modGeom with h | h
  · have := modPeriodOf_bounds_symmetric h
    rw [fullDutyCompare_symmetric h]
    omega
  · have := modPeriodOf_bounds_asymmetric h
    rw [fullDutyCompare_asymmetric h]
    omega

theorem modCompareOf_bounds (cfg : GlobalCfg) :
    fullDutyCompare cfg ≤ modCompareOf cfg ∧ modCompareOf cfg ≤ modPeriodOf cfg := by
  have hp := (modPeriodOf_bounds cfg).1
  rw [modCompareOf_eq]
  exact ppmMean_bounds (modDutyOf_bounds cfg) ⟨hp, le_rfl⟩ ⟨le_rfl, hp⟩

theorem modPhaseOf_bounds (cfg : GlobalCfg) :
    min (modPeriodOf cfg) 0 ≤ modPhaseOf cfg ∧ modPhaseOf cfg ≤ max (modPeriodOf cfg) 0 := by
  rw [modPhaseOf_eq]
  exact ppmMean_bounds (modPhasePpmOf_bounds cfg) ⟨min_le_right _ _, le_max_right _ _⟩ ⟨min_le_left _ _, le_max_left _ _⟩

/-- Settles O28: the period bounds both means. -/
theorem modulationResultsFit : Obligations.ModulationResultsFit := by
  intro cfg
  have hCB := cfg.modClkbase.isLt
  have hp := modPeriodOf_bounds cfg
  have hq := modCompareOf_bounds cfg
  have hh := modPhaseOf_bounds cfg
  refine ⟨fun h => ?_, fun h => ?_, fun z hz => ?_⟩
  · have := modPeriodOf_bounds_symmetric h
    rw [fullDutyCompare_symmetric h] at hq
    omega
  · have := modPeriodOf_bounds_asymmetric h
    rw [fullDutyCompare_asymmetric h] at hq
    omega
  · have hfull : -1 ≤ fullDutyCompare cfg := by unfold fullDutyCompare; split <;> decide
    have hrange : -1 ≤ z ∧ z ≤ 2 ^ 32 - 2 := by
      simp only [modCompareBOf, List.mem_cons, List.not_mem_nil, or_false] at hz
      omega
    exact ⟨hrange.1, hrange.2, toNat_wrap32 hrange.1 hrange.2⟩

/-! ## The results as roundings of exact rationals (R164 to R169) -/

theorem modTarget_cast (cfg : GlobalCfg) : (modTarget cfg : ℚ) = max (sext32 cfg.modFreq : ℚ) 1000 := by
  rw [modTarget, Int.cast_max, Int.cast_ofNat]

theorem floor_clkbase_div (cfg : GlobalCfg) {b : ℤ} (hb : 0 ≤ b) :
    floorDiv (cfg.modClkbase.toNat * 1000) b = ⌊(cfg.modClkbase.toNat : ℚ) * 1000 / b⌋ := by
  rw [← floor_intCast_div _ hb]
  push_cast
  rfl

theorem modCompareOf_eq_truncQ (cfg : GlobalCfg) :
    modCompareOf cfg = truncQ ((modPeriodOf cfg : ℚ) * (1 - modDutyOf cfg / 10 ^ 6) +
      fullDutyCompare cfg * (modDutyOf cfg / 10 ^ 6)) := by
  rw [modCompareOf_eq, truncQ_ppmMean]

theorem modPhasePpmOf_cast (cfg : GlobalCfg) :
    (modPhasePpmOf cfg : ℚ) = min (max (sext32 cfg.modPhase : ℚ) 0) (10 ^ 6) := by
  rw [modPhasePpmOf, clamp, Int.cast_min, Int.cast_max, Int.cast_zero]
  norm_num

theorem modPhaseOf_eq_truncQ (cfg : GlobalCfg) :
    modPhaseOf cfg = truncQ ((modPeriodOf cfg : ℚ) * modPhasePpmOf cfg / 10 ^ 6) := by
  rw [modPhaseOf_eq, ← truncQ_ppmMean, Int.cast_zero, zero_mul, zero_add, mul_div_assoc]

/-- Settles O29: an integer quotient rounds the rational one. -/
theorem modulationFormulas : Obligations.ModulationFormulas := by
  intro cfg
  have hF := modTarget_ge cfg
  refine ⟨rfl, fun h => ⟨?_, ?_⟩, fun h => ⟨?_, ?_⟩, ?_, rfl⟩
  · rw [modPeriodOf_symmetric h, floor_clkbase_div _ (by omega), Int.cast_mul, Int.cast_ofNat, modTarget_cast]
  · rw [modCompareOf_eq_truncQ, fullDutyCompare_symmetric h, Int.cast_zero, zero_mul, add_zero]
  · rw [modPeriodOf_asymmetric h, floor_clkbase_div _ (by omega), modTarget_cast]
  · rw [modCompareOf_eq_truncQ, fullDutyCompare_asymmetric h, Int.cast_neg, Int.cast_one]
    congr 1
    ring
  · rw [modPhaseOf_eq_truncQ, modPhasePpmOf_cast]

/-! ## The duty's clamp (R166) -/

/-- The threshold depends on MOD_DUTY through its clamp alone. -/
theorem modCompareOf_withDuty {cfg : GlobalCfg} {d : Word} (h : modDutyOf cfg = clamp (sext32 d) 0 1000000) :
    modCompareOf cfg = modCompareOf { cfg with modDuty := d } := by
  rw [modCompareOf_eq, h, modCompareOf_eq]
  rfl

theorem modDutyOf_of_le {cfg : GlobalCfg} (h : sext32 cfg.modDuty ≤ 0) : modDutyOf cfg = 0 := clamp_of_le h (by decide)

theorem modDutyOf_of_ge {cfg : GlobalCfg} (h : 1000000 ≤ sext32 cfg.modDuty) : modDutyOf cfg = 1000000 := clamp_of_ge h

/-- Settles O30: a duty outside [0, 1] and the nearer end have one clamp. -/
theorem dutyIsClamped : Obligations.DutyIsClamped := fun _ =>
  ⟨fun h => modCompareOf_withDuty (modDutyOf_of_le h.le), fun h => modCompareOf_withDuty (modDutyOf_of_ge h.le), rfl⟩

/-! ## The corner cases (R175) -/

theorem modPeriodOf_of_lt_symmetric {cfg : GlobalCfg} (hg : cfg.modGeom = 0)
    (h : cfg.modClkbase.toNat * 1000 < 2 * modTarget cfg) : modPeriodOf cfg = 0 := by
  rw [modPeriodOf_symmetric hg]
  exact Int.ediv_eq_zero_of_lt (by omega) h

theorem modPeriodOf_of_lt_asymmetric {cfg : GlobalCfg} (hg : cfg.modGeom = 1)
    (h : cfg.modClkbase.toNat * 1000 < modTarget cfg) : modPeriodOf cfg = -1 := by
  have h0 : floorDiv (cfg.modClkbase.toNat * 1000) (modTarget cfg) = 0 := Int.ediv_eq_zero_of_lt (by omega) h
  rw [modPeriodOf_asymmetric hg, h0, zero_sub]

/-- With a period equal to the threshold at full duty, the duty plays no part. -/
theorem modCompareOf_of_period_eq {cfg : GlobalCfg} (h : modPeriodOf cfg = fullDutyCompare cfg) :
    modCompareOf cfg = fullDutyCompare cfg := by
  rw [modCompareOf_eq, h, ppmMean_self]

theorem modPhaseOf_of_ge {cfg : GlobalCfg} (h : 1000000 ≤ sext32 cfg.modPhase) : modPhaseOf cfg = modPeriodOf cfg := by
  rw [modPhaseOf_eq, modPhasePpmOf, clamp_of_ge h, ppmMean_million]

theorem modPhaseOf_of_period_neg_one {cfg : GlobalCfg} (h : modPeriodOf cfg = -1) :
    modPhaseOf cfg = if 1000000 ≤ sext32 cfg.modPhase then -1 else 0 := by
  split_ifs with hph
  · rw [modPhaseOf_of_ge hph, h]
  · have hlt : modPhasePpmOf cfg < 1000000 := by unfold modPhasePpmOf clamp; omega
    rw [modPhaseOf_eq, h, ppmMean_zero_neg_one (modPhasePpmOf_bounds cfg).1 hlt]

/-- Settles O31: at the ends of its weight, or of two equal integers, a mean is one of the integers. -/
theorem modulationCornerCases : Obligations.ModulationCornerCases := by
  intro cfg
  refine ⟨fun hg hCB => ?_, fun hg h => ?_, fun h => ?_, fun h => ?_, modPhaseOf_of_ge, modPeriodOf_of_lt_symmetric⟩
  · have hlt : cfg.modClkbase.toNat * 1000 < 2 * modTarget cfg := by
      have := modTarget_ge cfg
      rw [hCB, show (0 : Word).toNat = 0 from rfl]
      omega
    have hp := modPeriodOf_of_lt_symmetric hg hlt
    have hz := fullDutyCompare_symmetric hg
    exact ⟨hp, (modCompareOf_of_period_eq (hp.trans hz.symm)).trans hz, by rw [modPhaseOf_eq, hp, ppmMean_self]⟩
  · have hp := modPeriodOf_of_lt_asymmetric hg h
    have hz := fullDutyCompare_asymmetric hg
    exact ⟨hp, (modCompareOf_of_period_eq (hp.trans hz.symm)).trans hz, modPhaseOf_of_period_neg_one hp⟩
  · rw [modCompareOf_eq, modDutyOf_of_le h, ppmMean_zero]
  · rw [modCompareOf_eq, modDutyOf_of_ge h, ppmMean_million, fullDutyCompare]

/-! ## The scheduler in a tick (R160 to R162, R170, R171) -/

theorem inWindow_advanceTime (s : State) :
    inWindow (advanceTime s) = true ↔
      ¬(modRefresh s.cfg = 0 ∨ modEps s.cfg ≤ (s.tick.elapsed + s.cfg.tickPNs.toNat) % modRefresh s.cfg) := by
  rw [inWindow, decide_eq_true_iff, not_or, not_le]
  rfl

/-- Settles O32: MOD_CHECK after the advance of ELAPSED; a window already applied has its index in LASTWIN. -/
theorem modulationTick : Obligations.ModulationTick := by
  intro s e
  have happlies := modApplies_advanceTime s
  rw [tickService_pwm, modCheck_pwm]
  by_cases hw : modRefresh s.cfg = 0 ∨ modEps s.cfg ≤ e % modRefresh s.cfg
  · have hwin : ¬inWindow (advanceTime s) = true := by rw [inWindow_advanceTime]; exact not_not_intro hw
    have hno : ¬modApplies (advanceTime s) = true := by simp [modApplies, hwin]
    rw [if_neg hno, if_neg hwin, if_pos hw]
    rfl
  · have hwin := (inWindow_advanceTime s).2 hw
    obtain ⟨hR, hE⟩ := not_or.1 hw
    rw [if_neg hw]
    by_cases honce : s.cfg.modOnce = true ∧ s.pwm.lastWin = some (e / modRefresh s.cfg)
    · have hno : ¬modApplies (advanceTime s) = true := by
        rw [happlies]
        rintro ⟨_, _, hoff | hnew⟩
        · exact absurd (honce.1.symm.trans hoff) (by decide)
        · exact hnew honce.2
      rw [if_neg hno, if_pos hwin, if_pos honce]
      exact congrArg (fun w => { s.pwm with lastWin := w }) honce.2.symm
    · have hyes : modApplies (advanceTime s) = true :=
        happlies.2 ⟨hR, not_le.1 hE, by rwa [not_and_or, Bool.not_eq_true] at honce⟩
      rw [if_pos hyes, if_neg honce]
      rfl

/-! ## MOD_ONCE (R162) -/

theorem tickService_pwm_of_applied {s : State} (honce : s.cfg.modOnce = true)
    (hwin : s.pwm.lastWin = some ((s.tick.elapsed + s.cfg.tickPNs.toNat) / modRefresh s.cfg)) :
    (tickService s).pwm = s.pwm := by
  rw [modulationTick s, if_pos (And.intro honce hwin), ite_self]

theorem iterate_tickService_elapsed (n : ℕ) (s : State) :
    (tickService^[n] s).tick.elapsed = s.tick.elapsed + n * s.cfg.tickPNs.toNat := by
  induction n with
  | zero => simp
  | succ n ih =>
    rw [Function.iterate_succ_apply', tickService, tickServiceWith_tick, ih, iterate_tickService_keeps tickService_cfg]
    ring

/-- Settles O33: LASTWIN stays the index of the period that each further tick's ELAPSED lies in. -/
theorem modOnceAppliesOncePerWindow : Obligations.ModOnceAppliesOncePerWindow := by
  intro s w n honce hlast hstay
  induction n with
  | zero => rfl
  | succ n ih =>
    have hpwm := ih fun j hj => hstay j (Nat.le_succ_of_le hj)
    have hcfg : (tickService^[n] s).cfg = s.cfg := iterate_tickService_keeps tickService_cfg n s
    have hnext : ((tickService^[n] s).tick.elapsed + s.cfg.tickPNs.toNat) / modRefresh s.cfg = w := by
      rw [iterate_tickService_elapsed, add_assoc, ← Nat.succ_mul, hstay _ le_rfl]
    rw [Function.iterate_succ_apply', tickService_pwm_of_applied (by rw [hcfg, honce])
      (by rw [hcfg, hpwm, hnext, hlast]), hpwm]

end Sys2Proof.Modulation
end

section
/-! PROOFS. The statements of 43_acquisition.md: CONV_DONE, ACQ_SERVICE, and the circular buffer. Serving one more result
writes it to the slot that WIDX names and keeps every other slot, so the buffer law goes by induction on the results, the
newest one last. -/

namespace Sys2Proof.Acquisition

open Sys2Proof.Machine Sys2Proof.Laws Sys2Proof.BlockState Sys2Proof.RegisterSpace Sys2Proof.Synthesizer

/-! ## CONV_DONE (R181 to R183) -/

/-- A channel that takes results: it exists, and the block runs with it enabled. -/
structure Armed (a : Chan) (s : State) : Prop where
  running : s.run = .running
  channel_exists : a.val < s.params.nacq
  enabled : s.acq[a].cfg.en = 1

theorem exec_convDone (ch : BitVec 4) (x : BitVec 12) (s : State) :
    exec (.convDone ch x) s = .next (convDoneEvent ch.toFin x s) := rfl

theorem convDoneEvent_of_absent {a : Chan} {s : State} (h : s.params.nacq ≤ a.val) (x : BitVec 12) :
    convDoneEvent a x s = report .evChannel s := if_pos h

theorem convDoneEvent_of_unarmed {a : Chan} {s : State} (ha : a.val < s.params.nacq)
    (h : s.run = .configuring ∨ s.acq[a].cfg.en = 0) (x : BitVec 12) : convDoneEvent a x s = s := by
  have hoff : isRunning s = false ∨ s.acq[a].cfg.en = 0 := h.imp_left fun hr => by rw [isRunning, hr]; rfl
  exact (if_neg (not_le.2 ha)).trans (if_pos hoff)

theorem convDoneEvent_of_armed {a : Chan} {s : State} (h : Armed a s) (x : BitVec 12) :
    convDoneEvent a x s =
      if s.acq[a].pend then report .acqOverrun (setAcq a { s.acq[a] with res := x, ovr := s.acq[a].ovr + 1 } s)
      else setAcq a { s.acq[a] with res := x, pend := true } s := by
  have hon : ¬(isRunning s = false ∨ s.acq[a].cfg.en = 0) := by
    rw [(isRunning_iff s).2 h.running, h.enabled]; decide
  exact (if_neg (not_le.2 h.channel_exists)).trans (if_neg hon)

theorem convDoneEvent_of_idle {a : Chan} {s : State} (h : Armed a s) (hp : s.acq[a].pend = false) (x : BitVec 12) :
    convDoneEvent a x s = setAcq a { s.acq[a] with res := x, pend := true } s := by
  rw [convDoneEvent_of_armed h, hp, if_neg Bool.false_ne_true]

/-- An overrun leaves the channel pending, as it was. -/
theorem convDoneEvent_of_pending {a : Chan} {s : State} (h : Armed a s) (hp : s.acq[a].pend = true) (x : BitVec 12) :
    convDoneEvent a x s =
      report .acqOverrun (setAcq a { s.acq[a] with res := x, pend := true, ovr := s.acq[a].ovr + 1 } s) := by
  rw [convDoneEvent_of_armed h, if_pos hp, ← hp]

/-- Settles O34: the channel's existence, its arming and its latch decide the case, and a report's mask and number are those
of its code. -/
theorem convDoneLatchesOrReports : Obligations.ConvDoneLatchesOrReports := by
  intro ch x s
  rw [exec_convDone]
  refine ⟨fun h => ?_, fun ha h => ?_, fun ha hr he hp => ?_, fun ha hr he hp => ?_⟩
  · rw [convDoneEvent_of_absent h]; rfl
  · rw [convDoneEvent_of_unarmed ha h]
  · rw [convDoneEvent_of_idle ⟨hr, ha, he⟩ hp]; rfl
  · rw [convDoneEvent_of_pending ⟨hr, ha, he⟩ hp]; rfl

/-! ## ACQ_SERVICE (R184, R188, R192) -/

/-- Settles O35: the service's one write to the storage is to the slot at WIDX. -/
theorem acqServiceStoresThenAdvances : Obligations.AcqServiceStoresThenAdvances := by
  intro s a
  refine ⟨rfl, ?_⟩
  rw [acqService_mem]
  refine ⟨readBuf_writeBuf_self _ _, fun b k h => ?_, readLut_writeBuf a _ _ _, fun x => readByte_writeBuf_of_ne _ _⟩
  exact readBuf_writeBuf_of_ne _ _ (h.imp Ne.symm Ne.symm)

/-! ## One result served -/

section Serve
variable {a : Chan} {s : State} (h : Armed a s) (hp : s.acq[a].pend = false) (x : BitVec 12)
include h hp

theorem acqService_convDoneEvent_acq :
    (acqService a (convDoneEvent a x s)).acq[a] = { s.acq[a] with
      res := x, widx := nextWidx s.acq[a].cfg.cap.toNat s.acq[a].widx, cnt := s.acq[a].cnt + 1, pend := false } := by
  rw [acqService_acq, if_pos rfl, convDoneEvent_of_idle h hp, setAcq_acq, chan_get_set, if_pos rfl]

theorem acqService_convDoneEvent_mem :
    (acqService a (convDoneEvent a x s)).mem = writeBuf a s.acq[a].widx x s.mem := by
  rw [acqService_mem, convDoneEvent_of_idle h hp, setAcq_acq, chan_get_set, if_pos rfl, setAcq_mem]

theorem armed_acqService_convDoneEvent : Armed a (acqService a (convDoneEvent a x s)) where
  running := by rw [acqService_frame, convDoneEvent_of_idle h hp]; exact h.running
  channel_exists := by rw [acqService_frame, convDoneEvent_of_idle h hp]; exact h.channel_exists
  enabled := by rw [acqService_convDoneEvent_acq h hp]; exact h.enabled

end Serve

/-! ## The circular buffer (R185, R186) -/

theorem serveResults_concat (a : Chan) (rs : List (BitVec 12)) (r : BitVec 12) (s : State) :
    serveResults a (rs ++ [r]) s = acqService a (convDoneEvent a r (serveResults a rs s)) := by
  rw [serveResults, List.foldl_append]; rfl

/-- The channel between two results: ready for the next one, with WIDX and ACQ_CNT telling how many came. -/
structure Served (a : Chan) (s : State) (n : ℕ) (t : State) : Prop where
  armed : Armed a t
  idle : t.acq[a].pend = false
  cfg_kept : t.acq[a].cfg = s.acq[a].cfg
  widx_eq : t.acq[a].widx = n % s.acq[a].cfg.cap.toNat
  cnt_eq : t.acq[a].cnt = s.acq[a].cnt + BitVec.ofNat 32 n

section Buffer
variable {a : Chan} {s : State} (h : ReadyToAcquire a s)
include h

theorem served_zero : Served a s 0 s where
  armed := ⟨h.running, h.channel_exists, h.enabled⟩
  idle := h.idle
  cfg_kept := rfl
  widx_eq := by rw [h.at_start, Nat.zero_mod]
  cnt_eq := (BitVec.add_zero _).symm

theorem served_succ {n : ℕ} {t : State} (ht : Served a s n t) (x : BitVec 12) :
    Served a s (n + 1) (acqService a (convDoneEvent a x t)) := by
  have hacq := acqService_convDoneEvent_acq ht.armed ht.idle x
  refine ⟨armed_acqService_convDoneEvent ht.armed ht.idle x, ?_, ?_, ?_, ?_⟩ <;> rw [hacq]
  · exact ht.cfg_kept
  · rw [ht.cfg_kept, ht.widx_eq]
    exact nextIndex_mod h.capacity_pos n
  · rw [ht.cnt_eq, BitVec.add_assoc, BitVec.ofNat_add]
    rfl

theorem served_serveResults (rs : List (BitVec 12)) : Served a s rs.length (serveResults a rs s) := by
  induction rs using List.reverseRecOn with
  | nil => exact served_zero h
  | append_singleton rs r ih =>
    rw [serveResults_concat, List.length_append]
    exact served_succ h ih r

/-- The next result goes to slot n mod C, and every other slot keeps its value. -/
theorem readBuf_serveResults_concat (rs : List (BitVec 12)) (r : BitVec 12) (k : ℕ) :
    readBuf (serveResults a (rs ++ [r]) s).mem a k =
      if k = rs.length % s.acq[a].cfg.cap.toNat then r else readBuf (serveResults a rs s).mem a k := by
  have hrs := served_serveResults h rs
  rw [serveResults_concat, acqService_convDoneEvent_mem hrs.armed hrs.idle, hrs.widx_eq]
  split
  case isTrue hk =>
    have hslot : k < acqMaxC := hk ▸ (Nat.mod_lt _ h.capacity_pos).trans_le h.capacity_le
    rw [← hk, readBuf_writeBuf_self _ _ hslot]
  case isFalse hk => exact readBuf_writeBuf_of_ne _ _ (.inr (Ne.symm hk))

/-- The slot of the j-th newest result is not written again while j < C. -/
theorem readBuf_serveResults_newest (rs : List (BitVec 12)) {j : ℕ} (hj : j < rs.length) (hC : j < s.acq[a].cfg.cap.toNat) :
    readBuf (serveResults a rs s).mem a ((rs.length - 1 - j) % s.acq[a].cfg.cap.toNat) = rs.reverse.getD j 0 := by
  induction rs using List.reverseRecOn generalizing j with
  | nil => cases hj
  | append_singleton rs r ih =>
    rw [readBuf_serveResults_concat h, List.length_append, List.length_singleton, Nat.add_sub_cancel, List.reverse_concat]
    cases j with
    | zero => exact if_pos rfl
    | succ j =>
      have hlen : j < rs.length := by simpa using hj
      have hslot : (rs.length - (j + 1)) % s.acq[a].cfg.cap.toNat ≠ rs.length % s.acq[a].cfg.cap.toNat := fun heq => by
        have hdvd := (Nat.modEq_iff_dvd' (Nat.sub_le _ _)).1 heq
        rw [Nat.sub_sub_self hlen] at hdvd
        exact Nat.not_dvd_of_pos_of_lt j.succ_pos hC hdvd
      have hindex : rs.length - (j + 1) = rs.length - 1 - j := by omega
      rw [if_neg hslot, hindex, ih hlen (by omega), List.getD_cons_succ]

/-- The first n results reach only the slots below n. -/
theorem readBuf_serveResults_unreached (rs : List (BitVec 12)) {k : ℕ} (hk : rs.length ≤ k) :
    readBuf (serveResults a rs s).mem a k = 0 := by
  induction rs using List.reverseRecOn with
  | nil => exact h.empty k
  | append_singleton rs r ih =>
    rw [List.length_append, List.length_singleton] at hk
    have hslot : k ≠ rs.length % s.acq[a].cfg.cap.toNat := by
      have := Nat.mod_le rs.length s.acq[a].cfg.cap.toNat
      omega
    rw [readBuf_serveResults_concat h, if_neg hslot, ih (by omega)]

end Buffer

/-- Settles O36: WIDX and the counter count the results, and each slot holds the last result written to it. -/
theorem bufferHoldsTheLastResults : Obligations.BufferHoldsTheLastResults := by
  intro a s rs h
  have hserved := served_serveResults h rs
  exact ⟨hserved.widx_eq, hserved.cnt_eq, fun _ => readBuf_serveResults_newest h rs,
    fun _ => readBuf_serveResults_unreached h rs⟩

end Sys2Proof.Acquisition
end

section
/-! PROOFS. The statements of 44_host_access.md: the writes that are accepted, what a configuration register holds after one,
the write-one-to-clear of STATUS, and the validation of START. A configuration write changes one field of one block of
registers, the global one or a channel's: a register of another block is kept with its block, and one of the same block by
its field. -/

namespace Sys2Proof.HostAccess

open Sys2Proof.Machine Sys2Proof.Laws Sys2Proof.BlockState Sys2Proof.RegisterSpace

/-! ## Accepted writes (R205, R209) -/

/-- A write that passes the five checks has its effect and is answered. -/
theorem exec_of_writeCheck_none {s : State} {addr : HAddr} {d : Word} {r : Reg} (h4 : addr.toNat % 4 = 0)
    (hr : regAt s.params addr = some r) (hk : writeCheck s r d = none) :
    exec (.hostWr addr d) s = .next (answerAccess 0 (writeEffect s.params.sine r d s)) := by
  rw [exec_hostWr, hostWrite, hostWriteWith, locate_of_regAt h4 hr]
  dsimp only
  rw [hk]

theorem isRunning_of_configuring {s : State} (hs : s.run = .configuring) : isRunning s = false := by
  rw [isRunning, hs]; rfl

theorem writeCheck_cfg_of_configuring {s : State} (hs : s.run = .configuring) (r : CfgReg) (d : Word) :
    writeCheck s (.cfg r) d = none := by
  rw [writeCheck, isRunning_of_configuring hs, if_neg Bool.false_ne_true]

/-- A CTRL write without RUN is not a START, so it needs no validation. -/
theorem writeCheck_ctrl_of_no_run {s : State} (hs : s.run = .configuring) {d : Word} (hd : d.getLsbD 0 = false) :
    writeCheck s .ctrl d = none := by
  simp only [writeCheck, isRunning_of_configuring hs, hd, Bool.false_eq_true, false_and, if_false]

theorem ctrlWrite_of_no_run (o : SineOracle) {d : Word} (hd : d.getLsbD 0 = false) (s : State) :
    ctrlWrite o d s = { s with cfg := { s.cfg with modOnce := d.getLsbD 1 } } := by
  rw [ctrlWrite, hd, if_neg Bool.false_ne_true]

/-- STATUS is written in either run state. -/
theorem exec_hostWr_status (d : Word) (s : State) :
    exec (.hostWr 0x0000C d) s = .next (answerAccess 0 (writeStatus d s)) :=
  exec_of_writeCheck_none (r := .status) rfl rfl rfl

/-- Settles O42: each write names a register whose checks pass, and the answer writes the trace alone. -/
theorem hostWritePerforms : Obligations.HostWritePerforms := by
  intro s d
  refine ⟨exec_hostWr_status d s, fun hs hd => ?_, fun hs addr r h4 hr => ?_⟩
  · rw [exec_of_writeCheck_none (r := .ctrl) rfl rfl (writeCheck_ctrl_of_no_run hs hd), writeEffect, ctrlWrite_of_no_run _ hd]
    rfl
  · rw [exec_of_writeCheck_none h4 hr (writeCheck_cfg_of_configuring hs r d), writeEffect, answerAccess, emit, writeCfg_trace]

/-! ## Configuration registers (R206) -/

theorem mapSynCfg_cfg_self (c : Chan) (f : SynCfg → SynCfg) (s : State) :
    (mapSynCfg c f s).syn[c].cfg = f s.syn[c].cfg := by
  rw [mapSynCfg_syn, if_pos rfl]

theorem mapAcqCfg_cfg_self (a : Chan) (f : AcqCfg → AcqCfg) (s : State) :
    (mapAcqCfg a f s).acq[a].cfg = f s.acq[a].cfg := by
  rw [mapAcqCfg_acq, if_pos rfl]

/-! ### The register written -/

/-- A field of k bits keeps the low k bits of the word. -/
theorem setWidth_setWidth_eq_and_mask (k : ℕ) (d : Word) :
    (d.setWidth k).setWidth 32 = d &&& (BitVec.allOnes k).setWidth 32 := by
  refine BitVec.eq_of_getLsbD_eq fun i hi => ?_
  simp [hi, Bool.and_comm]

theorem eq_and_fullMask (d : Word) : d = d &&& 0xFFFFFFFF := BitVec.and_allOnes.symm

/-- The mask of R206 is the width of the register's field. -/
theorem readCfg_writeCfg_self (r : CfgReg) (d : Word) (s : State) : readCfg (writeCfg r d s) r = d &&& writeMask r := by
  cases r
  case modGeom => exact setWidth_setWidth_eq_and_mask 1 d
  case synMode c =>
    rw [readCfg, writeCfg, mapSynCfg_cfg_self]
    exact setWidth_setWidth_eq_and_mask 2 d
  case synShift c =>
    rw [readCfg, writeCfg, mapSynCfg_cfg_self]
    exact setWidth_setWidth_eq_and_mask 4 d
  case synFreq | synAmp | synOffset | synOutmax | synLutN | synGain =>
    rw [readCfg, writeCfg, mapSynCfg_cfg_self]
    exact eq_and_fullMask d
  case acqCtrl a =>
    rw [readCfg, writeCfg, mapAcqCfg_cfg_self]
    exact setWidth_setWidth_eq_and_mask 1 d
  case acqCap a =>
    rw [readCfg, writeCfg, mapAcqCfg_cfg_self]
    exact eq_and_fullMask d
  all_goals exact eq_and_fullMask d

/-! ### The other registers -/

/-- The records that hold the fields of the CFG registers: the global one, and one for each channel. -/
inductive CfgBlock where
  | global
  | syn (c : Chan)
  | acq (a : Chan)

/-- The record that holds a CFG register's field. -/
def cfgBlock : CfgReg → CfgBlock
  | .tickPNs | .trigDiv | .liveDiv | .modFreq | .modDuty | .modPhase | .modGeom | .modClkbase | .modRefreshLo
  | .modRefreshHi | .modEpsLo | .modEpsHi => .global
  | .synMode c | .synFreq c | .synAmp c | .synOffset c | .synOutmax c | .synLutN c | .synGain c | .synShift c => .syn c
  | .acqCtrl a | .acqCap a => .acq a

theorem readCfg_mapSynCfg_of_ne {q : CfgReg} {c : Chan} (h : cfgBlock q ≠ .syn c) (f : SynCfg → SynCfg) (s : State) :
    readCfg (mapSynCfg c f s) q = readCfg s q := by
  have hsyn {e : Chan} (he : CfgBlock.syn e ≠ .syn c) : (mapSynCfg c f s).syn[e] = s.syn[e] := by
    rw [mapSynCfg_syn, if_neg fun hce => he (congrArg _ hce.symm)]
  cases q
  case synMode | synFreq | synAmp | synOffset | synOutmax | synLutN | synGain | synShift =>
    rw [readCfg, readCfg, hsyn h]
  all_goals rfl

theorem readCfg_mapAcqCfg_of_ne {q : CfgReg} {a : Chan} (h : cfgBlock q ≠ .acq a) (f : AcqCfg → AcqCfg) (s : State) :
    readCfg (mapAcqCfg a f s) q = readCfg s q := by
  have hacq {e : Chan} (he : CfgBlock.acq e ≠ .acq a) : (mapAcqCfg a f s).acq[e] = s.acq[e] := by
    rw [mapAcqCfg_acq, if_neg fun hae => he (congrArg _ hae.symm)]
  cases q
  case acqCtrl | acqCap => rw [readCfg, readCfg, hacq h]
  all_goals rfl

/-- A register off the global record reads channels alone. -/
theorem readCfg_of_ne_global {q : CfgReg} (h : cfgBlock q ≠ .global) (s : State) (g : GlobalCfg) :
    readCfg { s with cfg := g } q = readCfg s q := by
  cases q
  case synMode | synFreq | synAmp | synOffset | synOutmax | synLutN | synGain | synShift | acqCtrl | acqCap => rfl
  all_goals exact absurd rfl h

theorem readCfg_writeCfg_of_cfgBlock_ne {q r : CfgReg} (h : cfgBlock q ≠ cfgBlock r) (d : Word) (s : State) :
    readCfg (writeCfg r d s) q = readCfg s q := by
  cases r
  case synMode | synFreq | synAmp | synOffset | synOutmax | synLutN | synGain | synShift =>
    exact readCfg_mapSynCfg_of_ne h _ s
  case acqCtrl | acqCap => exact readCfg_mapAcqCfg_of_ne h _ s
  all_goals exact readCfg_of_ne_global h s _

/-- The fields of one record are apart: in each case `cases h` leaves the registers of the record that `r` writes. -/
theorem readCfg_writeCfg_of_cfgBlock_eq {q r : CfgReg} (h : cfgBlock q = cfgBlock r) (hqr : q ≠ r) (d : Word) (s : State) :
    readCfg (writeCfg r d s) q = readCfg s q := by
  cases r
  case synMode | synFreq | synAmp | synOffset | synOutmax | synLutN | synGain | synShift =>
    cases q <;> cases h
    all_goals simp_all only [readCfg, writeCfg, mapSynCfg_cfg_self, ne_eq, not_true_eq_false]
  case acqCtrl | acqCap =>
    cases q <;> cases h
    all_goals simp_all only [readCfg, writeCfg, mapAcqCfg_cfg_self, ne_eq, not_true_eq_false]
  all_goals
    cases q <;> cases h
    all_goals simp_all only [readCfg, writeCfg, ne_eq, not_true_eq_false]

theorem readCfg_writeCfg_of_ne {q r : CfgReg} (h : q ≠ r) (d : Word) (s : State) :
    readCfg (writeCfg r d s) q = readCfg s q := by
  by_cases hblock : cfgBlock q = cfgBlock r
  · exact readCfg_writeCfg_of_cfgBlock_eq hblock h d s
  · exact readCfg_writeCfg_of_cfgBlock_ne hblock d s

/-! ### Everything else -/

/-- MOD_ONCE is CTRL's, not a CFG register's. -/
theorem writeCfg_modOnce (r : CfgReg) (d : Word) (s : State) : (writeCfg r d s).cfg.modOnce = s.cfg.modOnce := by
  cases r <;> rfl

theorem writeCfg_syn_frame (r : CfgReg) (d : Word) (s : State) (c : Chan) :
    (writeCfg r d s).syn[c] = { s.syn[c] with cfg := (writeCfg r d s).syn[c].cfg } := by
  have hmap (e : Chan) (f : SynCfg → SynCfg) :
      (mapSynCfg e f s).syn[c] = { s.syn[c] with cfg := (mapSynCfg e f s).syn[c].cfg } := by
    rw [mapSynCfg_syn]; split <;> rfl
  cases r
  case synMode | synFreq | synAmp | synOffset | synOutmax | synLutN | synGain | synShift => exact hmap _ _
  all_goals rfl

theorem writeCfg_acq_frame (r : CfgReg) (d : Word) (s : State) (a : Chan) :
    (writeCfg r d s).acq[a] = { s.acq[a] with cfg := (writeCfg r d s).acq[a].cfg } := by
  have hmap (b : Chan) (f : AcqCfg → AcqCfg) :
      (mapAcqCfg b f s).acq[a] = { s.acq[a] with cfg := (mapAcqCfg b f s).acq[a].cfg } := by
    rw [mapAcqCfg_acq]; split <;> rfl
  cases r
  case acqCtrl | acqCap => exact hmap _ _
  all_goals rfl

/-- Settles O43: the register's field holds its bits of the word, and every other field is kept. -/
theorem configWritesStoreTheMask : Obligations.ConfigWritesStoreTheMask := by
  intro r d s
  refine ⟨readCfg_writeCfg_self r d s, fun q h => readCfg_writeCfg_of_ne h d s, ?_, writeCfg_syn_frame r d s,
    writeCfg_acq_frame r d s⟩
  rw [← writeCfg_modOnce r d s]
  exact writeCfg_frame r d s

/-! ## The write-one-to-clear of STATUS (R208) -/

theorem getLsbD_clearSticky (d : Word) (sticky : BitVec 7) {i : ℕ} (hi : i < 7) :
    (clearSticky d sticky).getLsbD i = (sticky.getLsbD i && !d.getLsbD (8 + i)) := by
  simp only [clearSticky, BitVec.getLsbD_and, BitVec.getLsbD_not, BitVec.getLsbD_extractLsb', hi, decide_true, Bool.true_and]

/-- Settles O46: the write reaches STATUS through the sticky bits alone, which are its bits 8 to 14. -/
theorem statusWriteClearsWrittenOnes : Obligations.StatusWriteClearsWrittenOnes := by
  intro s d
  refine ⟨_, exec_hostWr_status d s, rfl, fun i hi => ?_⟩
  have hpend : acqAnyPend (answerAccess 0 (writeStatus d s)) = acqAnyPend s := rfl
  have hsticky : (answerAccess 0 (writeStatus d s)).err.sticky = clearSticky d s.err.sticky := rfl
  rw [getLsbD_statusWord _ hi, getLsbD_statusWord _ hi, hpend, hsticky]
  by_cases hbit : 8 ≤ i ∧ i ≤ 14
  · have hflags : i ≠ 0 ∧ i ≠ 1 ∧ i ≠ 2 := by omega
    have hindex : 8 + (i - 8) = i := by omega
    have hclear := getLsbD_clearSticky d s.err.sticky (i := i - 8) (by omega)
    simp only [hflags, hbit, and_self, if_true, if_false, decide_true, Bool.true_and, hclear, hindex]
  · simp only [hbit, if_false, decide_false, Bool.false_and, Bool.not_false, Bool.and_true]
    rfl

/-! ## What START's validation checks (R215) -/

/-- Settles O50: a word is at least 1 exactly when it is not 0, and the rest is the validation over the existing channels. -/
theorem startValidationChecks : Obligations.StartValidationChecks := by
  intro s
  have htick : 1 ≤ s.cfg.tickPNs.toNat ↔ s.cfg.tickPNs ≠ 0 := BitVec.pos_iff_ne_zero _
  rw [htick]
  exact startValid_iff s

end Sys2Proof.HostAccess
end

section
/-! PROOFS. The statement of 60_exceptions.md: the codes that each word and each service can report. Each operation is one
of the cases of its inversion lemma, and a case adds no event, a report, or a response with at most a report before it; START
adds the reports of the tables that saturate, and no other step reports code 8. -/

namespace Sys2Proof.Exceptions

open Sys2Proof.Machine Sys2Proof.Laws Sys2Proof.BlockState Sys2Proof.Encoding Sys2Proof.Synthesizer

/-! ## Reports among the events of a step (R231) -/

/-- `t` extends the trace of `s`, and the codes that the new events report are among `codes`. -/
def ReportsOnly (codes : ErrCode → Prop) (s t : State) : Prop :=
  ∃ events, t.trace = s.trace ++ events ∧ ∀ k, OutEvent.error k ∈ events → codes k

section Reports
variable {codes : ErrCode → Prop} {s t : State}

theorem ReportsOnly.mono {codes' : ErrCode → Prop} (h : ReportsOnly codes s t) (himp : ∀ k, codes k → codes' k) :
    ReportsOnly codes' s t := by
  obtain ⟨events, ht, hcodes⟩ := h
  exact ⟨events, ht, fun k hk => himp k (hcodes k hk)⟩

theorem reportsOnly_of_trace_eq (h : t.trace = s.trace) : ReportsOnly codes s t :=
  ⟨[], h.trans (List.append_nil _).symm, nofun⟩

theorem reportsOnly_report {k : ErrCode} (hk : codes k) (h : t.trace = s.trace) : ReportsOnly codes s (report k t) := by
  refine ⟨[.error k], by rw [report_trace, h], fun j hj => ?_⟩
  cases List.mem_singleton.1 hj
  exact hk

/-- A response reports nothing. -/
theorem ReportsOnly.answerAccess (h : ReportsOnly codes s t) (v : Word) : ReportsOnly codes s (answerAccess v t) := by
  obtain ⟨events, ht, hcodes⟩ := h
  refine ⟨events ++ [.hostResp true v], by rw [Machine.answerAccess, emit_trace, ht, List.append_assoc], fun k hk => ?_⟩
  exact hcodes k ((List.mem_append.1 hk).resolve_right (by simp))

theorem reportsOnly_refuseAccess {k : ErrCode} (hk : codes k) (s : State) : ReportsOnly codes s (refuseAccess k s) := by
  refine ⟨[.error k, .hostResp false 0], by rw [refuseAccess_eq], fun j hj => ?_⟩
  have hjk : j = k := by simpa using hj
  exact hjk ▸ hk

end Reports

/-! ## What each operation reports (R233) -/

theorem reportsOnly_tickEvent (s : State) : ReportsOnly (· = .tickMissed) s (tickEvent s) := by
  rcases tickEvent_cases s with ⟨_, h⟩ | ⟨_, _, h⟩ | ⟨_, _, h⟩ <;> rw [h]
  · exact reportsOnly_of_trace_eq rfl
  · exact reportsOnly_of_trace_eq rfl
  · exact reportsOnly_report rfl rfl

theorem reportsOnly_convDoneEvent (a : Chan) (x : BitVec 12) (s : State) :
    ReportsOnly (fun k => k = .evChannel ∨ k = .acqOverrun) s (convDoneEvent a x s) := by
  rcases convDoneEvent_cases a x s with ⟨_, h⟩ | ⟨_, _, h⟩ | ⟨_, _, _, _, h⟩ | ⟨_, _, _, _, h⟩ <;> rw [h]
  · exact reportsOnly_report (.inl rfl) rfl
  · exact reportsOnly_of_trace_eq rfl
  · exact reportsOnly_report (.inr rfl) (setAcq_trace _ _ _)
  · exact reportsOnly_of_trace_eq (setAcq_trace _ _ _)

theorem reportsOnly_hostRead (addr : HAddr) (s : State) :
    ReportsOnly (fun k => k = .busMisaligned ∨ k = .busUnmapped) s (hostRead addr s) := by
  rcases hostRead_cases addr s with ⟨k, hk, h⟩ | ⟨r, _, _, h⟩ <;> rw [h]
  · exact reportsOnly_refuseAccess hk s
  · exact (reportsOnly_of_trace_eq (by rw [readEffect_eq])).answerAccess _

/-- A CTRL write reports saturation alone, and only as the START that makes the block run. -/
theorem reportsOnly_ctrlWrite (o : SineOracle) (d : Word) (s : State) :
    ReportsOnly (fun k => k = .lutSat ∧ (ctrlWrite o d s).run = .running) s (ctrlWrite o d s) := by
  unfold ctrlWrite
  split
  · refine ⟨_, congrArg State.trace (start_eq o _ s).1, fun k hk => ?_⟩
    obtain ⟨_, _, hsat⟩ := List.mem_map.1 hk
    cases hsat
    exact ⟨rfl, rfl⟩
  · exact reportsOnly_of_trace_eq rfl

/-- The codes of a HOST_WR that takes the block from `s` to `t`. -/
def WriteCode (s t : State) (k : ErrCode) : Prop :=
  k = .busMisaligned ∨ k = .busUnmapped ∨ k = .busReadonly ∨ k = .cfgLocked ∨ k = .startInvalid ∨
    (k = .lutSat ∧ s.run = .configuring ∧ t.run = .running)

theorem writeCode_lutSat {s t : State} (hs : s.run = .configuring) (ht : t.run = .running) : WriteCode s t .lutSat :=
  .inr (.inr (.inr (.inr (.inr ⟨rfl, hs, ht⟩))))

theorem reportsOnly_hostWrite (addr : HAddr) (d : Word) (s : State) :
    ReportsOnly (WriteCode s (hostWrite addr d s)) s (hostWrite addr d s) := by
  rcases hostWrite_cases addr d s with ⟨k, hk, h⟩ | ⟨_, _, h⟩ | ⟨_, _, hs, _, h⟩ | ⟨r, _, _, _, h⟩ <;> rw [h]
  · refine reportsOnly_refuseAccess ?_ s
    rcases hk with rfl | rfl | rfl | ⟨rfl, _⟩ | ⟨rfl, _⟩ <;> simp [WriteCode]
  · exact (reportsOnly_of_trace_eq rfl).answerAccess 0
  · refine ((reportsOnly_ctrlWrite _ d s).answerAccess 0).mono ?_
    rintro k ⟨rfl, hrun⟩
    exact writeCode_lutSat hs hrun
  · exact (reportsOnly_of_trace_eq (writeCfg_trace r d s)).answerAccess 0

theorem reportsOnly_resetBlock (s : State) : ReportsOnly (fun _ => False) s (resetBlock s) :=
  ⟨[.resetDone], rfl, by simp⟩

/-! ## What a service reports -/

/-- The events of a tick are SINK, PWM_APPLY, LIVE and CONV_START (R113). -/
theorem reportsOnly_tickService (s : State) : ReportsOnly (fun _ => False) s (tickService s) := by
  refine ⟨_, (tickServiceWith_trace s.params.sine s).trans (by simp only [List.append_assoc]; rfl), fun k hk => ?_⟩
  have hsink (c : Chan) : OutEvent.error k ∉ sinkEvents s.params.sine s.mem s.tick.elapsed c s.syn[c] := by
    unfold sinkEvents; split <;> simp
  have hmod : OutEvent.error k ∉ modEvents (advanceTime s) := by unfold modEvents; split <;> simp
  have hlive : OutEvent.error k ∉ liveEvents s := by unfold liveEvents; split <;> simp
  have htrig : OutEvent.error k ∉ trigEvents s := by unfold trigEvents; split <;> simp
  simp only [List.mem_append, hmod, hlive, htrig, or_false] at hk
  obtain ⟨c, _, hc⟩ := List.mem_flatMap.1 hk
  exact hsink c hc

/-! ## What a word reports -/

/-- The table of R233, by OP: the codes of a word that takes the block from `s` to `t`. -/
def CodeOfOp (op : BitVec 4) (s t : State) (k : ErrCode) : Prop :=
  (op = 1 ∧ (k = .evMalformed ∨ k = .tickMissed)) ∨
  (op = 2 ∧ (k = .evMalformed ∨ k = .evChannel ∨ k = .acqOverrun)) ∨
  (op = 4 ∧ (k = .evMalformed ∨ k = .busMisaligned ∨ k = .busUnmapped)) ∨
  (op = 3 ∧ (k = .evMalformed ∨ WriteCode s t k)) ∨
  (op ≠ 15 ∧ op ∉ [1#4, 2#4, 3#4, 4#4] ∧ k = .evMalformed)

/-- OP of an operation's words (R91). -/
def opOf : Instr → BitVec 4
  | .tick => 1
  | .convDone _ _ => 2
  | .hostWr _ _ => 3
  | .hostRd _ => 4
  | .reset => 15

theorem opField_of_decode {w : EventWord} {i : Instr} (h : decode w = .ok i) : opField w = opOf i := by
  obtain ⟨hrow, _⟩ := accepts_of_decode h
  cases i with
  | tick => exact ((accepts_tick w).1 hrow).1
  | convDone ch x => exact ((accepts_convDone w).1 hrow).1
  | hostWr addr d => exact ((accepts_hostWr w).1 hrow).1
  | hostRd addr => exact ((accepts_hostRd w).1 hrow).1
  | reset => exact (accepts_reset w).1 hrow

/-- A well-formed word reports what its operation does; RESET, the one operation of OP 15, reports nothing. -/
theorem reportsOnly_eventResult {w : EventWord} {i : Instr} (h : decode w = .ok i) (s : State) :
    ReportsOnly (CodeOfOp (opField w) s (eventResult i s)) s (eventResult i s) := by
  rw [opField_of_decode h]
  cases i with
  | tick => exact (reportsOnly_tickEvent s).mono fun k hk => .inl ⟨rfl, .inr hk⟩
  | convDone ch x =>
    exact (reportsOnly_convDoneEvent (chanOf ch) x s).mono fun k hk => .inr (.inl ⟨rfl, .inr hk⟩)
  | hostWr addr d =>
    exact (reportsOnly_hostWrite addr d s).mono fun k hk => .inr (.inr (.inr (.inl ⟨rfl, .inr hk⟩)))
  | hostRd addr => exact (reportsOnly_hostRead addr s).mono fun k hk => .inr (.inr (.inl ⟨rfl, .inr hk⟩))
  | reset => exact (reportsOnly_resetBlock s).mono fun k hk => hk.elim

theorem undefined_of_reserved {op : BitVec 4} (h : op = 0 ∨ (5 ≤ op.toNat ∧ op.toNat ≤ 14)) :
    op ≠ 15 ∧ op ∉ [1#4, 2#4, 3#4, 4#4] := by
  revert op; decide

/-- Code 6 can come with every OP but RESET's, of which no word is MALFORMED (R97, R100). -/
theorem codeOfOp_of_malformed {w : EventWord} {why : Malformed} (h : decode w = .error why) (s t : State) :
    CodeOfOp (opField w) s t .evMalformed := by
  rcases (malformed_iff_fields w).1 ⟨why, h⟩ with hres | ⟨hop, _⟩ | ⟨hop, _⟩ | ⟨hop, _⟩ | ⟨hop, _⟩
  · obtain ⟨h15, hlist⟩ := undefined_of_reserved hres
    exact .inr (.inr (.inr (.inr ⟨h15, hlist, rfl⟩)))
  · exact .inl ⟨hop, .inl rfl⟩
  · exact .inr (.inl ⟨hop, .inl rfl⟩)
  · exact .inr (.inr (.inr (.inl ⟨hop, .inl rfl⟩)))
  · exact .inr (.inr (.inl ⟨hop, .inl rfl⟩))

theorem reportsOnly_wordResult (w : EventWord) (s : State) :
    ReportsOnly (CodeOfOp (opField w) s (wordResult w s)) s (wordResult w s) := by
  rcases wordResultBy_cases eventResult w s with ⟨i, hi, h⟩ | ⟨why, hwhy, h⟩ <;> rw [wordResult, h]
  · exact reportsOnly_eventResult hi s
  · exact reportsOnly_report (codeOfOp_of_malformed hwhy s _) rfl

/-- Settles O48: a word reports what its operation, or its malformation, does, and the services report nothing. -/
theorem reportedCodesOfEachStep : Obligations.ReportedCodesOfEachStep := by
  refine ⟨fun s t w h => ?_, reportsOnly_tickService, fun s a => setAcq_trace _ _ _⟩
  rw [acceptWord_eq] at h
  cases h
  exact reportsOnly_wordResult w s

end Sys2Proof.Exceptions
end

section
/-! PROOFS. The statements of 70_reset_and_hazards.md: the power-on values and RESET. A register reads one field of the state,
one channel's field, or one entry of the storage; the power-on state has R261's values in its records, the same channel at
each place, and an empty storage. -/

namespace Sys2Proof.ResetAndHazards

open Sys2Proof.Machine Sys2Proof.Laws Sys2Proof.BlockState

/-! ## The power-on state (R261) -/

theorem syn_powerOn (p : Params) (c : Chan) : (State.powerOn p).syn[c] = .reset := chan_get_replicate _ c

theorem acq_powerOn (p : Params) (a : Chan) : (State.powerOn p).acq[a] = .reset := chan_get_replicate _ a

/-! ### The registers computed from the state -/

theorem phaseWord_zero : phaseWord 0 = 0 := by simp [phaseWord, wrap32, Rat.floor_def]

theorem isRunning_powerOn (p : Params) : isRunning (State.powerOn p) = false := rfl

theorem acqAnyPend_powerOn (p : Params) : acqAnyPend (State.powerOn p) = false := by
  refine List.any_eq_false.2 fun a _ => ?_
  rw [acq_powerOn]
  decide

/-- Neither MOD_ONCE nor RUN is set. -/
theorem ctrlWord_powerOn (p : Params) : ctrlWord (State.powerOn p) = 0 := by
  rw [ctrlWord, isRunning_powerOn]
  simp [State.powerOn, GlobalCfg.reset, flagWord]

/-- No flag is up and no sticky bit is set. -/
theorem statusWord_powerOn (p : Params) : statusWord (State.powerOn p) = 0 := by
  rw [statusWord, acqAnyPend_powerOn, isRunning_powerOn]
  simp [State.powerOn, ErrState.reset, flagWord]

/-- HWCFG packs the counts and the two constants 16 and 12 without overlap (10_state.md R24). -/
theorem hwcfgWord_eq_resetWord (p : Params) : hwcfgWord p = resetWord p (.ro .hwcfg) := by
  rw [hwcfgWord, resetWord]
  congr 1
  omega

/-! ### Every register -/

theorem readCfg_powerOn (p : Params) (r : CfgReg) : readCfg (State.powerOn p) r = resetWord p (.cfg r) := by
  cases r with
  | synMode c | synFreq c | synAmp c | synOffset c | synOutmax c | synLutN c | synGain c | synShift c =>
    rw [readCfg, syn_powerOn]
    rfl
  | acqCtrl a | acqCap a =>
    rw [readCfg, acq_powerOn]
    rfl
  | _ => rfl

theorem readRo_powerOn (p : Params) (r : RoReg) : readRo (State.powerOn p) r = resetWord p (.ro r) := by
  cases r with
  | hwcfg => exact hwcfgWord_eq_resetWord p
  | synPhase c =>
    rw [readRo, syn_powerOn]
    exact phaseWord_zero
  | synIndex c | synOut c =>
    rw [readRo, syn_powerOn]
    rfl
  | acqWidx a | acqCnt a | acqOvr a | acqStat a | acqResult a =>
    rw [readRo, acq_powerOn]
    rfl
  | lut c k => exact congrArg wrap32 (readLut_nil c k)
  | buf a k => exact congrArg (BitVec.setWidth 32) (readBuf_nil a k)
  | _ => rfl

theorem readValue_powerOn (p : Params) (r : Reg) : readValue (State.powerOn p) r = resetWord p r := by
  cases r with
  | ctrl => exact ctrlWord_powerOn p
  | status => exact statusWord_powerOn p
  | cfg r => exact readCfg_powerOn p r
  | ro r => exact readRo_powerOn p r

/-- Settles O56: every register by its kind; the other state is the power-on record's own field, or a channel's. -/
theorem powerOnValues : Obligations.PowerOnValues := by
  refine ⟨readValue_powerOn, fun p => ⟨rfl, rfl, rfl, rfl, rfl, rfl, rfl, rfl, fun c => ?_, fun a => ?_⟩, rfl⟩
  · rw [syn_powerOn]
    exact ⟨rfl, rfl, rfl, rfl⟩
  · rw [acq_powerOn]
    rfl

/-! ## RESET (R260, R262) -/

theorem exec_reset (s : State) : exec .reset s = .next (resetBlock s) := exec_eq .reset s

/-- RESET reads nothing but the parameters, the turns and the trace, and those stay but for RESET_DONE (log 11). -/
theorem resetBlock_eq (s : State) :
    resetBlock s =
      { State.powerOn s.params with turns := s.turns, trace := s.trace ++ [.resetDone] } := rfl

/-- A second RESET finds the parameters, turns and trace that the first one left, so it only adds its event. -/
theorem resetBlock_resetBlock (s : State) : resetBlock (resetBlock s) = emit .resetDone (resetBlock s) := by
  rw [resetBlock_eq (resetBlock s), resetBlock_eq s]
  rfl

/-- Settles O55: RESET is `resetBlock`, once and then twice. -/
theorem resetRestoresTheResetState : Obligations.ResetRestoresTheResetState := fun s =>
  ⟨by rw [exec_reset, resetBlock_eq],
    resetBlock s, resetBlock (resetBlock s), exec_reset s, exec_reset _, resetBlock_resetBlock s⟩

end Sys2Proof.ResetAndHazards
end
